-- ==== Sys2Proof/Word.lean ====
section
/-! DEFINITION. The word types of HBC (00_scope.md R7, R9): all fields are unsigned bit vectors. -/

namespace Sys2Proof

/-- A command word or a response word (`CMD_W`, `RSP_W`; 00_scope.md R7). -/
abbrev Word32 := BitVec 32

/-- A payload byte or a character code (00_scope.md R11). -/
abbrev Byte := BitVec 8

/-- A symbol, 0..255 (`SYM_W`; 00_scope.md R7, R14). -/
abbrev Symbol := BitVec 8

/-- A tree-RAM index or a child field, 0..511 (10_state.md R30). -/
abbrev NodeIndex := BitVec 9

/-- One 16-bit word of code bits (10_state.md R25). -/
abbrev CodeWord := BitVec 16

end Sys2Proof
end

