-- ==== Sys2Proof/Config.lean ====
section
/-! DEFINITION. The parameters of 00_scope.md R7. All are fixed but three that the spec leaves open and on which no
rule depends; those are opaque constants, and no definition of the model reads them (log entry 11). -/

namespace Sys2Proof.Config

/-- Code-table entries, one per symbol value (00_scope.md R7). -/
abbrev CT_ENTRIES : Nat := 256

/-- 16-bit words per code-table entry (00_scope.md R7). -/
abbrev CT_WORDS : Nat := 16

/-- The longest code, in bits (00_scope.md R7). -/
abbrev L_MAX : Nat := 255

/-- Tree-RAM nodes, indices 0..510 (00_scope.md R7). -/
abbrev T_NODES : Nat := 511

/-- The child index that means "no child" (00_scope.md R7). -/
def NIL : NodeIndex := 511

/-- The index of the root node (00_scope.md R7). -/
abbrev ROOT : NodeIndex := 0

/-- The identification word (00_scope.md R1; 10_state.md R40). -/
abbrev ID : Word32 := 0x48554631

/-- OPEN: cycles from a command's acceptance to the next one's (00_scope.md R7; 70_reset_and_hazards.md R246). -/
opaque CMD_LATENCY : Nat

/-- OPEN: cycles from a command's acceptance to its first output transfer (00_scope.md R7; 70_reset_and_hazards.md R246). -/
opaque OUT_LATENCY : Nat

/-- OPEN: where a host maps the block, if it does (20_memory.md R68). -/
opaque HBC_BASE : Nat

end Sys2Proof.Config
end

