-- ==== Sys2Proof/Syntax.lean ====
section
/-! DEFINITION. The HBC-1 commands: one constructor per row of spec/opcode_table.json, with the row's operand fields
(30_encoding.md R81-R89), and the lines of an assembler listing (30_encoding.md R96, R97). -/

namespace Sys2Proof

/-- A command with its operands. `BitVec` operands have the width of their field; which operand values are legal is
`Instr.wellFormed` (30_encoding.md R92). -/
inductive Instr where
  /-- NOP (43_control.md R180) -/
  | nop
  /-- CT_LEN s, L (41_encoder.md R113) -/
  | ctLen (y : Symbol) (len : BitVec 8)
  /-- CT_WORD s, w, d (41_encoder.md R114) -/
  | ctWord (y : Symbol) (w : BitVec 4) (d : CodeWord)
  /-- ENC_START (41_encoder.md R115) -/
  | encStart
  /-- ENC_SYM s (41_encoder.md R117) -/
  | encSym (y : Symbol)
  /-- ENC_FINISH (41_encoder.md R118) -/
  | encFinish
  /-- TREE_LEAF i, sym (42_decoder.md R141) -/
  | treeLeaf (i : NodeIndex) (y : Symbol)
  /-- TREE_INT i, l, r (42_decoder.md R142) -/
  | treeInt (i l r : NodeIndex)
  /-- DEC_SETN h, d (42_decoder.md R143) -/
  | decSetn (h : BitVec 1) (d : BitVec 16)
  /-- DEC_START (42_decoder.md R147) -/
  | decStart
  /-- DEC_BYTE v (42_decoder.md R149) -/
  | decByte (v : Byte)
  /-- DEC_BITCHAR c (42_decoder.md R150) -/
  | decBitchar (c : Byte)
  /-- DEC_END (42_decoder.md R151) -/
  | decEnd
  /-- RDREG a (43_control.md R181) -/
  | rdreg (a : BitVec 8)
  /-- RD_CTLEN s (43_control.md R182) -/
  | rdCtlen (y : Symbol)
  /-- RD_CTWORD s, w (43_control.md R183) -/
  | rdCtword (y : Symbol) (w : BitVec 4)
  /-- RD_TREE i (43_control.md R184) -/
  | rdTree (i : NodeIndex)
  /-- CLR_CMDERR (43_control.md R185) -/
  | clrCmderr
  deriving DecidableEq, Repr

/-- An operand of an assembler line: a number, or a name, `NIL` or a register's (30_encoding.md R96). -/
inductive AsmOperand where
  | number (v : Nat)
  | name (s : String)
  deriving DecidableEq, Repr

/-- One line of an assembler listing (30_encoding.md R96, R97). -/
inductive AsmLine where
  /-- a command -/
  | command (i : Instr)
  /-- a bare 32-bit word, sent as is -/
  | bare (x : Word32)
  /-- CT_LOAD s, "c_0...c_{L-1}": the bits of the code, first bit first -/
  | ctLoad (y : Symbol) (code : List Bool)
  /-- CT_CLEAR s -/
  | ctClear (y : Symbol)
  /-- DEC_SETN32 N -/
  | decSetn32 (n : BitVec 32)
  deriving DecidableEq, Repr

end Sys2Proof
end

