-- ==== Sys2Proof/WellFormed.lean ====
section
/-! DEFINITION. Which operand values a command may carry (30_encoding.md R92; 20_memory.md R61), and which lines an
assembler may hold (30_encoding.md R97). -/

namespace Sys2Proof

/-- The 14 legal register addresses (10_state.md R40). -/
def legalRegAddrs : List (BitVec 8) :=
  [0x00, 0x04, 0x05, 0x06, 0x07, 0x08, 0x10, 0x11, 0x12, 0x13, 0x14, 0x15, 0x20, 0x21]

/-- A node index names a node unless it is 511 (10_state.md R30; 30_encoding.md R92). -/
def nodeIndexOk (i : NodeIndex) : Bool := i != Config.NIL

/-- A register address is legal when 10_state.md R40 lists it (30_encoding.md R92). -/
def regAddrOk (a : BitVec 8) : Bool := legalRegAddrs.contains a

/-- The operand check of the command unit (30_encoding.md R92): every index is in range but the two kinds named there
(20_memory.md R61). Child fields of TREE_INT are not checked (42_decoder.md R142). -/
def Instr.wellFormed : Instr → Bool
  | .treeLeaf i _ => nodeIndexOk i
  | .treeInt i _ _ => nodeIndexOk i
  | .rdTree i => nodeIndexOk i
  | .rdreg a => regAddrOk a
  | .nop | .ctLen _ _ | .ctWord _ _ _ | .encStart | .encSym _ | .encFinish | .decSetn _ _ | .decStart
  | .decByte _ | .decBitchar _ | .decEnd | .rdCtlen _ | .rdCtword _ _ | .clrCmderr => true

/-- An assembler line is well formed when its command is, and when a CT_LOAD's code has 1 to 255 bits (30_encoding.md R97). -/
def AsmLine.wellFormed : AsmLine → Bool
  | .command i => i.wellFormed
  | .ctLoad _ code => decide (1 ≤ code.length ∧ code.length ≤ Config.L_MAX)
  | .bare _ | .ctClear _ | .decSetn32 _ => true

end Sys2Proof
end

