-- ==== Sys2Proof/Decode.lean ====
section
/-! DEFINITION. From a command word to a command or a named rejection (30_encoding.md R91-R93), and back. -/

namespace Sys2Proof

/-- Why a word is illegal (30_encoding.md R91-R93). Every one of these has the one effect of 60_exceptions.md R201. -/
inductive Illegal where
  /-- op `0xF` (R93) -/
  | reservedOp
  /-- op `0xD` with bits 27:26 = 11 (R93) -/
  | reservedRead
  /-- a nonzero bit in a field marked 0 (R91) -/
  | reservedBits
  /-- node index 511 (R92) -/
  | nodeIndex
  /-- a register address that 10_state.md R40 does not list (R92) -/
  | regAddr
  deriving DecidableEq, Repr

/-- A row of the opcode table: a word `x` selects the row with `x & mask = pattern`, and `build` reads its operand
fields (30_encoding.md R91). -/
structure OpRow where
  mnemonic : String
  mask : Word32
  pattern : Word32
  build : Word32 → Instr

/-- Whether the word selects the row (30_encoding.md R91). -/
def OpRow.selects (r : OpRow) (x : Word32) : Bool := x &&& r.mask == r.pattern

/-- The opcode table of 30_encoding.md R91, with the operand fields of R82-R89. -/
def opTable : List OpRow :=
  [⟨"NOP", 0xFFFFFFFF, 0x00000000, fun _ => .nop⟩,
   ⟨"CT_LEN", 0xF00FFF00, 0x10000000, fun x => .ctLen (x.extractLsb' 20 8) (x.extractLsb' 0 8)⟩,
   ⟨"CT_WORD", 0xF0000000, 0x20000000,
      fun x => .ctWord (x.extractLsb' 20 8) (x.extractLsb' 16 4) (x.extractLsb' 0 16)⟩,
   ⟨"ENC_START", 0xFFFFFFFF, 0x30000000, fun _ => .encStart⟩,
   ⟨"ENC_SYM", 0xFFFFFF00, 0x40000000, fun x => .encSym (x.extractLsb' 0 8)⟩,
   ⟨"ENC_FINISH", 0xFFFFFFFF, 0x50000000, fun _ => .encFinish⟩,
   ⟨"TREE_LEAF", 0xF007FF00, 0x60000000, fun x => .treeLeaf (x.extractLsb' 19 9) (x.extractLsb' 0 8)⟩,
   ⟨"TREE_INT", 0xF0040000, 0x60040000,
      fun x => .treeInt (x.extractLsb' 19 9) (x.extractLsb' 9 9) (x.extractLsb' 0 9)⟩,
   ⟨"DEC_SETN", 0xFFFE0000, 0x70000000, fun x => .decSetn (x.extractLsb' 16 1) (x.extractLsb' 0 16)⟩,
   ⟨"DEC_START", 0xFFFFFFFF, 0x80000000, fun _ => .decStart⟩,
   ⟨"DEC_BYTE", 0xFFFFFF00, 0x90000000, fun x => .decByte (x.extractLsb' 0 8)⟩,
   ⟨"DEC_BITCHAR", 0xFFFFFF00, 0xA0000000, fun x => .decBitchar (x.extractLsb' 0 8)⟩,
   ⟨"DEC_END", 0xFFFFFFFF, 0xB0000000, fun _ => .decEnd⟩,
   ⟨"RDREG", 0xFFFFFF00, 0xC0000000, fun x => .rdreg (x.extractLsb' 0 8)⟩,
   ⟨"RD_CTLEN", 0xFFFFFF00, 0xD0000000, fun x => .rdCtlen (x.extractLsb' 0 8)⟩,
   ⟨"RD_CTWORD", 0xFFFFF000, 0xD4000000, fun x => .rdCtword (x.extractLsb' 0 8) (x.extractLsb' 8 4)⟩,
   ⟨"RD_TREE", 0xFFFFFE00, 0xD8000000, fun x => .rdTree (x.extractLsb' 0 9)⟩,
   ⟨"CLR_CMDERR", 0xFFFFFFFF, 0xE0000000, fun _ => .clrCmderr⟩]

/-- The name of what is wrong with a word that selects no row (30_encoding.md R91, R93). -/
def noRowReason (x : Word32) : Illegal :=
  if x.extractLsb' 28 4 = 0xF then .reservedOp
  else if x.extractLsb' 28 4 = 0xD ∧ x.extractLsb' 26 2 = 3 then .reservedRead
  else .reservedBits

/-- The name of what is wrong with the operands of a command that is not well formed (30_encoding.md R92). -/
def operandReason : Instr → Illegal
  | .rdreg _ => .regAddr
  | .nop | .ctLen _ _ | .ctWord _ _ _ | .encStart | .encSym _ | .encFinish | .treeLeaf _ _ | .treeInt _ _ _
  | .decSetn _ _ | .decStart | .decByte _ | .decBitchar _ | .decEnd | .rdCtlen _ | .rdCtword _ _ | .rdTree _
  | .clrCmderr => .nodeIndex

/-- The operand check, after a row has been selected (30_encoding.md R92). -/
def checkOperands (i : Instr) : Except Illegal Instr :=
  if i.wellFormed then .ok i else .error (operandReason i)

/-- Decode a command word: select the row (30_encoding.md R91), then check the operand values (R92). Total on all words. -/
def decode (x : Word32) : Except Illegal Instr :=
  match opTable.find? (·.selects x) with
  | none => .error (noRowReason x)
  | some r => checkOperands (r.build x)

/-- The word of a command: the "Word" lines of 30_encoding.md R82-R89. -/
def encode : Instr → Word32
  | .nop => 0x00000000
  | .ctLen y len => 0x10000000 ||| (y.setWidth 32 <<< 20) ||| len.setWidth 32
  | .ctWord y w d => 0x20000000 ||| (y.setWidth 32 <<< 20) ||| (w.setWidth 32 <<< 16) ||| d.setWidth 32
  | .encStart => 0x30000000
  | .encSym y => 0x40000000 ||| y.setWidth 32
  | .encFinish => 0x50000000
  | .treeLeaf i y => 0x60000000 ||| (i.setWidth 32 <<< 19) ||| y.setWidth 32
  | .treeInt i l r => 0x60040000 ||| (i.setWidth 32 <<< 19) ||| (l.setWidth 32 <<< 9) ||| r.setWidth 32
  | .decSetn h d => 0x70000000 ||| (h.setWidth 32 <<< 16) ||| d.setWidth 32
  | .decStart => 0x80000000
  | .decByte v => 0x90000000 ||| v.setWidth 32
  | .decBitchar c => 0xA0000000 ||| c.setWidth 32
  | .decEnd => 0xB0000000
  | .rdreg a => 0xC0000000 ||| a.setWidth 32
  | .rdCtlen y => 0xD0000000 ||| y.setWidth 32
  | .rdCtword y w => 0xD4000000 ||| (w.setWidth 32 <<< 8) ||| y.setWidth 32
  | .rdTree i => 0xD8000000 ||| i.setWidth 32
  | .clrCmderr => 0xE0000000

/-- A command word given as spec/opcode_table.json numbers its bits: every HBC command is one 32-bit word (30_encoding.md R80),
so the bits stand as they are. -/
def tableWord (nbits w : Nat) : Word32 := (BitVec.ofNat nbits w).setWidth 32

/-- What the decoder reads from a word of the opcode table. -/
def decodeTableWord (nbits w : Nat) : Option Instr :=
  match decode (tableWord nbits w) with
  | .ok i => some i
  | .error _ => none

end Sys2Proof
end

