-- ==== Sys2Proof/Machine/State.lean ====
section
/-! DEFINITION. The state of HBC: the record of 10_state.md R20 in its three units (00_scope.md R2), and what stands at
the ports. Every reset value is the spec's (10_state.md R48). -/

namespace Sys2Proof.Machine

/-- A job state, of the encoder (10_state.md R23) or the decoder (10_state.md R32). -/
inductive EngState where
  | idle | active | done | error
  deriving DecidableEq, Repr

/-- The errors an engine can raise, and NONE (60_exceptions.md R204). -/
inductive ErrCode where
  | none | emptyInput | unknownSymbol | corruptTree | truncatedStream | invalidBit | sequence | countOverflow
  | invalidPath
  deriving DecidableEq, Repr

/-- A code-table entry (10_state.md R25). The 256 code bits are held as the sixteen 16-bit words in which they are
written and read: word `w` holds code bits `16w .. 16w+15` (log entry 5). -/
@[ext] structure CtEntry where
  len : BitVec 8
  code : Vector CodeWord Config.CT_WORDS
  deriving DecidableEq, Repr

/-- A tree-RAM node (10_state.md R20, R30). -/
inductive Node where
  | empty
  | leaf (y : Symbol)
  | internal (left right : NodeIndex)
  deriving DecidableEq, Repr

/-- The encoder engine's state (10_state.md R20). -/
@[ext] structure Encoder where
  /-- CT, indexed by the symbol (R25) -/
  ct : Vector CtEntry Config.CT_ENTRIES
  /-- ENC_STATE (R23) -/
  state : EngState
  /-- ENC_ERR (R24) -/
  err : BitVec 4
  /-- ENC_ACC (R27) -/
  acc : BitVec 8
  /-- ENC_ACCN (R27) -/
  accn : BitVec 3
  /-- ENC_COUNT (R28) -/
  count : BitVec 32
  /-- ENC_BITS (R29) -/
  bits : BitVec 64
  deriving DecidableEq, Repr

/-- The decoder engine's state (10_state.md R20). -/
@[ext] structure Decoder where
  /-- T, indexed 0..510 (R30) -/
  tree : Vector Node Config.T_NODES
  /-- DEC_STATE (R32) -/
  state : EngState
  /-- DEC_ERR (R33) -/
  err : BitVec 4
  /-- DEC_N (R34) -/
  n : BitVec 32
  /-- DEC_CUR (R35) -/
  cur : NodeIndex
  /-- DEC_EMITTED (R36) -/
  emitted : BitVec 32
  /-- DEC_BITS (R37) -/
  bits : BitVec 64
  /-- DEC_EXTRA (R38) -/
  extra : Bool
  deriving DecidableEq, Repr

/-- The command unit's state (10_state.md R39). -/
@[ext] structure CommandUnit where
  /-- CMD_ILL -/
  ill : Bool
  /-- CMD_BADWORD -/
  badword : Word32
  deriving DecidableEq, Repr

/-- An event of the observation log (00_scope.md R12). -/
inductive Event where
  | encByte (b : Byte)
  | decSym (y : Symbol)
  | rsp (w : Word32)
  deriving DecidableEq, Repr

/-- The three output streams (20_memory.md R64). -/
inductive OutStream where
  | encOut | decOut | rsp
  deriving DecidableEq, Repr

/-- What the host does next at the ports (70_reset_and_hazards.md R235, R244; log entries 1 and 4). -/
inductive HostMove where
  /-- transfer a command word on `cmd` -/
  | send (w : Word32)
  /-- be ready for one item of an output stream -/
  | accept (o : OutStream)
  /-- assert `rst_n` between two commands -/
  | reset
  /-- assert `rst_n` while the command `w` executes, when `k` of its events have been logged (R231) -/
  | resetDuring (w : Word32) (k : Nat)
  deriving DecidableEq, Repr

/-- What stands at the ports: the model's own fields, not part of the record of 10_state.md R20 (log entries 1 and 2). -/
@[ext] structure Ports where
  /-- the observation log (00_scope.md R12), oldest event first -/
  log : List Event
  /-- the outputs not yet transferred (10_state.md R47), in log order -/
  pending : List Event
  /-- the host's moves to come, the next one first -/
  input : List HostMove
  deriving DecidableEq, Repr

/-- The whole state: the three units (00_scope.md R2) and the ports. -/
@[ext]
structure State where
  enc : Encoder
  dec : Decoder
  cmd : CommandUnit
  io : Ports
  deriving DecidableEq, Repr

/-- No command can fault the block and every word is accepted (00_scope.md R13): there is no reason for a fault, so no
claim can rest on one (safe). What the spec calls errors are states, which the model takes. -/
inductive Fault where
  deriving DecidableEq, Repr

/-- Reasons to refuse an instruction. -/
inductive Refusal where
  /-- raised only by an arm of `exec` whose instruction has no meaning yet; no arm does (safe) -/
  | notModelled (mnemonic : String)
  deriving DecidableEq, Repr

/-- A code-table entry after reset (10_state.md R48). -/
def CtEntry.reset : CtEntry := { len := 0, code := Vector.replicate Config.CT_WORDS 0 }

/-- The encoder engine after reset (10_state.md R48). -/
def Encoder.reset : Encoder :=
  { ct := Vector.replicate Config.CT_ENTRIES CtEntry.reset, state := .idle, err := 0, acc := 0, accn := 0,
    count := 0, bits := 0 }

/-- The decoder engine after reset (10_state.md R48). -/
def Decoder.reset : Decoder :=
  { tree := Vector.replicate Config.T_NODES .empty, state := .idle, err := 0, n := 0, cur := 0, emitted := 0,
    bits := 0, extra := false }

/-- The command unit after reset (10_state.md R48). -/
def CommandUnit.reset : CommandUnit := { ill := false, badword := 0 }

/-- The machine right after the first reset (10_state.md R48; 70_reset_and_hazards.md R231, R232): nothing logged,
nothing pending, and no move of the host waiting (log entries 1 and 2). -/
def State.reset : State :=
  { enc := Encoder.reset, dec := Decoder.reset, cmd := CommandUnit.reset, io := { log := [], pending := [], input := [] } }

end Sys2Proof.Machine
end

