-- ==== Sys2Proof/Machine/Flags.lean ====
section
/-! DEFINITION. The codes of the job states and of the errors, the three status words and the level outputs
(10_state.md R41-R43, R46; 60_exceptions.md R204). -/

namespace Sys2Proof.Machine

/-- The STATE field (10_state.md R23, R32). -/
def EngState.code : EngState → BitVec 2
  | .idle => 0
  | .active => 1
  | .done => 2
  | .error => 3

/-- The 4-bit error code (60_exceptions.md R204). -/
def ErrCode.code : ErrCode → BitVec 4
  | .none => 0
  | .emptyInput => 1
  | .unknownSymbol => 2
  | .corruptTree => 3
  | .truncatedStream => 4
  | .invalidBit => 5
  | .sequence => 6
  | .countOverflow => 7
  | .invalidPath => 8

/-- ENC_STATUS: ACCN in bits 10:8, ERR in 7:4, STATE in 1:0 (10_state.md R41). -/
def Encoder.status (e : Encoder) : Word32 := (e.accn ++ e.err ++ (0 : BitVec 2) ++ e.state.code).setWidth 32

/-- DEC_STATUS: EXTRA in bit 8, ERR in 7:4, STATE in 1:0 (10_state.md R42). -/
def Decoder.status (d : Decoder) : Word32 :=
  (BitVec.ofBool d.extra ++ d.err ++ (0 : BitVec 2) ++ d.state.code).setWidth 32

/-- CMD_STATUS: CMD_ILL in bit 0 (10_state.md R43). -/
def CommandUnit.status (c : CommandUnit) : Word32 := (BitVec.ofBool c.ill).setWidth 32

/-- The level output `enc_err` (10_state.md R46). -/
def State.encErrOut (s : State) : Bool := s.enc.state == .error

/-- The level output `dec_err` (10_state.md R46). -/
def State.decErrOut (s : State) : Bool := s.dec.state == .error

/-- The level output `cmd_err` (10_state.md R46). -/
def State.cmdErrOut (s : State) : Bool := s.cmd.ill

end Sys2Proof.Machine
end

