-- ==== Sys2Proof/Machine/Operands.lean ====
section
/-! DEFINITION. Operand assembly: bit positions, code words, the halves of DEC_N, textual bits (30_encoding.md R90;
20_memory.md R62, R63). -/

namespace Sys2Proof.Machine

/-- `v` with bit `k` set to `b` (`v[k] <- b`; 00_scope.md R9, R11). -/
def putBit {n : Nat} (v : BitVec n) (k : Nat) (b : Bool) : BitVec n :=
  if b then v ||| BitVec.twoPow n k else v &&& ~~~BitVec.twoPow n k

/-- Code word `w` of an entry (20_memory.md R63; 43_control.md R183). -/
def CtEntry.word (e : CtEntry) (w : BitVec 4) : CodeWord := e.code[w.toNat]'w.isLt

/-- The entry with code word `w` replaced: `code[16w + k] <- d[15 - k]` (20_memory.md R63; 41_encoder.md R114). -/
def CtEntry.setWord (e : CtEntry) (w : BitVec 4) (d : CodeWord) : CtEntry :=
  { e with code := e.code.set w.toNat d w.isLt }

/-- Code bit `j` of an entry, 0..255: bit `15 - j mod 16` of word `j / 16` (10_state.md R25; 20_memory.md R63). -/
def CtEntry.codeBit (e : CtEntry) (j : Nat) : Bool := (e.word (BitVec.ofNat 4 (j / 16))).getMsbD (j % 16)

/-- The code of an entry, first bit first: `code[0] .. code[len-1]` (10_state.md R25; 41_encoder.md R111). -/
def CtEntry.codeBits (e : CtEntry) : List Bool := (List.range e.len.toNat).map e.codeBit

/-- `v` with bits `16h+15 .. 16h` replaced by `d` (30_encoding.md R90; 42_decoder.md R143). -/
def setHalf (v : BitVec 32) (h : BitVec 1) (d : BitVec 16) : BitVec 32 :=
  if h = 0 then v.extractLsb' 16 16 ++ d else d ++ v.extractLsb' 0 16

/-- The bits of a payload byte in the order the unpacker reads them, bit 7 first (20_memory.md R62). -/
def byteBits (v : Byte) : List Bool := (List.range 8).map v.getMsbD

/-- The bit a character stands for, `'0'` (0x30) or `'1'` (0x31) (42_decoder.md R150). -/
def charBit (c : Byte) : Option Bool :=
  if c = 0x30 then some false else if c = 0x31 then some true else none

end Sys2Proof.Machine
end

