-- ==== Sys2Proof/Machine/Ops.lean ====
section
/-! DEFINITION. The named operations of 00_scope.md R11 and 60_exceptions.md R201-R203: emitting an event, raising an
error, reading and writing the code table and the tree RAM. -/

namespace Sys2Proof.Machine

/-- Append an event to the log and offer it on its stream (00_scope.md R11, R12; log entry 2). -/
def State.emit (s : State) (e : Event) : State :=
  { s with io := { s.io with log := s.io.log ++ [e], pending := s.io.pending ++ [e] } }

/-- `Respond(w)` (00_scope.md R11). -/
def State.respond (s : State) (w : Word32) : State := s.emit (.rsp w)

/-- `raise EncError(e)`: only the state and the code change (60_exceptions.md R202, R208). -/
def State.raiseEnc (s : State) (e : ErrCode) : State :=
  { s with enc := { s.enc with state := .error, err := e.code } }

/-- `raise DecError(e)`: only the state and the code change (60_exceptions.md R203, R208). -/
def State.raiseDec (s : State) (e : ErrCode) : State :=
  { s with dec := { s.dec with state := .error, err := e.code } }

/-- `raise IllegalCommand(x)`: set CMD_ILL and record the word (60_exceptions.md R201). -/
def State.illegalCommand (s : State) (x : Word32) : State := { s with cmd := { ill := true, badword := x } }

/-- The return from the encoder's error state is the opening of a job, from any state: ERR cleared, the packer and the
counters cleared, ACTIVE; CT untouched (41_encoder.md R115; 60_exceptions.md R209). -/
def State.openEncJob (s : State) : State :=
  { s with enc := { s.enc with acc := 0, accn := 0, count := 0, bits := 0, err := ErrCode.none.code, state := .active } }

/-- The first line of DEC_START: ERR, CUR, EMITTED, BITS and EXTRA cleared (42_decoder.md R147; 60_exceptions.md R209). -/
def State.clearDecJob (s : State) : State :=
  { s with dec := { s.dec with err := ErrCode.none.code, cur := Config.ROOT, emitted := 0, bits := 0, extra := false } }

/-- `CT[y]` (10_state.md R25). -/
def State.ctEntry (s : State) (y : Symbol) : CtEntry := s.enc.ct[y.toNat]'y.isLt

/-- `CT[y] <- e`. -/
def State.setCtEntry (s : State) (y : Symbol) (e : CtEntry) : State :=
  { s with enc := { s.enc with ct := s.enc.ct.set y.toNat e y.isLt } }

/-- `T[i]`; index 511 is no node (10_state.md R30). -/
def treeNode (t : Vector Node Config.T_NODES) (i : NodeIndex) : Option Node := t[i.toNat]?

/-- `T[i]` of a state. -/
def State.node (s : State) (i : NodeIndex) : Option Node := treeNode s.dec.tree i

/-- `T[i] <- v`, the whole node (10_state.md R31); called with `i` in 0..510 only. -/
def State.setNode (s : State) (i : NodeIndex) (v : Node) : State :=
  { s with dec := { s.dec with tree := s.dec.tree.setIfInBounds i.toNat v } }

end Sys2Proof.Machine
end

