-- ==== Sys2Proof/Machine/Encoder.lean ====
section
/-! DEFINITION. The encoder commands (41_encoder.md). -/

namespace Sys2Proof.Machine

/-- The outcome of one command. -/
abbrev Result := Host.Outcome State Fault Refusal

/-- A table write while the encoder is ACTIVE raises SEQUENCE and writes nothing (41_encoder.md R110, R113, R114). -/
def State.writeCt (s : State) (y : Symbol) (e : CtEntry) : State :=
  if s.enc.state = .active then s.raiseEnc .sequence else s.setCtEntry y e

/-- CT_LEN (41_encoder.md R113). -/
def execCtLen (y : Symbol) (len : BitVec 8) (s : State) : Result :=
  .next (s.writeCt y { s.ctEntry y with len := len })

/-- CT_WORD (41_encoder.md R114). -/
def execCtWord (y : Symbol) (w : BitVec 4) (d : CodeWord) (s : State) : Result :=
  .next (s.writeCt y ((s.ctEntry y).setWord w d))

/-- ENC_START (41_encoder.md R115). -/
def execEncStart (s : State) : Result := .next s.openEncJob

/-- The packer's registers. -/
def State.setPacker (s : State) (acc : BitVec 8) (accn : BitVec 3) : State :=
  { s with enc := { s.enc with acc := acc, accn := accn } }

/-- PackBit (41_encoder.md R116). The count is computed in 4 bits and reaches 8 at most. -/
def packBit (s : State) (b : Bool) : State :=
  let acc := putBit s.enc.acc (7 - s.enc.accn.toNat) b
  let n : BitVec 4 := s.enc.accn.setWidth 4 + 1
  if n = 8 then (s.emit (.encByte acc)).setPacker 0 0 else s.setPacker acc (n.setWidth 3)

/-- One more symbol of `len` bits in ENC_COUNT and ENC_BITS (41_encoder.md R117, R121). -/
def State.countSymbol (s : State) (len : BitVec 8) : State :=
  { s with enc := { s.enc with count := s.enc.count + 1, bits := s.enc.bits + len.setWidth 64 } }

/-- Append the code of an entry, first bit first, and count the symbol (41_encoder.md R117). -/
def State.appendCode (s : State) (e : CtEntry) : State := (e.codeBits.foldl packBit s).countSymbol e.len

/-- ENC_SYM (41_encoder.md R117; the order of the checks is 60_exceptions.md R206). -/
def execEncSym (y : Symbol) (s : State) : Result :=
  match s.enc.state with
  | .error => .next s
  | .idle | .done => .next (s.raiseEnc .sequence)
  | .active =>
    if (s.ctEntry y).len = 0 then .next (s.raiseEnc .unknownSymbol)
    else if s.enc.count = 0xFFFFFFFF then .next (s.raiseEnc .countOverflow)
    else .next (s.appendCode (s.ctEntry y))

/-- Emit the last byte when bits are pending, its low bits being 0 already (41_encoder.md R118). -/
def State.flushPacker (s : State) : State :=
  if s.enc.accn = 0 then s else (s.emit (.encByte s.enc.acc)).setPacker 0 0

/-- `ENC_STATE <- DONE`. -/
def State.encDone (s : State) : State := { s with enc := { s.enc with state := .done } }

/-- ENC_FINISH (41_encoder.md R118). -/
def execEncFinish (s : State) : Result :=
  match s.enc.state with
  | .error => .next s
  | .idle | .done => .next (s.raiseEnc .sequence)
  | .active => if s.enc.count = 0 then .next (s.raiseEnc .emptyInput) else .next s.flushPacker.encDone

end Sys2Proof.Machine
end

