-- ==== Sys2Proof/Machine/Control.lean ====
section
/-! DEFINITION. The control and readback commands (43_control.md) and the register map (10_state.md R40). -/

namespace Sys2Proof.Machine

/-- NOP (43_control.md R180). -/
def execNop (s : State) : Result := .next s

/-- `Reg(a)`, the register map (10_state.md R40-R43); an address it does not list has no register. -/
def State.reg (s : State) (a : BitVec 8) : Option Word32 :=
  if a = 0x00 then some Config.ID
  else if a = 0x04 then some s.enc.status
  else if a = 0x05 then some (s.enc.acc.setWidth 32)
  else if a = 0x06 then some s.enc.count
  else if a = 0x07 then some (s.enc.bits.extractLsb' 0 32)
  else if a = 0x08 then some (s.enc.bits.extractLsb' 32 32)
  else if a = 0x10 then some s.dec.status
  else if a = 0x11 then some s.dec.n
  else if a = 0x12 then some s.dec.emitted
  else if a = 0x13 then some (s.dec.cur.setWidth 32)
  else if a = 0x14 then some (s.dec.bits.extractLsb' 0 32)
  else if a = 0x15 then some (s.dec.bits.extractLsb' 32 32)
  else if a = 0x20 then some s.cmd.status
  else if a = 0x21 then some s.cmd.badword
  else none

/-- RDREG (43_control.md R181). An address the map does not list is an illegal command (30_encoding.md R92; log entry 7). -/
def execRdreg (a : BitVec 8) (s : State) : Result :=
  match s.reg a with
  | some w => .next (s.respond w)
  | none => .next (s.illegalCommand (encode (.rdreg a)))

/-- RD_CTLEN (43_control.md R182). -/
def execRdCtlen (y : Symbol) (s : State) : Result := .next (s.respond ((s.ctEntry y).len.setWidth 32))

/-- RD_CTWORD (43_control.md R183). -/
def execRdCtword (y : Symbol) (w : BitVec 4) (s : State) : Result :=
  .next (s.respond (((s.ctEntry y).word w).setWidth 32))

/-- The response that shows a node: the kind in bits 31:30 (43_control.md R184). -/
def Node.word : Node → Word32
  | .empty => 0
  | .leaf y => 0x40000000 ||| y.setWidth 32
  | .internal l r => 0x80000000 ||| (l.setWidth 32 <<< 9) ||| r.setWidth 32

/-- RD_TREE (43_control.md R184). Index 511 names no node and is an illegal command (30_encoding.md R92; log entry 7). -/
def execRdTree (i : NodeIndex) (s : State) : Result :=
  match s.node i with
  | some v => .next (s.respond v.word)
  | none => .next (s.illegalCommand (encode (.rdTree i)))

/-- CLR_CMDERR (43_control.md R185): CMD_BADWORD is kept. -/
def execClrCmderr (s : State) : Result := .next { s with cmd := { s.cmd with ill := false } }

end Sys2Proof.Machine
end

