-- ==== Sys2Proof/Machine/Tree.lean ====
section
/-! DEFINITION. The structural check of the tree that DEC_START makes (42_decoder.md R144-R146). -/

namespace Sys2Proof.Machine

/-- The loop of ValidTree (42_decoder.md R144): `stack` holds the top first. Each pass either answers or adds a new index of
0..510 to `visited`, so 511 units of fuel are never used up (log entry 6). -/
def treeLoop (t : Vector Node Config.T_NODES) : Nat → List NodeIndex → List NodeIndex → Bool
  | _, _, [] => true
  | 0, _, _ :: _ => false
  | fuel + 1, visited, i :: stack =>
    if i = Config.NIL then false
    else if i ∈ visited then false
    else
      match treeNode t i with
      | some (.leaf _) => treeLoop t fuel (i :: visited) stack
      | some (.internal a b) => treeLoop t fuel (i :: visited) (b :: a :: stack)
      | some .empty | none => false

/-- Whether node `i` is a LEAF. -/
def isLeaf (t : Vector Node Config.T_NODES) (i : NodeIndex) : Bool :=
  match treeNode t i with
  | some (.leaf _) => true
  | some .empty | some (.internal _ _) | none => false

/-- Whether node `i` is INTERNAL. -/
def isInternal (t : Vector Node Config.T_NODES) (i : NodeIndex) : Bool :=
  match treeNode t i with
  | some (.internal _ _) => true
  | some .empty | some (.leaf _) | none => false

/-- ValidTree(T) (42_decoder.md R144). The `r = NIL` arm is the single-symbol form (R146; 90_conflicts.md C1, C2). -/
def validTree (t : Vector Node Config.T_NODES) : Bool :=
  match treeNode t Config.ROOT with
  | some (.internal l r) =>
    if r = Config.NIL then decide (l ≠ Config.NIL) && isLeaf t l
    else if l = Config.NIL then false
    else treeLoop t Config.T_NODES [Config.ROOT] [r, l]
  | some .empty | some (.leaf _) | none => false

end Sys2Proof.Machine
end

