-- ==== Sys2Proof/Machine/Decoder.lean ====
section
/-! DEFINITION. The decoder commands (42_decoder.md). -/

namespace Sys2Proof.Machine

/-- A tree write while the decoder is ACTIVE raises SEQUENCE and writes nothing (42_decoder.md R140-R142). -/
def State.writeTree (s : State) (i : NodeIndex) (v : Node) : State :=
  if s.dec.state = .active then s.raiseDec .sequence else s.setNode i v

/-- TREE_LEAF (42_decoder.md R141). Index 511 is an illegal command (30_encoding.md R92; log entry 7). -/
def execTreeLeaf (i : NodeIndex) (y : Symbol) (s : State) : Result :=
  .next (if nodeIndexOk i then s.writeTree i (.leaf y) else s.illegalCommand (encode (.treeLeaf i y)))

/-- TREE_INT (42_decoder.md R142); the children are not checked. Index 511 is an illegal command (30_encoding.md R92; log
entry 7). -/
def execTreeInt (i l r : NodeIndex) (s : State) : Result :=
  .next (if nodeIndexOk i then s.writeTree i (.internal l r) else s.illegalCommand (encode (.treeInt i l r)))

/-- `DEC_N <- v`. -/
def State.setN (s : State) (v : BitVec 32) : State := { s with dec := { s.dec with n := v } }

/-- DEC_SETN (42_decoder.md R143). -/
def execDecSetn (h : BitVec 1) (d : BitVec 16) (s : State) : Result :=
  .next (if s.dec.state = .active then s.raiseDec .sequence else s.setN (setHalf s.dec.n h d))

/-- `DEC_STATE <- v`. -/
def State.setDecState (s : State) (v : EngState) : State := { s with dec := { s.dec with state := v } }

/-- DEC_START (42_decoder.md R147): clear, then EMPTY_INPUT, then CORRUPT_TREE, then ACTIVE. -/
def execDecStart (s : State) : Result :=
  .next
    (if s.dec.n = 0 then s.clearDecJob.raiseDec .emptyInput
     else if validTree s.dec.tree = false then s.clearDecJob.raiseDec .corruptTree
     else s.clearDecJob.setDecState .active)

/-- `DEC_BITS <- DEC_BITS + 1` (42_decoder.md R148; D28). -/
def State.countBit (s : State) : State := { s with dec := { s.dec with bits := s.dec.bits + 1 } }

/-- `DEC_CUR <- i`. -/
def State.moveTo (s : State) (i : NodeIndex) : State := { s with dec := { s.dec with cur := i } }

/-- `DEC_EMITTED <- DEC_EMITTED + 1`. -/
def State.countEmitted (s : State) : State := { s with dec := { s.dec with emitted := s.dec.emitted + 1 } }

/-- The LEAF arm of WalkBit: emit, count, back to the root, DONE when the new count is the target (42_decoder.md R148). -/
def State.deliver (s : State) (y : Symbol) : State :=
  let t := ((s.emit (.decSym y)).countEmitted).moveTo Config.ROOT
  if s.dec.emitted + 1 = s.dec.n then t.setDecState .done else t

/-- WalkBit (42_decoder.md R148): bit 0 follows `left`, bit 1 `right`. The CORRUPT_TREE arms also take a pointer that names
no node; no job reaches them (log entry 9). -/
def walkBit (s : State) (b : Bool) : State :=
  match s.node s.dec.cur with
  | some (.internal l r) =>
    let nxt := if b then r else l
    if nxt = Config.NIL then s.countBit.raiseDec .invalidPath
    else
      match s.node nxt with
      | some (.leaf y) => s.countBit.deliver y
      | some (.internal _ _) => s.countBit.moveTo nxt
      | some .empty | none => s.countBit.raiseDec .corruptTree
  | some .empty | some (.leaf _) | none => s.countBit.raiseDec .corruptTree

/-- One pass of DEC_BYTE's loop: once the job is no longer ACTIVE the remaining bits are not walked (42_decoder.md R149). -/
def walkWhileActive (s : State) (b : Bool) : State := if s.dec.state = .active then walkBit s b else s

/-- `DEC_EXTRA <- 1` (10_state.md R38). -/
def State.setExtra (s : State) : State := { s with dec := { s.dec with extra := true } }

/-- DEC_BYTE (42_decoder.md R149). -/
def execDecByte (v : Byte) (s : State) : Result :=
  match s.dec.state with
  | .error => .next s
  | .idle => .next (s.raiseDec .sequence)
  | .done => .next s.setExtra
  | .active => .next ((byteBits v).foldl walkWhileActive s)

/-- A textual bit in a job that is ACTIVE or DONE (42_decoder.md R150). -/
def feedChar (c : Byte) (s : State) : State :=
  match charBit c with
  | none => s.raiseDec .invalidBit
  | some b => if s.dec.state = .done then s.setExtra else walkBit s b

/-- DEC_BITCHAR (42_decoder.md R150). -/
def execDecBitchar (c : Byte) (s : State) : Result :=
  match s.dec.state with
  | .error => .next s
  | .idle => .next (s.raiseDec .sequence)
  | .active | .done => .next (feedChar c s)

/-- DEC_END (42_decoder.md R151). -/
def execDecEnd (s : State) : Result :=
  match s.dec.state with
  | .error | .done => .next s
  | .idle => .next (s.raiseDec .sequence)
  | .active => .next (s.raiseDec .truncatedStream)

end Sys2Proof.Machine
end

