-- ==== Sys2Proof/Machine/Dispatch.lean ====
section
/-! DEFINITION. One arm per command: each calls its meaning. -/

namespace Sys2Proof.Machine

def exec (i : Instr) (s : State) : Host.Outcome State Fault Refusal :=
  match i with
  | .nop => Sys2Proof.Machine.execNop s
  -- encoder commands (41_encoder.md)
  | .ctLen y len => Sys2Proof.Machine.execCtLen y len s
  | .ctWord y w d => Sys2Proof.Machine.execCtWord y w d s
  | .encStart => Sys2Proof.Machine.execEncStart s
  | .encSym y => Sys2Proof.Machine.execEncSym y s
  | .encFinish => Sys2Proof.Machine.execEncFinish s
  -- decoder commands (42_decoder.md)
  | .treeLeaf k y => Sys2Proof.Machine.execTreeLeaf k y s
  | .treeInt k l r => Sys2Proof.Machine.execTreeInt k l r s
  | .decSetn h d => Sys2Proof.Machine.execDecSetn h d s
  | .decStart => Sys2Proof.Machine.execDecStart s
  | .decByte v => Sys2Proof.Machine.execDecByte v s
  | .decBitchar c => Sys2Proof.Machine.execDecBitchar c s
  | .decEnd => Sys2Proof.Machine.execDecEnd s
  -- control and readback commands (43_control.md)
  | .rdreg a => Sys2Proof.Machine.execRdreg a s
  | .rdCtlen y => Sys2Proof.Machine.execRdCtlen y s
  | .rdCtword y w => Sys2Proof.Machine.execRdCtword y w s
  | .rdTree k => Sys2Proof.Machine.execRdTree k s
  | .clrCmderr => Sys2Proof.Machine.execClrCmderr s

end Sys2Proof.Machine
end

