-- ==== Sys2Proof/Machine/Ports.lean ====
section
/-! DEFINITION. The output streams, the port signals, the transfer of an item and the reset
(20_memory.md R64; 70_reset_and_hazards.md R230, R231, R235-R237). -/

namespace Sys2Proof.Machine

/-- The stream that carries an event (00_scope.md R11, R12). -/
def Event.stream : Event → OutStream
  | .encByte _ => .encOut
  | .decSym _ => .decOut
  | .rsp _ => .rsp

/-- The events of one stream, in the order of the list (00_scope.md R12). -/
def onStream (o : OutStream) (es : List Event) : List Event := es.filter fun e => e.stream = o

/-- The item the block offers on a stream: the oldest one not yet transferred (20_memory.md R64). -/
def State.offered (s : State) (o : OutStream) : Option Event := (onStream o s.io.pending).head?

/-- `cmd_ready`, with `rst_n` at the given level: low while reset is in effect (70_reset_and_hazards.md R230), and else high, for
the untimed model always accepts a command (R237; log entry 3). -/
def State.cmdReady (_ : State) (rstN : Bool) : Bool := rstN

/-- `enc_out_valid`, with `rst_n` at the given level: low while reset is in effect (70_reset_and_hazards.md R230, R235). -/
def State.encOutValid (s : State) (rstN : Bool) : Bool := rstN && (s.offered .encOut).isSome

/-- `dec_out_valid`, with `rst_n` at the given level (70_reset_and_hazards.md R230, R235). -/
def State.decOutValid (s : State) (rstN : Bool) : Bool := rstN && (s.offered .decOut).isSome

/-- `rsp_valid`, with `rst_n` at the given level (70_reset_and_hazards.md R230, R235). -/
def State.rspValid (s : State) (rstN : Bool) : Bool := rstN && (s.offered .rsp).isSome

/-- `enc_out_data` while `enc_out_valid` (70_reset_and_hazards.md R235). -/
def State.encOutData (s : State) : Option Byte :=
  match s.offered .encOut with
  | some (.encByte b) => some b
  | some (.decSym _) | some (.rsp _) | none => none

/-- `dec_out_data` while `dec_out_valid` (70_reset_and_hazards.md R235). -/
def State.decOutData (s : State) : Option Symbol :=
  match s.offered .decOut with
  | some (.decSym y) => some y
  | some (.encByte _) | some (.rsp _) | none => none

/-- `rsp_data` while `rsp_valid` (70_reset_and_hazards.md R235). -/
def State.rspData (s : State) : Option Word32 :=
  match s.offered .rsp with
  | some (.rsp w) => some w
  | some (.encByte _) | some (.decSym _) | none => none

/-- One transfer on a stream: the offered item leaves it (70_reset_and_hazards.md R236). With nothing offered no
transfer happens. -/
def State.transfer (s : State) (o : OutStream) : State :=
  { s with io := { s.io with pending := s.io.pending.eraseP fun e => e.stream = o } }

/-- Reset: every architectural element at its reset value, the outputs not yet transferred discarded, the log continued
(70_reset_and_hazards.md R231). The host's later moves are no state of the block and stay. -/
def State.hardReset (s : State) : State :=
  { State.reset with io := { log := s.io.log, pending := [], input := s.io.input } }

/-- The rest of the host's moves, once the next one has been taken. -/
def State.withInput (s : State) (ms : List HostMove) : State := { s with io := { s.io with input := ms } }

/-- `es` appended to the log. -/
def State.withLogged (s : State) (es : List Event) : State := { s with io := { s.io with log := s.io.log ++ es } }

end Sys2Proof.Machine
end

