-- ==== Sys2Proof/Machine/Command.lean ====
section
/-! DEFINITION. The command unit: a word is decoded and executed, or is illegal (30_encoding.md R91, R92;
60_exceptions.md R201); and a command that reset cuts short (70_reset_and_hazards.md R231). -/

namespace Sys2Proof.Machine

/-- Execute one command word (00_scope.md R13). -/
def acceptCommand (x : Word32) (s : State) : Result :=
  match decode x with
  | .ok i => exec i s
  | .error _ => .next (s.illegalCommand x)

/-- Reset while the command `x` executes: the machine is reset, and the log may hold a prefix of that command's events,
here its first `k` (70_reset_and_hazards.md R231; log entry 4). -/
def cutShort (x : Word32) (k : Nat) (s : State) : Result :=
  match acceptCommand x s with
  | .next t => .next (s.hardReset.withLogged ((t.io.log.drop s.io.log.length).take k))
  | .fault r => .fault r
  | .refused r => .refused r

/-- What one move of the host makes the block do (70_reset_and_hazards.md R244). -/
def takeMove (m : HostMove) (s : State) : Result :=
  match m with
  | .send x => acceptCommand x s
  | .accept o => .next (s.transfer o)
  | .reset => .next s.hardReset
  | .resetDuring x k => cutShort x k s

end Sys2Proof.Machine
end

