-- ==== Sys2Proof/Machine/Step.lean ====
section
/-! DEFINITION. One step of the machine: the host's next move, or nothing. -/

namespace Sys2Proof.Machine

/-- One step: take the host's next move (log entry 1). With no move waiting the block is idle and holds all state
(60_exceptions.md R217). -/
def step (s : State) : Host.Outcome State Fault Refusal :=
  match s.io.input with
  | [] => .next s
  | m :: ms => takeMove m (s.withInput ms)

/-- `s` with the word of a table row as the next word on the `cmd` stream, before the moves already waiting. HBC fetches
nothing (10_state.md R22): a program is the host sending its words, and this stands for that (log entry 1). -/
def State.withFetchWord (s : State) (nbits w : Nat) : State :=
  s.withInput (.send (tableWord nbits w) :: s.io.input)

end Sys2Proof.Machine
end

