-- ==== Sys2Proof/Machine/Pseudo.lean ====
section
/-! DEFINITION. Assembler lines: the operand order of a command line, and the pseudo-commands (30_encoding.md R96, R97). The
lexical form (number bases, quoted characters, comments) is notation for numbers and is not modelled. -/

namespace Sys2Proof.Machine

/-- `d_w` of CT_LOAD: bit `15 - k` is `c_{16w+k}`, or 0 past the end of the code (30_encoding.md R97). -/
def codeWordOf (code : List Bool) (w : Nat) : CodeWord :=
  BitVec.ofFnBE fun k : Fin 16 => code.getD (16 * w + k) false

/-- CT_LOAD s, code: the words, then the length (30_encoding.md R97). -/
def ctLoad (y : Symbol) (code : List Bool) : List Instr :=
  ((List.range ((code.length + 15) / 16)).map fun w => .ctWord y (BitVec.ofNat 4 w) (codeWordOf code w)) ++
    [.ctLen y (BitVec.ofNat 8 code.length)]

/-- CT_CLEAR s (30_encoding.md R97). -/
def ctClear (y : Symbol) : List Instr := [.ctLen y 0]

/-- DEC_SETN32 N (30_encoding.md R97). -/
def decSetn32 (n : BitVec 32) : List Instr := [.decSetn 0 (n.extractLsb' 0 16), .decSetn 1 (n.extractLsb' 16 16)]

/-- An operand that must be a number and fit its field. -/
def operand (n : Nat) : AsmOperand → Option (BitVec n)
  | .number v => if v < 2 ^ n then some (BitVec.ofNat n v) else none
  | .name _ => none

/-- A child operand of TREE_INT, for which NIL may be written (30_encoding.md R96). -/
def childOperand : AsmOperand → Option NodeIndex
  | .number v => operand 9 (.number v)
  | .name s => if s = "NIL" then some Config.NIL else none

/-- The names of the registers (10_state.md R40). -/
def registerNames : List (String × BitVec 8) :=
  [("ID", 0x00), ("ENC_STATUS", 0x04), ("ENC_ACC", 0x05), ("ENC_COUNT", 0x06), ("ENC_BITS_LO", 0x07), ("ENC_BITS_HI", 0x08),
   ("DEC_STATUS", 0x10), ("DEC_N", 0x11), ("DEC_EMITTED", 0x12), ("DEC_CUR", 0x13), ("DEC_BITS_LO", 0x14),
   ("DEC_BITS_HI", 0x15), ("CMD_STATUS", 0x20), ("CMD_BADWORD", 0x21)]

/-- The operand of RDREG, an address or a register's name (30_encoding.md R96). -/
def registerOperand : AsmOperand → Option (BitVec 8)
  | .number v => operand 8 (.number v)
  | .name s => registerNames.lookup s

/-- A command line: the mnemonic and its operands, in the order of 30_encoding.md R96. -/
def parseCommand (mnemonic : String) (operands : List AsmOperand) : Option Instr :=
  match mnemonic, operands with
  | "NOP", [] => some .nop
  | "CT_LEN", [y, len] => do some (.ctLen (← operand 8 y) (← operand 8 len))
  | "CT_WORD", [y, w, d] => do some (.ctWord (← operand 8 y) (← operand 4 w) (← operand 16 d))
  | "ENC_START", [] => some .encStart
  | "ENC_SYM", [y] => do some (.encSym (← operand 8 y))
  | "ENC_FINISH", [] => some .encFinish
  | "TREE_LEAF", [i, y] => do some (.treeLeaf (← operand 9 i) (← operand 8 y))
  | "TREE_INT", [i, l, r] => do some (.treeInt (← operand 9 i) (← childOperand l) (← childOperand r))
  | "DEC_SETN", [h, d] => do some (.decSetn (← operand 1 h) (← operand 16 d))
  | "DEC_START", [] => some .decStart
  | "DEC_BYTE", [b] => do some (.decByte (← operand 8 b))
  | "DEC_BITCHAR", [c] => do some (.decBitchar (← operand 8 c))
  | "DEC_END", [] => some .decEnd
  | "RDREG", [a] => do some (.rdreg (← registerOperand a))
  | "RD_CTLEN", [y] => do some (.rdCtlen (← operand 8 y))
  | "RD_CTWORD", [y, w] => do some (.rdCtword (← operand 8 y) (← operand 4 w))
  | "RD_TREE", [i] => do some (.rdTree (← operand 9 i))
  | "CLR_CMDERR", [] => some .clrCmderr
  | _, _ => none

/-- The words an assembler line stands for (30_encoding.md R96, R97). -/
def assemble : AsmLine → List Word32
  | .command i => [encode i]
  | .bare x => [x]
  | .ctLoad y code => (ctLoad y code).map encode
  | .ctClear y => (ctClear y).map encode
  | .decSetn32 n => (decSetn32 n).map encode

end Sys2Proof.Machine
end

