-- ==== Sys2Proof/Safety.lean ====
section
/-! DEFINITION. The terms the claims use: paths in the tree, the layout of a payload, runs of commands, and the invariants
that hold between two commands. -/

namespace Sys2Proof.Machine

/-- The child of node `i` along bit `b`: 0 is left, 1 is right (42_decoder.md R148). A node that is not INTERNAL has none. -/
def child (t : Vector Node Config.T_NODES) (i : NodeIndex) (b : Bool) : Option NodeIndex :=
  match treeNode t i with
  | some (.internal l r) => some (if b then r else l)
  | some .empty | some (.leaf _) | none => none

/-- The index a path of bits leads to from `i`, NIL included; none when the path goes on past a node that is not INTERNAL. -/
def followPath (t : Vector Node Config.T_NODES) : NodeIndex → List Bool → Option NodeIndex
  | i, [] => some i
  | i, b :: p => (child t i b).bind fun j => followPath t j p

/-- The index a path leads to from the root. -/
def nodeAt (t : Vector Node Config.T_NODES) (p : List Bool) : Option NodeIndex := followPath t Config.ROOT p

/-- The path `p` from the root ends at a LEAF with symbol `y`. -/
def LeafAt (t : Vector Node Config.T_NODES) (p : List Bool) (y : Symbol) : Prop :=
  ∃ i, nodeAt t p = some i ∧ treeNode t i = some (.leaf y)

/-- The single-symbol form (42_decoder.md R146). -/
def SingleSymbolTree (t : Vector Node Config.T_NODES) : Prop :=
  ∃ l y, treeNode t Config.ROOT = some (.internal l Config.NIL) ∧ l ≠ Config.NIL ∧ treeNode t l = some (.leaf y)

/-- The second kind of valid tree (42_decoder.md R145): the root is INTERNAL, every reachable index names a node that was
written, and no index is reached by two paths (the empty path reaches the root). -/
def FullTree (t : Vector Node Config.T_NODES) : Prop :=
  isInternal t Config.ROOT = true ∧
  (∀ p i, nodeAt t p = some i → i ≠ Config.NIL ∧ treeNode t i ≠ some .empty) ∧
  (∀ p q i, nodeAt t p = some i → nodeAt t q = some i → p = q)

/-- Byte `q` of a bit sequence, MSB first, zero bits past its end (20_memory.md R62; 41_encoder.md R120). -/
def payloadByte (bits : List Bool) (q : Nat) : Byte := BitVec.ofFnBE fun k : Fin 8 => bits.getD (8 * q + k) false

/-- The payload of a bit sequence: `ceil(|B| / 8)` bytes (41_encoder.md R120). -/
def payload (bits : List Bool) : List Byte := (List.range ((bits.length + 7) / 8)).map (payloadByte bits)

/-- The pending bits of the packer, first one first (10_state.md R27). -/
def Encoder.pendingBits (e : Encoder) : List Bool := (List.range e.accn.toNat).map e.acc.getMsbD

/-- `ENC_ACC[7-ENC_ACCN : 0] = 0`: the bits below the pending ones are zero (10_state.md R27, R49 item 1). -/
def Encoder.PadZero (e : Encoder) : Prop := ∀ k, e.accn.toNat ≤ k → e.acc.getMsbD k = false

/-- `s` with events logged and offered on their streams (00_scope.md R11, R12). -/
def State.withEvents (s : State) (es : List Event) : State :=
  { s with io := { s.io with log := s.io.log ++ es, pending := s.io.pending ++ es } }

/-- `s` with the encoder in ERROR under a code, everything else kept (60_exceptions.md R202, R208). -/
def State.encFails (s : State) (code : BitVec 4) : State := { s with enc := { s.enc with state := .error, err := code } }

/-- `s` with the decoder in ERROR under a code, everything else kept (60_exceptions.md R203, R208). -/
def State.decFails (s : State) (code : BitVec 4) : State := { s with dec := { s.dec with state := .error, err := code } }

/-- `s` with the decoder's job registers cleared, and its state and code set; the tree and DEC_N are kept (42_decoder.md R147). -/
def State.decOpened (s : State) (state : EngState) (code : BitVec 4) : State :=
  { s with dec := { tree := s.dec.tree, n := s.dec.n, state := state, err := code, cur := 0, emitted := 0, bits := 0,
                    extra := false } }

/-- Run commands in order, stopping at the first that does not answer a next state. -/
def runCommands : List Instr → State → Result
  | [], s => .next s
  | i :: is, s =>
    match exec i s with
    | .next t => runCommands is t
    | .fault r => .fault r
    | .refused r => .refused r

/-- The commands of an encoder job (00_scope.md R14; 41_encoder.md R110). -/
def encoderJob (xs : List Symbol) : List Instr := .encStart :: (xs.map .encSym ++ [.encFinish])

/-- The symbol a command gives to the encoder. -/
def symbolGiven : Instr → Option Symbol
  | .encSym y => some y
  | .nop | .ctLen _ _ | .ctWord _ _ _ | .encStart | .encFinish | .treeLeaf _ _ | .treeInt _ _ _ | .decSetn _ _ | .decStart
  | .decByte _ | .decBitchar _ | .decEnd | .rdreg _ | .rdCtlen _ | .rdCtword _ _ | .rdTree _ | .clrCmderr => none

/-- The symbols that a list of commands gives to the encoder, in order. -/
def encodedSymbols (is : List Instr) : List Symbol := is.filterMap symbolGiven

/-- The commands that open or close an encoder job, or are refused in one (41_encoder.md R110): a job has none of them inside. -/
def breaksEncJob : Instr → Bool
  | .ctLen _ _ | .ctWord _ _ _ | .encStart | .encFinish => true
  | .nop | .encSym _ | .treeLeaf _ _ | .treeInt _ _ _ | .decSetn _ _ | .decStart | .decByte _ | .decBitchar _ | .decEnd
  | .rdreg _ | .rdCtlen _ | .rdCtword _ _ | .rdTree _ | .clrCmderr => false

/-- The commands of a decoder job, with the count set before it (42_decoder.md R155). -/
def decoderJob (n : BitVec 32) (bytes : List Byte) : List Instr :=
  decSetn32 n ++ .decStart :: (bytes.map .decByte ++ [.decEnd])

/-- The character of a textual bit (42_decoder.md R150). -/
def bitChar (b : Bool) : Byte := if b then 0x31 else 0x30

/-- Feed bits one by one with DEC_BITCHAR for as long as the job is ACTIVE. -/
def feedWhileActive : List Bool → State → Result
  | [], s => .next s
  | b :: bs, s =>
    if s.dec.state = .active then
      match exec (.decBitchar (bitChar b)) s with
      | .next t => feedWhileActive bs t
      | .fault r => .fault r
      | .refused r => .refused r
    else .next s

/-- The field that 30_encoding.md R82-R89 mark 0 in the format a word's opcode bits select. -/
def zeroField (x : Word32) : Word32 :=
  match (x.extractLsb' 28 4).toNat with
  | 0x0 | 0x3 | 0x5 | 0x8 | 0xB | 0xE => 0x0FFFFFFF
  | 0x1 => 0x000FFF00
  | 0x4 | 0x9 | 0xA | 0xC => 0x0FFFFF00
  | 0x6 => if x.getLsbD 18 then 0 else 0x0003FF00
  | 0x7 => 0x0FFE0000
  | 0xD =>
    match (x.extractLsb' 26 2).toNat with
    | 0 => 0x03FFFF00
    | 1 => 0x03FFF000
    | 2 => 0x03FFFE00
    | _ => 0
  | _ => 0

/-- The readback commands (43_control.md R181-R184). -/
def isRead : Instr → Bool
  | .rdreg _ | .rdCtlen _ | .rdCtword _ _ | .rdTree _ => true
  | .nop | .ctLen _ _ | .ctWord _ _ _ | .encStart | .encSym _ | .encFinish | .treeLeaf _ _ | .treeInt _ _ _
  | .decSetn _ _ | .decStart | .decByte _ | .decBitchar _ | .decEnd | .clrCmderr => false

/-- How many events a command may produce (20_memory.md R66; 41_encoder.md R117, R118; 42_decoder.md R149, R150). -/
def maxEvents : Instr → Nat
  | .encSym _ => 32
  | .decByte _ => 8
  | .encFinish | .decBitchar _ | .rdreg _ | .rdCtlen _ | .rdCtword _ _ | .rdTree _ => 1
  | .nop | .ctLen _ _ | .ctWord _ _ _ | .encStart | .treeLeaf _ _ | .treeInt _ _ _ | .decSetn _ _ | .decStart
  | .decEnd | .clrCmderr => 0

/-- Which commands may produce an event (30_encoding.md R81; 00_scope.md R2). -/
def Event.From (i : Instr) : Event → Prop
  | .encByte _ => (∃ y, i = .encSym y) ∨ i = .encFinish
  | .decSym _ => (∃ v, i = .decByte v) ∨ (∃ c, i = .decBitchar c)
  | .rsp _ => isRead i = true

/-- What a state between two commands holds: items 1, 2, 3 and 7 of 10_state.md R49 and item 5 without its last clause, with the
codes 9-15 never present (60_exceptions.md R204; I9), the bound of 10_state.md R29, and the walk pointer reached from the root. Item
6 stands without `DEC_EMITTED = DEC_N`, which a DEC_SETN in DONE breaks (log entry 8); that is a claim about a whole job.
Item 4 and the last clause of item 5 ("T and DEC_N do not change") speak of a whole job and are claims of their own. -/
structure Inv (s : State) : Prop where
  /-- item 1 -/
  padZero : s.enc.PadZero
  /-- item 2 -/
  encRest : s.enc.state = .idle ∨ s.enc.state = .done → s.enc.accn = 0 ∧ s.enc.acc = 0
  /-- item 3 -/
  encErr : s.enc.err = 0 ↔ s.enc.state ≠ .error
  /-- item 3 -/
  decErr : s.dec.err = 0 ↔ s.dec.state ≠ .error
  /-- R204 -/
  encCode : s.enc.err.toNat ≤ 8
  /-- R204 -/
  decCode : s.dec.err.toNat ≤ 8
  /-- R29 -/
  encBits : s.enc.bits.toNat ≤ 255 * s.enc.count.toNat
  /-- item 5 -/
  decValid : s.dec.state = .active → validTree s.dec.tree = true
  /-- item 5 -/
  decCount : s.dec.state = .active → s.dec.emitted < s.dec.n
  /-- item 5, R35 -/
  decCur : s.dec.state = .active → isInternal s.dec.tree s.dec.cur = true
  /-- the walk starts at the root (R152) -/
  decPath : s.dec.state = .active → ∃ p, nodeAt s.dec.tree p = some s.dec.cur
  /-- item 6 -/
  decDone : s.dec.state = .done → s.dec.emitted ≠ 0 ∧ s.dec.cur = 0
  /-- item 7 -/
  decIdle : s.dec.state = .idle → s.dec.emitted = 0 ∧ s.dec.bits = 0 ∧ s.dec.cur = 0 ∧ s.dec.extra = false

/-- The walked bits are at most 255 a symbol, those of the symbol being walked counted by its path (10_state.md R37;
42_decoder.md R154). -/
structure BitsBounded (s : State) : Prop where
  active : s.dec.state = .active →
    ∃ p, nodeAt s.dec.tree p = some s.dec.cur ∧ s.dec.bits.toNat ≤ 255 * s.dec.emitted.toNat + p.length
  always : s.dec.bits.toNat ≤ 255 * s.dec.emitted.toNat + 255

/-- On every stream the items still to be transferred are the latest of the log, in log order: what has left the stream is
what came before them (20_memory.md R64). -/
def StreamsInOrder (s : State) : Prop := ∀ o, onStream o s.io.pending <:+ onStream o s.io.log

end Sys2Proof.Machine
end

