-- ==== Sys2Proof/Certificates/Slice0/Obligations.lean ====
section
/-! DEFINITION. What is claimed of the model, from the numbered rules of spec/. Nothing is proved here. -/

open Sys2Proof Sys2Proof.Machine

/-! ### Words and commands (30_encoding.md) -/

/-- Some words written out from 30_encoding.md R82-R89 (values of 95_test_vectors.md 2.1 and its set-ups) decode to the commands
they stand for, and some illegal words are rejected by name (R91-R93). -/
def Obligations.DecodeReadsTheWordsOfTheSpec : Prop :=
  decode 0x00000000 = .ok .nop ∧ decode 0x14100001 = .ok (.ctLen 0x41 1) ∧
  decode 0x24204000 = .ok (.ctWord 0x42 0 0x4000) ∧ decode 0x40000042 = .ok (.encSym 0x42) ∧
  decode 0x60100041 = .ok (.treeLeaf 2 0x41) ∧ decode 0x600C07FF = .ok (.treeInt 1 3 511) ∧
  decode 0x70010001 = .ok (.decSetn 1 1) ∧ decode 0xA0000031 = .ok (.decBitchar 0x31) ∧
  decode 0xC0000013 = .ok (.rdreg 0x13) ∧ decode 0xD4000142 = .ok (.rdCtword 0x42 1) ∧
  decode 0xD80001FE = .ok (.rdTree 510) ∧ decode 0xE0000000 = .ok .clrCmderr ∧
  decode 0xF0000000 = .error .reservedOp ∧ decode 0xDC000000 = .error .reservedRead ∧
  decode 0x00000001 = .error .reservedBits ∧ decode 0x6FF80041 = .error .nodeIndex ∧
  decode 0xC0000003 = .error .regAddr

/-- 30_encoding.md R91: at most one row of the table matches a word. -/
def Obligations.AtMostOneRowMatches : Prop :=
  ∀ x : Word32, (opTable.filter (·.selects x)).length ≤ 1

/-- 30_encoding.md R91: the words that match no row are those with op 0xF, those with op 0xD and bits 27:26 = 11, and those with
a nonzero bit in the field their format marks 0 (`zeroField`, from R82-R89). -/
def Obligations.WordsThatMatchNoRow : Prop :=
  ∀ x : Word32, (∀ r ∈ opTable, r.selects x = false) ↔
    (x.extractLsb' 28 4 = 0xF ∨ (x.extractLsb' 28 4 = 0xD ∧ x.extractLsb' 26 2 = 3) ∨ x &&& zeroField x ≠ 0)

/-- Every legal command survives its encoding (30_encoding.md R82-R92): no bit of an operand is dropped. -/
def Obligations.DecodeOfEncode : Prop :=
  ∀ i : Instr, i.wellFormed = true → decode (encode i) = .ok i

/-- Every accepted word is the encoding of the command it is read as, and that command's operands are legal (30_encoding.md
R82-R92): no bit of a word is ignored. -/
def Obligations.EncodeOfDecode : Prop :=
  ∀ (x : Word32) (i : Instr), decode x = .ok i → encode i = x ∧ i.wellFormed = true

/-- 30_encoding.md R97: CT_LOAD leaves the entry with exactly the given code, with 0 in the code bits past it up to the end of its
last word, and with the code bits past that word as they were. -/
def Obligations.CtLoadLoadsTheCode : Prop :=
  ∀ (y : Symbol) (code : List Bool) (s : State), 1 ≤ code.length → code.length ≤ 255 → s.enc.state ≠ .active →
    ∃ t, runCommands (ctLoad y code) s = .next t ∧ (t.ctEntry y).codeBits = code ∧
      (∀ j, code.length ≤ j → j < 16 * ((code.length + 15) / 16) → (t.ctEntry y).codeBit j = false) ∧
      (∀ j, 16 * ((code.length + 15) / 16) ≤ j → j < 256 → (t.ctEntry y).codeBit j = (s.ctEntry y).codeBit j) ∧
      (∀ z, z ≠ y → t.ctEntry z = s.ctEntry z) ∧ t = { s with enc := { s.enc with ct := t.enc.ct } }

/-- 30_encoding.md R97 with 42_decoder.md R143: DEC_SETN32 N sets all of DEC_N, and CT_CLEAR s removes the entry's length. -/
def Obligations.PseudoCommandsSetAndClear : Prop :=
  (∀ (n : BitVec 32) (s : State), s.dec.state ≠ .active →
    runCommands (decSetn32 n) s = .next { s with dec := { s.dec with n := n } }) ∧
  (∀ (y : Symbol) (s : State), s.enc.state ≠ .active →
    ∃ t, runCommands (ctClear y) s = .next t ∧ (t.ctEntry y).len = 0 ∧ (t.ctEntry y).code = (s.ctEntry y).code ∧
      (∀ z, z ≠ y → t.ctEntry z = s.ctEntry z) ∧ t = { s with enc := { s.enc with ct := t.enc.ct } })

/-! ### The step, reset and the ports -/

/-- A step on a word that decodes runs the command, and a step on an illegal word sets CMD_ILL and records the word, with the
host's later moves left waiting (00_scope.md R13; 10_state.md R22; the list of moves is log entry 1). -/
def Obligations.StepRunsTheDecodedCommand : Prop :=
  (∀ (s : State) (x : Word32) (ms : List HostMove) (i : Instr), s.io.input = .send x :: ms → decode x = .ok i →
    step s = exec i { s with io := { s.io with input := ms } }) ∧
  (∀ (s : State) (x : Word32) (ms : List HostMove) (e : Illegal), s.io.input = .send x :: ms → decode x = .error e →
    step s = .next { s with cmd := { ill := true, badword := x }, io := { s.io with input := ms } })

/-- 60_exceptions.md R201: an illegal word sets CMD_ILL, records the word, and does nothing else; of all words only CLR_CMDERR
clears CMD_ILL, and reset does; `cmd_err` shows it. -/
def Obligations.IllegalWordOnlySetsTheFlag : Prop :=
  (∀ (x : Word32) (e : Illegal) (s : State), decode x = .error e →
    acceptCommand x s = .next { s with cmd := { ill := true, badword := x } }) ∧
  (∀ (x : Word32) (s t : State), s.cmd.ill = true → acceptCommand x s = .next t → t.cmd.ill = false →
    x = encode .clrCmderr) ∧
  (∀ s : State, s.hardReset.cmd.ill = false ∧ s.cmdErrOut = s.cmd.ill)

/-- 00_scope.md R13 and 60_exceptions.md R200: in every state the block goes on; no command faults or is refused. -/
def Obligations.EveryStepAnswersNext : Prop :=
  (∀ s : State, ∃ t, step s = .next t) ∧ (∀ (i : Instr) (s : State), ∃ t, exec i s = .next t)

/-- 60_exceptions.md R217: between commands the block is idle and holds all state. -/
def Obligations.IdleBlockHoldsAllState : Prop :=
  ∀ s : State, s.io.input = [] → step s = .next s

/-- 10_state.md R48: every element after reset. -/
def Obligations.ResetValuesOfEveryElement : Prop :=
  (∀ y : Symbol, (State.reset.ctEntry y).len = 0) ∧
  (∀ (y : Symbol) (j : Nat), j < 256 → (State.reset.ctEntry y).codeBit j = false) ∧
  State.reset.enc.state = .idle ∧ State.reset.enc.err = 0 ∧ State.reset.enc.acc = 0 ∧ State.reset.enc.accn = 0 ∧
  State.reset.enc.count = 0 ∧ State.reset.enc.bits = 0 ∧
  (∀ i : NodeIndex, i ≠ Config.NIL → State.reset.node i = some .empty) ∧
  State.reset.dec.state = .idle ∧ State.reset.dec.err = 0 ∧ State.reset.dec.n = 0 ∧ State.reset.dec.cur = 0 ∧
  State.reset.dec.emitted = 0 ∧ State.reset.dec.bits = 0 ∧ State.reset.dec.extra = false ∧
  State.reset.cmd.ill = false ∧ State.reset.cmd.badword = 0 ∧
  State.reset.encErrOut = false ∧ State.reset.decErrOut = false ∧ State.reset.cmdErrOut = false ∧
  (∀ a ∈ legalRegAddrs, exec (.rdreg a) State.reset =
    .next (State.reset.withEvents [.rsp (if a = 0 then 0x48554631 else 0)]))

/-- 70_reset_and_hazards.md R231: reset between two commands gives every element its reset value, discards the outputs not yet
transferred and continues the log (the host's later moves stay: log entry 1). -/
def Obligations.ResetRestoresEveryElement : Prop :=
  ∀ (s : State) (ms : List HostMove), s.io.input = .reset :: ms →
    step s = .next { enc := State.reset.enc, dec := State.reset.dec, cmd := State.reset.cmd,
                     io := { log := s.io.log, pending := [], input := ms } }

/-- 70_reset_and_hazards.md R231 with log entry 4: a reset that cuts a command short leaves a prefix of that command's events in
the log and every element at its reset value. -/
def Obligations.ResetDuringACommandKeepsAPrefix : Prop :=
  ∀ (s : State) (x : Word32) (k : Nat) (ms : List HostMove), s.io.input = .resetDuring x k :: ms →
    ∃ es u, acceptCommand x { s with io := { s.io with input := ms } } = .next u ∧ u.io.log = s.io.log ++ es ∧
      step s = .next { enc := State.reset.enc, dec := State.reset.dec, cmd := State.reset.cmd,
                       io := { log := s.io.log ++ es.take k, pending := [], input := ms } }

/-- 20_memory.md R64 and 70_reset_and_hazards.md R236: a transfer on a stream takes its oldest item and touches no other item, no
register and not the log; with nothing offered nothing is transferred. -/
def Obligations.TransferTakesTheOldestItem : Prop :=
  ∀ (s : State) (o : OutStream) (ms : List HostMove), s.io.input = .accept o :: ms →
    ∃ rest, step s = .next { s with io := { log := s.io.log, pending := rest, input := ms } } ∧
      onStream o rest = (onStream o s.io.pending).tail ∧
      (∀ o', o' ≠ o → onStream o' rest = onStream o' s.io.pending)

/-- What the output ports show. While `rst_n` is low nothing is ready or valid (70_reset_and_hazards.md R230; that the outputs are
functions of the level of `rst_n` is log entry 4). Else a stream is valid exactly when an item waits on it, and its data is the
oldest one (R235; 20_memory.md R64; that items wait in a list, and are offered as soon as they wait, is log entry 2). The level
outputs are those of 10_state.md R46. -/
def Obligations.PortsShowTheOldestItems : Prop :=
  (∀ s : State, s.cmdReady false = false ∧ s.encOutValid false = false ∧ s.decOutValid false = false ∧
    s.rspValid false = false) ∧
  (∀ s : State, (s.encOutValid true = true ↔ ∃ b, s.encOutData = some b) ∧ (s.decOutValid true = true ↔ ∃ y, s.decOutData = some y) ∧
    (s.rspValid true = true ↔ ∃ w, s.rspData = some w)) ∧
  (∀ (s : State) (b : Byte), s.encOutData = some b ↔ (onStream .encOut s.io.pending).head? = some (.encByte b)) ∧
  (∀ (s : State) (y : Symbol), s.decOutData = some y ↔ (onStream .decOut s.io.pending).head? = some (.decSym y)) ∧
  (∀ (s : State) (w : Word32), s.rspData = some w ↔ (onStream .rsp s.io.pending).head? = some (.rsp w)) ∧
  (∀ s : State, (s.encErrOut = true ↔ s.enc.state = .error) ∧ (s.decErrOut = true ↔ s.dec.state = .error) ∧
    (s.cmdErrOut = true ↔ s.cmd.ill = true))

/-- 20_memory.md R64: on every stream the items not yet transferred are the latest ones of the log, in log order, and every step,
reset included, keeps that: nothing is reordered or duplicated, and nothing dropped but at reset. -/
def Obligations.EveryStepKeepsStreamsInOrder : Prop :=
  ∀ s t : State, StreamsInOrder s → step s = .next t → StreamsInOrder t

/-- The streams are in order at reset (00_scope.md R12). -/
def Obligations.StreamsInOrderAtReset : Prop := StreamsInOrder State.reset

/-! ### Encoder commands (41_encoder.md) -/

/-- 41_encoder.md R113: CT_LEN. -/
def Obligations.CtLenWritesTheLength : Prop :=
  ∀ (y : Symbol) (len : BitVec 8) (s : State),
    encode (.ctLen y len) = 0x10000000 ||| (y.setWidth 32 <<< 20) ||| len.setWidth 32 ∧
    (s.enc.state = .active → exec (.ctLen y len) s = .next (s.encFails 6)) ∧
    (s.enc.state ≠ .active → ∃ t, exec (.ctLen y len) s = .next t ∧ (t.ctEntry y).len = len ∧
      (t.ctEntry y).code = (s.ctEntry y).code ∧ (∀ z, z ≠ y → t.ctEntry z = s.ctEntry z) ∧
      t = { s with enc := { s.enc with ct := t.enc.ct } })

/-- 41_encoder.md R114 with 20_memory.md R63: CT_WORD. Every other code bit and every length is unchanged. -/
def Obligations.CtWordWritesSixteenCodeBits : Prop :=
  ∀ (y : Symbol) (w : BitVec 4) (d : CodeWord) (s : State),
    encode (.ctWord y w d) = 0x20000000 ||| (y.setWidth 32 <<< 20) ||| (w.setWidth 32 <<< 16) ||| d.setWidth 32 ∧
    (s.enc.state = .active → exec (.ctWord y w d) s = .next (s.encFails 6)) ∧
    (s.enc.state ≠ .active → ∃ t, exec (.ctWord y w d) s = .next t ∧
      (∀ k, k < 16 → (t.ctEntry y).codeBit (16 * w.toNat + k) = d.getLsbD (15 - k)) ∧
      (∀ j, j < 256 → j / 16 ≠ w.toNat → (t.ctEntry y).codeBit j = (s.ctEntry y).codeBit j) ∧
      (t.ctEntry y).len = (s.ctEntry y).len ∧ (∀ z, z ≠ y → t.ctEntry z = s.ctEntry z) ∧
      t = { s with enc := { s.enc with ct := t.enc.ct } })

/-- 41_encoder.md R115: ENC_START, from every state. -/
def Obligations.EncStartOpensAJob : Prop :=
  encode .encStart = 0x30000000 ∧
  ∀ s : State, exec .encStart s =
    .next { s with enc := { ct := s.enc.ct, state := .active, err := 0, acc := 0, accn := 0, count := 0, bits := 0 } }

/-- 41_encoder.md R117 (with R116 and 20_memory.md R62): ENC_SYM. The pending bits and the code make one bit sequence; its whole
bytes are emitted, MSB first, and the rest stays pending. `PadZero` is 10_state.md R49 item 1. -/
def Obligations.EncSymAppendsTheCode : Prop :=
  ∀ (y : Symbol) (s : State),
    encode (.encSym y) = 0x40000000 ||| y.setWidth 32 ∧
    (s.enc.state = .error → exec (.encSym y) s = .next s) ∧
    (s.enc.state = .idle ∨ s.enc.state = .done → exec (.encSym y) s = .next (s.encFails 6)) ∧
    (s.enc.state = .active → (s.ctEntry y).len = 0 → exec (.encSym y) s = .next (s.encFails 2)) ∧
    (s.enc.state = .active → (s.ctEntry y).len ≠ 0 → s.enc.count = 0xFFFFFFFF →
      exec (.encSym y) s = .next (s.encFails 7)) ∧
    (s.enc.state = .active → (s.ctEntry y).len ≠ 0 → s.enc.count ≠ 0xFFFFFFFF → s.enc.PadZero →
      ∃ t acc accn, exec (.encSym y) s = .next t ∧
        (let bits := s.enc.pendingBits ++ (s.ctEntry y).codeBits
         let whole := 8 * (bits.length / 8)
         t = State.withEvents
              { s with enc := { s.enc with acc := acc, accn := accn, count := s.enc.count + 1,
                                           bits := s.enc.bits + (s.ctEntry y).len.setWidth 64 } }
              ((payload (bits.take whole)).map .encByte) ∧
         t.enc.pendingBits = bits.drop whole ∧ t.enc.PadZero))

/-- 41_encoder.md R118: ENC_FINISH. -/
def Obligations.EncFinishFlushesTheLastByte : Prop :=
  encode .encFinish = 0x50000000 ∧
  ∀ s : State,
    (s.enc.state = .error → exec .encFinish s = .next s) ∧
    (s.enc.state = .idle ∨ s.enc.state = .done → exec .encFinish s = .next (s.encFails 6)) ∧
    (s.enc.state = .active → s.enc.count = 0 → exec .encFinish s = .next (s.encFails 1)) ∧
    (s.enc.state = .active → s.enc.count ≠ 0 → s.enc.accn = 0 →
      exec .encFinish s = .next { s with enc := { s.enc with state := .done } }) ∧
    (s.enc.state = .active → s.enc.count ≠ 0 → s.enc.accn ≠ 0 →
      exec .encFinish s = .next (State.withEvents { s with enc := { s.enc with state := .done, acc := 0, accn := 0 } }
        [.encByte s.enc.acc]))

/-- 41_encoder.md R119 and R120: an encoder job (ENC_START, commands that do not break it, ENC_FINISH) over a non-empty sequence of
symbols with codes, from any state and with any other commands between its own, ends DONE, counts its symbols and its bits, and
emits exactly the payload of the concatenated codes: MSB first, zero-padded to a whole byte. -/
def Obligations.EncoderJobEmitsThePayload : Prop :=
  ∀ (s : State) (is : List Instr), (∀ i ∈ is, breaksEncJob i = false) → encodedSymbols is ≠ [] →
    (encodedSymbols is).length < 2 ^ 32 → (∀ x ∈ encodedSymbols is, (s.ctEntry x).len ≠ 0) →
    ∃ t es, runCommands (.encStart :: (is ++ [.encFinish])) s = .next t ∧ t.enc.state = .done ∧ t.enc.err = 0 ∧
      t.enc.count.toNat = (encodedSymbols is).length ∧
      t.enc.bits.toNat = ((encodedSymbols is).map fun x => (s.ctEntry x).len.toNat).sum ∧
      t.io.log = s.io.log ++ es ∧
      onStream .encOut es = (payload ((encodedSymbols is).flatMap fun x => (s.ctEntry x).codeBits)).map .encByte ∧
      t.enc.ct = s.enc.ct

/-! ### Decoder commands (42_decoder.md) -/

/-- 42_decoder.md R141: TREE_LEAF. Every other node is unchanged; index 511 is an illegal word. -/
def Obligations.TreeLeafWritesTheNode : Prop :=
  (∀ y, decode (encode (.treeLeaf Config.NIL y)) = .error .nodeIndex) ∧
  ∀ (i : NodeIndex) (y : Symbol) (s : State), i ≠ Config.NIL →
    encode (.treeLeaf i y) = 0x60000000 ||| (i.setWidth 32 <<< 19) ||| y.setWidth 32 ∧
    (s.dec.state = .active → exec (.treeLeaf i y) s = .next (s.decFails 6)) ∧
    (s.dec.state ≠ .active → ∃ t, exec (.treeLeaf i y) s = .next t ∧ t.node i = some (.leaf y) ∧
      (∀ j, j ≠ i → t.node j = s.node j) ∧ t = { s with dec := { s.dec with tree := t.dec.tree } })

/-- 42_decoder.md R142: TREE_INT, with any children. Every other node is unchanged; index 511 is an illegal word. -/
def Obligations.TreeIntWritesTheNode : Prop :=
  (∀ l r, decode (encode (.treeInt Config.NIL l r)) = .error .nodeIndex) ∧
  ∀ (i l r : NodeIndex) (s : State), i ≠ Config.NIL →
    encode (.treeInt i l r) = 0x60040000 ||| (i.setWidth 32 <<< 19) ||| (l.setWidth 32 <<< 9) ||| r.setWidth 32 ∧
    (s.dec.state = .active → exec (.treeInt i l r) s = .next (s.decFails 6)) ∧
    (s.dec.state ≠ .active → ∃ t, exec (.treeInt i l r) s = .next t ∧ t.node i = some (.internal l r) ∧
      (∀ j, j ≠ i → t.node j = s.node j) ∧ t = { s with dec := { s.dec with tree := t.dec.tree } })

/-- 42_decoder.md R143: DEC_SETN. The other half keeps its value. -/
def Obligations.DecSetnWritesOneHalf : Prop :=
  ∀ (h : BitVec 1) (d : BitVec 16) (s : State),
    encode (.decSetn h d) = 0x70000000 ||| (h.setWidth 32 <<< 16) ||| d.setWidth 32 ∧
    (s.dec.state = .active → exec (.decSetn h d) s = .next (s.decFails 6)) ∧
    (s.dec.state ≠ .active → ∃ n, exec (.decSetn h d) s = .next { s with dec := { s.dec with n := n } } ∧
      n.extractLsb' (16 * h.toNat) 16 = d ∧
      n.extractLsb' (16 - 16 * h.toNat) 16 = s.dec.n.extractLsb' (16 - 16 * h.toNat) 16)

/-- 42_decoder.md R147: DEC_START, from every state; EMPTY_INPUT is checked before CORRUPT_TREE. -/
def Obligations.DecStartOpensAJob : Prop :=
  encode .decStart = 0x80000000 ∧
  ∀ s : State,
    (s.dec.n = 0 → exec .decStart s = .next (s.decOpened .error 1)) ∧
    (s.dec.n ≠ 0 → validTree s.dec.tree = false → exec .decStart s = .next (s.decOpened .error 3)) ∧
    (s.dec.n ≠ 0 → validTree s.dec.tree = true → exec .decStart s = .next (s.decOpened .active 0))

/-- 42_decoder.md R150 with R148: DEC_BITCHAR. In ACTIVE the bit is walked: `child` is the node along it from DEC_CUR. -/
def Obligations.DecBitcharWalksOneBit : Prop :=
  ∀ (c : Byte) (s : State),
    encode (.decBitchar c) = 0xA0000000 ||| c.setWidth 32 ∧
    (s.dec.state = .error → exec (.decBitchar c) s = .next s) ∧
    (s.dec.state = .idle → exec (.decBitchar c) s = .next (s.decFails 6)) ∧
    (s.dec.state = .active ∨ s.dec.state = .done → c ≠ 0x30 → c ≠ 0x31 →
      exec (.decBitchar c) s = .next (s.decFails 5)) ∧
    (s.dec.state = .done → c = 0x30 ∨ c = 0x31 →
      exec (.decBitchar c) s = .next { s with dec := { s.dec with extra := true } }) ∧
    (∀ b, s.dec.state = .active → c = bitChar b →
      (∀ j y, child s.dec.tree s.dec.cur b = some j → s.node j = some (.leaf y) →
        exec (.decBitchar c) s = .next (State.withEvents
          { s with dec := { s.dec with bits := s.dec.bits + 1, emitted := s.dec.emitted + 1, cur := 0,
                                       state := if s.dec.emitted + 1 = s.dec.n then .done else .active } }
          [.decSym y])) ∧
      (∀ j l r, child s.dec.tree s.dec.cur b = some j → s.node j = some (.internal l r) →
        exec (.decBitchar c) s = .next { s with dec := { s.dec with bits := s.dec.bits + 1, cur := j } }) ∧
      (child s.dec.tree s.dec.cur b = some Config.NIL →
        exec (.decBitchar c) s = .next (State.decFails { s with dec := { s.dec with bits := s.dec.bits + 1 } } 8)) ∧
      (child s.dec.tree s.dec.cur b = none ∨ (∃ j, child s.dec.tree s.dec.cur b = some j ∧ s.node j = some .empty) →
        exec (.decBitchar c) s = .next (State.decFails { s with dec := { s.dec with bits := s.dec.bits + 1 } } 3)))

/-- 42_decoder.md R149: DEC_BYTE. In ACTIVE it feeds the bits of the byte from bit 7 down, one by one, for as long as the job is
ACTIVE: the same as feeding them with DEC_BITCHAR (R150). -/
def Obligations.DecByteFeedsItsBitsMsbFirst : Prop :=
  ∀ (v : Byte) (s : State),
    encode (.decByte v) = 0x90000000 ||| v.setWidth 32 ∧
    (s.dec.state = .error → exec (.decByte v) s = .next s) ∧
    (s.dec.state = .idle → exec (.decByte v) s = .next (s.decFails 6)) ∧
    (s.dec.state = .done → exec (.decByte v) s = .next { s with dec := { s.dec with extra := true } }) ∧
    (s.dec.state = .active → ∃ t, exec (.decByte v) s = .next t ∧
      feedWhileActive [v.getLsbD 7, v.getLsbD 6, v.getLsbD 5, v.getLsbD 4, v.getLsbD 3, v.getLsbD 2, v.getLsbD 1,
        v.getLsbD 0] s = .next t ∧
      t.enc = s.enc ∧ t.cmd = s.cmd ∧ t.dec.tree = s.dec.tree ∧ t.dec.n = s.dec.n ∧ t.dec.extra = s.dec.extra ∧
      t.io.input = s.io.input)

/-- 42_decoder.md R151: DEC_END. -/
def Obligations.DecEndMarksTheEnd : Prop :=
  encode .decEnd = 0xB0000000 ∧
  ∀ s : State,
    (s.dec.state = .error ∨ s.dec.state = .done → exec .decEnd s = .next s) ∧
    (s.dec.state = .idle → exec .decEnd s = .next (s.decFails 6)) ∧
    (s.dec.state = .active → exec .decEnd s = .next (s.decFails 4))

/-- 42_decoder.md R145: the check of R144 accepts exactly the single-symbol form and the full trees rooted at node 0. -/
def Obligations.ValidTreeIsSingleSymbolOrFull : Prop :=
  ∀ t : Vector Node Config.T_NODES, validTree t = true ↔ SingleSymbolTree t ∨ FullTree t

/-- 42_decoder.md R146: with a NIL right child the root is valid exactly over a LEAF, and its one code is then "0"; a 1 bit at the
root raises INVALID_PATH; the mirror form, a childless root and a root that is not INTERNAL are invalid; and a valid tree whose
root has two children has no NIL child anywhere below it. -/
def Obligations.SingleSymbolFormOnlyAtTheRoot : Prop :=
  (∀ (t : Vector Node Config.T_NODES) (l : NodeIndex), treeNode t 0 = some (.internal l Config.NIL) →
    (validTree t = true ↔ l ≠ Config.NIL ∧ ∃ y, treeNode t l = some (.leaf y)) ∧
    (∀ y, treeNode t l = some (.leaf y) → ∀ p z, LeafAt t p z ↔ p = [false] ∧ z = y)) ∧
  (∀ (s : State) (l : NodeIndex), s.node 0 = some (.internal l Config.NIL) → s.dec.state = .active → s.dec.cur = 0 →
    exec (.decBitchar 0x31) s = .next (State.decFails { s with dec := { s.dec with bits := s.dec.bits + 1 } } 8)) ∧
  (∀ (t : Vector Node Config.T_NODES) (r : NodeIndex), treeNode t 0 = some (.internal Config.NIL r) → validTree t = false) ∧
  (∀ (t : Vector Node Config.T_NODES), isInternal t 0 = false → validTree t = false) ∧
  (∀ (t : Vector Node Config.T_NODES) (l r : NodeIndex), treeNode t 0 = some (.internal l r) → r ≠ Config.NIL →
    validTree t = true → ∀ p, nodeAt t p ≠ some Config.NIL)

/-- 42_decoder.md R145 (with 00_scope.md R8): in a full tree a path from the root has at most 255 edges, and there are at least 2
and at most 256 leaves. -/
def Obligations.FullTreeBounds : Prop :=
  ∀ t : Vector Node Config.T_NODES, FullTree t →
    (∀ p i, nodeAt t p = some i → p.length ≤ 255) ∧
    (∃ p q y z, p ≠ q ∧ LeafAt t p y ∧ LeafAt t q z) ∧
    (∀ ps : List (List Bool), ps.Nodup → (∀ p ∈ ps, ∃ y, LeafAt t p y) → ps.length ≤ 256)

/-- 42_decoder.md R155, the round-trip law: encode any non-empty sequence of leaf symbols with the path codes of a valid tree,
then decode the payload with the recorded count: the decoder emits the sequence and ends DONE. -/
def Obligations.DecodingUndoesEncoding : Prop :=
  ∀ (s : State) (xs : List Symbol), validTree s.dec.tree = true → s.dec.state ≠ .active →
    (∀ p y, LeafAt s.dec.tree p y → (s.ctEntry y).codeBits = p) → xs ≠ [] → xs.length < 2 ^ 32 →
    (∀ x ∈ xs, ∃ p, LeafAt s.dec.tree p x) →
    ∃ bytes t u, runCommands (encoderJob xs) s = .next t ∧ t.io.log = s.io.log ++ bytes.map .encByte ∧
      t.enc.count.toNat = xs.length ∧
      runCommands (decoderJob t.enc.count bytes) t = .next u ∧ u.io.log = t.io.log ++ xs.map .decSym ∧
      u.dec.state = .done ∧ u.dec.err = 0 ∧ u.dec.extra = false

/-- 42_decoder.md R148 and 93_implementation_defined.md I15: between commands, and so in every job, no walked bit raises
CORRUPT_TREE (code 3). -/
def Obligations.WalkNeverFindsACorruptTree : Prop :=
  ∀ (s t : State), Inv s → s.dec.state = .active →
    ((∃ v, exec (.decByte v) s = .next t) ∨ (∃ c, exec (.decBitchar c) s = .next t)) → t.dec.err ≠ 3

/-! ### Control and readback commands (43_control.md) -/

/-- 43_control.md R180: NOP changes nothing. -/
def Obligations.NopChangesNothing : Prop :=
  encode .nop = 0x00000000 ∧ ∀ s : State, exec .nop s = .next s

/-- 43_control.md R181 with 10_state.md R40: the value RDREG returns at each of the 14 addresses, and nothing else changes; at any
other address the word is illegal. -/
def Obligations.RdregReturnsTheRegister : Prop :=
  (∀ a, a ∉ legalRegAddrs → decode (encode (.rdreg a)) = .error .regAddr) ∧
  (∀ a, encode (.rdreg a) = 0xC0000000 ||| a.setWidth 32) ∧
  ∀ s : State,
    exec (.rdreg 0x00) s = .next (s.withEvents [.rsp 0x48554631]) ∧
    exec (.rdreg 0x04) s = .next (s.withEvents [.rsp s.enc.status]) ∧
    exec (.rdreg 0x05) s = .next (s.withEvents [.rsp (s.enc.acc.setWidth 32)]) ∧
    exec (.rdreg 0x06) s = .next (s.withEvents [.rsp s.enc.count]) ∧
    exec (.rdreg 0x07) s = .next (s.withEvents [.rsp (s.enc.bits.extractLsb' 0 32)]) ∧
    exec (.rdreg 0x08) s = .next (s.withEvents [.rsp (s.enc.bits.extractLsb' 32 32)]) ∧
    exec (.rdreg 0x10) s = .next (s.withEvents [.rsp s.dec.status]) ∧
    exec (.rdreg 0x11) s = .next (s.withEvents [.rsp s.dec.n]) ∧
    exec (.rdreg 0x12) s = .next (s.withEvents [.rsp s.dec.emitted]) ∧
    exec (.rdreg 0x13) s = .next (s.withEvents [.rsp (s.dec.cur.setWidth 32)]) ∧
    exec (.rdreg 0x14) s = .next (s.withEvents [.rsp (s.dec.bits.extractLsb' 0 32)]) ∧
    exec (.rdreg 0x15) s = .next (s.withEvents [.rsp (s.dec.bits.extractLsb' 32 32)]) ∧
    exec (.rdreg 0x20) s = .next (s.withEvents [.rsp s.cmd.status]) ∧
    exec (.rdreg 0x21) s = .next (s.withEvents [.rsp s.cmd.badword])

/-- 10_state.md R41, R42, R43: every field of the three status words, the reserved bits 0. -/
def Obligations.StatusWordsHoldTheirFields : Prop :=
  (∀ e : Encoder,
    e.status.extractLsb' 0 2 = (match e.state with | .idle => 0 | .active => 1 | .done => 2 | .error => 3) ∧
    e.status.extractLsb' 2 2 = 0 ∧ e.status.extractLsb' 4 4 = e.err ∧ e.status.extractLsb' 8 3 = e.accn ∧
    e.status.extractLsb' 11 21 = 0) ∧
  (∀ d : Decoder,
    d.status.extractLsb' 0 2 = (match d.state with | .idle => 0 | .active => 1 | .done => 2 | .error => 3) ∧
    d.status.extractLsb' 2 2 = 0 ∧ d.status.extractLsb' 4 4 = d.err ∧ d.status.getLsbD 8 = d.extra ∧
    d.status.extractLsb' 9 23 = 0) ∧
  (∀ c : CommandUnit, c.status.getLsbD 0 = c.ill ∧ c.status.extractLsb' 1 31 = 0)

/-- 43_control.md R182 and R183: RD_CTLEN and RD_CTWORD; response bit 15 - k is code bit 16w + k. -/
def Obligations.CodeTableReadback : Prop :=
  (∀ y, encode (.rdCtlen y) = 0xD0000000 ||| y.setWidth 32) ∧
  (∀ y w, encode (.rdCtword y w) = 0xD4000000 ||| (w.setWidth 32 <<< 8) ||| y.setWidth 32) ∧
  (∀ (y : Symbol) (s : State), exec (.rdCtlen y) s = .next (s.withEvents [.rsp ((s.ctEntry y).len.setWidth 32)])) ∧
  (∀ (y : Symbol) (w : BitVec 4) (s : State), ∃ d : BitVec 16,
    exec (.rdCtword y w) s = .next (s.withEvents [.rsp (d.setWidth 32)]) ∧
    ∀ k, k < 16 → d.getLsbD (15 - k) = (s.ctEntry y).codeBit (16 * w.toNat + k))

/-- 43_control.md R184: RD_TREE; index 511 is an illegal word. -/
def Obligations.TreeReadback : Prop :=
  decode (encode (.rdTree Config.NIL)) = .error .nodeIndex ∧
  (∀ i, encode (.rdTree i) = 0xD8000000 ||| i.setWidth 32) ∧
  ∀ (i : NodeIndex) (s : State), i ≠ Config.NIL →
    (s.node i = some .empty ∧ exec (.rdTree i) s = .next (s.withEvents [.rsp 0])) ∨
    (∃ y, s.node i = some (.leaf y) ∧ exec (.rdTree i) s = .next (s.withEvents [.rsp (0x40000000 ||| y.setWidth 32)])) ∨
    (∃ l r, s.node i = some (.internal l r) ∧
      exec (.rdTree i) s = .next (s.withEvents [.rsp (0x80000000 ||| (l.setWidth 32 <<< 9) ||| r.setWidth 32)]))

/-- 43_control.md R185: CLR_CMDERR clears CMD_ILL and keeps CMD_BADWORD. -/
def Obligations.ClrCmderrClearsTheFlag : Prop :=
  encode .clrCmderr = 0xE0000000 ∧
  ∀ s : State, exec .clrCmderr s = .next { s with cmd := { s.cmd with ill := false } }

/-- The model's choice of log entry 7, after 30_encoding.md R92: a command with an illegal operand value, which the decoder
never gives, has the effect of its illegal word. -/
def Obligations.IllegalOperandsAreIllegalCommands : Prop :=
  ∀ (i : Instr) (s : State), i.wellFormed = false →
    exec i s = .next { s with cmd := { ill := true, badword := encode i } }

/-! ### Rules about the whole machine -/

/-- 20_memory.md R67: a legal read changes no state, appends exactly one response and returns the same word when repeated; a table or
count write repeated leaves the state as once, when its engine is not ACTIVE. -/
def Obligations.ReadsArePureAndWritesIdempotent : Prop :=
  (∀ (i : Instr) (s : State), isRead i = true → i.wellFormed = true →
    ∃ w, exec i s = .next (s.withEvents [.rsp w]) ∧
      exec i (s.withEvents [.rsp w]) = .next ((s.withEvents [.rsp w]).withEvents [.rsp w])) ∧
  (∀ (y : Symbol) (len : BitVec 8) (w : BitVec 4) (d : CodeWord) (s : State) (i : Instr),
    i = .ctLen y len ∨ i = .ctWord y w d → s.enc.state ≠ .active →
    ∃ t, exec i s = .next t ∧ exec i t = .next t) ∧
  (∀ (k l r : NodeIndex) (y : Symbol) (h : BitVec 1) (d : BitVec 16) (s : State) (i : Instr),
    i = .treeLeaf k y ∨ i = .treeInt k l r ∨ i = .decSetn h d → i.wellFormed = true → s.dec.state ≠ .active →
    ∃ t, exec i s = .next t ∧ exec i t = .next t)

/-- 10_state.md R44: which commands write which state. -/
def Obligations.OnlyTheListedCommandsWrite : Prop :=
  ∀ (x : Word32) (s t : State), acceptCommand x s = .next t →
    ((∃ z, (t.ctEntry z).len ≠ (s.ctEntry z).len) → ∃ y len, decode x = .ok (.ctLen y len)) ∧
    ((∃ z, (t.ctEntry z).code ≠ (s.ctEntry z).code) → ∃ y w d, decode x = .ok (.ctWord y w d)) ∧
    (t.enc.state ≠ s.enc.state ∨ t.enc.err ≠ s.enc.err →
      decode x = .ok .encStart ∨ (∃ y, decode x = .ok (.encSym y)) ∨ decode x = .ok .encFinish ∨
      (s.enc.state = .active ∧ t = s.encFails 6 ∧
        ((∃ y len, decode x = .ok (.ctLen y len)) ∨ ∃ y w d, decode x = .ok (.ctWord y w d)))) ∧
    (t.enc.acc ≠ s.enc.acc ∨ t.enc.accn ≠ s.enc.accn ∨ t.enc.count ≠ s.enc.count ∨ t.enc.bits ≠ s.enc.bits →
      decode x = .ok .encStart ∨ (∃ y, decode x = .ok (.encSym y)) ∨ decode x = .ok .encFinish) ∧
    (t.dec.tree ≠ s.dec.tree →
      (∃ i y, decode x = .ok (.treeLeaf i y)) ∨ ∃ i l r, decode x = .ok (.treeInt i l r)) ∧
    (t.dec.n ≠ s.dec.n → ∃ h d, decode x = .ok (.decSetn h d)) ∧
    (t.dec.state ≠ s.dec.state ∨ t.dec.err ≠ s.dec.err →
      decode x = .ok .decStart ∨ (∃ v, decode x = .ok (.decByte v)) ∨ (∃ c, decode x = .ok (.decBitchar c)) ∨
      decode x = .ok .decEnd ∨
      (s.dec.state = .active ∧ t = s.decFails 6 ∧
        ((∃ i y, decode x = .ok (.treeLeaf i y)) ∨ (∃ i l r, decode x = .ok (.treeInt i l r)) ∨
          ∃ h d, decode x = .ok (.decSetn h d)))) ∧
    (t.dec.cur ≠ s.dec.cur ∨ t.dec.emitted ≠ s.dec.emitted ∨ t.dec.bits ≠ s.dec.bits ∨ t.dec.extra ≠ s.dec.extra →
      decode x = .ok .decStart ∨ (∃ v, decode x = .ok (.decByte v)) ∨ ∃ c, decode x = .ok (.decBitchar c)) ∧
    (t.cmd.ill ≠ s.cmd.ill → decode x = .ok .clrCmderr ∨ ∃ e, decode x = .error e) ∧
    (t.cmd.badword ≠ s.cmd.badword → ∃ e, decode x = .error e)

/-- 60_exceptions.md R205: an engine in ERROR stays there with its first code until its START command, its data commands do nothing
at all, and table and count writes write normally. -/
def Obligations.FirstErrorIsKept : Prop :=
  (∀ (i : Instr) (s t : State), s.enc.state = .error → i ≠ .encStart → exec i s = .next t →
    t.enc.state = .error ∧ t.enc.err = s.enc.err ∧ (((∃ y, i = .encSym y) ∨ i = .encFinish) → t = s)) ∧
  (∀ (i : Instr) (s t : State), s.dec.state = .error → i ≠ .decStart → exec i s = .next t →
    t.dec.state = .error ∧ t.dec.err = s.dec.err ∧
    (((∃ v, i = .decByte v) ∨ (∃ c, i = .decBitchar c) ∨ i = .decEnd) → t = s)) ∧
  (∀ s : State, s.enc.state = .error →
    (∀ y len, ∃ t, exec (.ctLen y len) s = .next t ∧ (t.ctEntry y).len = len) ∧
    (∀ y w d, ∃ t, exec (.ctWord y w d) s = .next t ∧ (t.ctEntry y).word w = d)) ∧
  (∀ s : State, s.dec.state = .error →
    (∀ i y, i ≠ Config.NIL → ∃ t, exec (.treeLeaf i y) s = .next t ∧ t.node i = some (.leaf y)) ∧
    (∀ i l r, i ≠ Config.NIL → ∃ t, exec (.treeInt i l r) s = .next t ∧ t.node i = some (.internal l r)) ∧
    (∀ h d, ∃ t, exec (.decSetn h d) s = .next t ∧ t.dec.n.extractLsb' (16 * h.toNat) 16 = d))

/-- 60_exceptions.md R207: one command touches one engine at most. -/
def Obligations.OneCommandTouchesOneEngine : Prop :=
  ∀ (i : Instr) (s t : State), exec i s = .next t → t.enc = s.enc ∨ t.dec = s.dec

/-- 00_scope.md R12 and 20_memory.md R66: a command only appends to the log, at most 32 events for ENC_SYM and 8 for DEC_BYTE,
and each kind of event comes only from the commands that produce it; nothing waiting at the ports is touched. -/
def Obligations.CommandsOnlyAppendEvents : Prop :=
  ∀ (i : Instr) (s t : State), exec i s = .next t →
    ∃ es : List Event, t.io = { log := s.io.log ++ es, pending := s.io.pending ++ es, input := s.io.input } ∧
      es.length ≤ maxEvents i ∧ ∀ e ∈ es, e.From i

/-- The invariants `Inv` hold at reset: items 1, 2, 3 and 7 of 10_state.md R49, item 5 without its last clause and item 6 as log
entry 8 says, with the bounds that `Inv` adds. Item 4 and the last clause of item 5 ("T and DEC_N do not change") speak of a whole
job and are not in `Inv`: OpenJobCountsItsBits and TablesAreFixedDuringAJob state them. -/
def Obligations.InvariantsHoldAtReset : Prop := Inv State.reset

/-- Every step keeps the invariants `Inv`, from every state that has them: items 1, 2, 3 and 7 of 10_state.md R49, item 5 without
its last clause and item 6 as log entry 8 says, with the bounds that `Inv` adds. Item 4 and the last clause of item 5 ("T and
DEC_N do not change") speak of a whole job and are not in `Inv`: OpenJobCountsItsBits and TablesAreFixedDuringAJob state them. -/
def Obligations.EveryStepKeepsTheInvariants : Prop :=
  ∀ s t : State, Inv s → step s = .next t → Inv t

/-- 10_state.md R37 and 42_decoder.md R154: the walked bits stay within 255 a symbol, from every state with the invariants, so
DEC_BITS stays below 2^40 and never wraps; ENC_BITS likewise (10_state.md R29). -/
def Obligations.BitCountersNeverWrap : Prop :=
  (∀ s t : State, Inv s → BitsBounded s → step s = .next t → BitsBounded t) ∧ BitsBounded State.reset ∧
  (∀ s : State, Inv s → BitsBounded s → s.dec.bits.toNat < 2 ^ 40 ∧ s.enc.bits.toNat < 2 ^ 40)

/-- The model's reading of log entry 8: 42_decoder.md R140 and R143 let DEC_SETN write DEC_N in DONE, after which DEC_EMITTED
and DEC_N differ although 10_state.md R49 item 6 says they are equal. -/
def Obligations.CountWriteInDoneBreaksEquality : Prop :=
  ∀ s : State, s.dec.state = .done → s.dec.emitted = s.dec.n →
    ∃ h d t, exec (.decSetn h d) s = .next t ∧ t.dec.state = .done ∧ t.dec.emitted ≠ t.dec.n

/-- 10_state.md R49 item 6 and R36, as far as the command rules keep them (log entry 8): when a command makes the decoder DONE,
DEC_EMITTED = DEC_N >= 1 and DEC_CUR = 0, and in DONE every command but DEC_SETN keeps that while the decoder stays DONE. -/
def Obligations.DoneHasTheTargetUntilRewritten : Prop :=
  ∀ (x : Word32) (s t : State), Inv s → acceptCommand x s = .next t → t.dec.state = .done →
    s.dec.state ≠ .done ∨ (s.dec.emitted = s.dec.n ∧ ∀ h d, decode x ≠ .ok (.decSetn h d)) →
    t.dec.emitted = t.dec.n ∧ 1 ≤ t.dec.n.toNat ∧ t.dec.cur = 0

/-- 10_state.md R49 item 4: while the encoder is ACTIVE, ENC_BITS is the sum of the lengths, and ENC_COUNT the number, of the
symbols given to ENC_SYM since ENC_START, and the code table is what it was then. (Every one of them was accepted: one that is
refused ends ACTIVE.) Any other commands may come between. -/
def Obligations.OpenJobCountsItsBits : Prop :=
  ∀ (s t : State) (is : List Instr), .encStart ∉ is → runCommands (.encStart :: is) s = .next t → t.enc.state = .active →
    t.enc.bits.toNat = ((encodedSymbols is).map fun x => (s.ctEntry x).len.toNat).sum ∧
    t.enc.count.toNat = (encodedSymbols is).length ∧ t.enc.ct = s.enc.ct

/-- 10_state.md R49 items 5 and 6, R34 and R36, for a whole job and in every state of it, whatever DEC_SETN and other commands come
between: item 6 holds of the target of the job, the DEC_N that its DEC_START read (log entry 8). While the decoder is ACTIVE the tree
and DEC_N are what DEC_START found and DEC_EMITTED < DEC_N. When it is DONE, DEC_EMITTED is that target, at least 1, and DEC_CUR = 0. -/
def Obligations.JobEndsAtTheTargetItStartedWith : Prop :=
  ∀ (s t : State) (is : List Instr), .decStart ∉ is → runCommands (.decStart :: is) s = .next t →
    (t.dec.state = .active → t.dec.tree = s.dec.tree ∧ t.dec.n = s.dec.n ∧ t.dec.emitted < s.dec.n) ∧
    (t.dec.state = .done → t.dec.emitted = s.dec.n ∧ 1 ≤ s.dec.n.toNat ∧ t.dec.cur = 0)

/-- 10_state.md R49 items 4 and 5 and 20_memory.md R73: no word changes the code table while the encoder is ACTIVE, nor the tree or
DEC_N while the decoder is. -/
def Obligations.TablesAreFixedDuringAJob : Prop :=
  ∀ (x : Word32) (s : State), ∃ t, acceptCommand x s = .next t ∧ (s.enc.state = .active → t.enc.ct = s.enc.ct) ∧
    (s.dec.state = .active → t.dec.tree = s.dec.tree ∧ t.dec.n = s.dec.n)
end

