-- ==== Sys2Proof/Laws/PerInstr.lean ====
section
/-! SUPPORT. One lemma per command: its encoding selects the table row of its mnemonic, and that row reads the operands back
(30_encoding.md R82-R91). -/

namespace Sys2Proof.Laws.EncodeSelectsRow

/-- The mnemonic of a command's row. -/
def mnemonicOf : Instr → String
  | .nop => "NOP"
  | .ctLen _ _ => "CT_LEN"
  | .ctWord _ _ _ => "CT_WORD"
  | .encStart => "ENC_START"
  | .encSym _ => "ENC_SYM"
  | .encFinish => "ENC_FINISH"
  | .treeLeaf _ _ => "TREE_LEAF"
  | .treeInt _ _ _ => "TREE_INT"
  | .decSetn _ _ => "DEC_SETN"
  | .decStart => "DEC_START"
  | .decByte _ => "DEC_BYTE"
  | .decBitchar _ => "DEC_BITCHAR"
  | .decEnd => "DEC_END"
  | .rdreg _ => "RDREG"
  | .rdCtlen _ => "RD_CTLEN"
  | .rdCtword _ _ => "RD_CTWORD"
  | .rdTree _ => "RD_TREE"
  | .clrCmderr => "CLR_CMDERR"

/-- The command's encoding selects its row, which builds the command again. -/
def Statement (i : Instr) : Prop :=
  ∃ r ∈ opTable, r.mnemonic = mnemonicOf i ∧ r.selects (encode i) = true ∧ r.build (encode i) = i

/-- A row without operands. -/
theorem of_word (i : Instr) (k : Nat) (hk : k < opTable.length)
    (h : (opTable[k]).mnemonic = mnemonicOf i ∧ (opTable[k]).selects (encode i) = true ∧
      (opTable[k]).build (encode i) = i) : Statement i :=
  ⟨opTable[k], List.getElem_mem hk, h⟩

/-- Two words agree when their 32 bits do. -/
theorem word_ext {x y : Word32} (h : ∀ i, i < 32 → x.getLsbD i = y.getLsbD i) : x = y :=
  BitVec.eq_of_getLsbD_eq h

theorem nop : Statement .nop := of_word _ 0 (by decide) (by decide)

theorem ctLen (y : Symbol) (len : BitVec 8) : Statement (.ctLen y len) := by
  refine of_word _ 1 (by decide) ⟨rfl, ?_, ?_⟩ <;>
    simp only [opTable, OpRow.selects, encode, List.getElem_cons_succ, List.getElem_cons_zero, beq_iff_eq]
  · apply word_ext; intro j hj
    interval_cases j <;> simp
  · congr 1
    all_goals
      apply BitVec.eq_of_getLsbD_eq; intro j hj
      interval_cases j <;> simp

theorem ctWord (y : Symbol) (w : BitVec 4) (d : CodeWord) : Statement (.ctWord y w d) := by
  refine of_word _ 2 (by decide) ⟨rfl, ?_, ?_⟩ <;>
    simp only [opTable, OpRow.selects, encode, List.getElem_cons_succ, List.getElem_cons_zero, beq_iff_eq]
  · apply word_ext; intro j hj
    interval_cases j <;> simp
  · congr 1
    all_goals
      apply BitVec.eq_of_getLsbD_eq; intro j hj
      interval_cases j <;> simp

theorem encStart : Statement .encStart := of_word _ 3 (by decide) (by decide)

theorem encSym (y : Symbol) : Statement (.encSym y) := by
  refine of_word _ 4 (by decide) ⟨rfl, ?_, ?_⟩ <;>
    simp only [opTable, OpRow.selects, encode, List.getElem_cons_succ, List.getElem_cons_zero, beq_iff_eq]
  · apply word_ext; intro j hj
    interval_cases j <;> simp
  · congr 1
    all_goals
      apply BitVec.eq_of_getLsbD_eq; intro j hj
      interval_cases j <;> simp

theorem encFinish : Statement .encFinish := of_word _ 5 (by decide) (by decide)

theorem treeLeaf (i : NodeIndex) (y : Symbol) : Statement (.treeLeaf i y) := by
  refine of_word _ 6 (by decide) ⟨rfl, ?_, ?_⟩ <;>
    simp only [opTable, OpRow.selects, encode, List.getElem_cons_succ, List.getElem_cons_zero, beq_iff_eq]
  · apply word_ext; intro j hj
    interval_cases j <;> simp
  · congr 1
    all_goals
      apply BitVec.eq_of_getLsbD_eq; intro j hj
      interval_cases j <;> simp

theorem treeInt (i : NodeIndex) (l : NodeIndex) (r : NodeIndex) : Statement (.treeInt i l r) := by
  refine of_word _ 7 (by decide) ⟨rfl, ?_, ?_⟩ <;>
    simp only [opTable, OpRow.selects, encode, List.getElem_cons_succ, List.getElem_cons_zero, beq_iff_eq]
  · apply word_ext; intro j hj
    interval_cases j <;> simp
  · congr 1
    all_goals
      apply BitVec.eq_of_getLsbD_eq; intro j hj
      interval_cases j <;> simp

theorem decSetn (h : BitVec 1) (d : BitVec 16) : Statement (.decSetn h d) := by
  refine of_word _ 8 (by decide) ⟨rfl, ?_, ?_⟩ <;>
    simp only [opTable, OpRow.selects, encode, List.getElem_cons_succ, List.getElem_cons_zero, beq_iff_eq]
  · apply word_ext; intro j hj
    interval_cases j <;> simp
  · congr 1
    all_goals
      apply BitVec.eq_of_getLsbD_eq; intro j hj
      interval_cases j <;> simp

theorem decStart : Statement .decStart := of_word _ 9 (by decide) (by decide)

theorem decByte (v : Byte) : Statement (.decByte v) := by
  refine of_word _ 10 (by decide) ⟨rfl, ?_, ?_⟩ <;>
    simp only [opTable, OpRow.selects, encode, List.getElem_cons_succ, List.getElem_cons_zero, beq_iff_eq]
  · apply word_ext; intro j hj
    interval_cases j <;> simp
  · congr 1
    all_goals
      apply BitVec.eq_of_getLsbD_eq; intro j hj
      interval_cases j <;> simp

theorem decBitchar (c : Byte) : Statement (.decBitchar c) := by
  refine of_word _ 11 (by decide) ⟨rfl, ?_, ?_⟩ <;>
    simp only [opTable, OpRow.selects, encode, List.getElem_cons_succ, List.getElem_cons_zero, beq_iff_eq]
  · apply word_ext; intro j hj
    interval_cases j <;> simp
  · congr 1
    all_goals
      apply BitVec.eq_of_getLsbD_eq; intro j hj
      interval_cases j <;> simp

theorem decEnd : Statement .decEnd := of_word _ 12 (by decide) (by decide)

theorem rdreg (a : BitVec 8) : Statement (.rdreg a) := by
  refine of_word _ 13 (by decide) ⟨rfl, ?_, ?_⟩ <;>
    simp only [opTable, OpRow.selects, encode, List.getElem_cons_succ, List.getElem_cons_zero, beq_iff_eq]
  · apply word_ext; intro j hj
    interval_cases j <;> simp
  · congr 1
    all_goals
      apply BitVec.eq_of_getLsbD_eq; intro j hj
      interval_cases j <;> simp

theorem rdCtlen (y : Symbol) : Statement (.rdCtlen y) := by
  refine of_word _ 14 (by decide) ⟨rfl, ?_, ?_⟩ <;>
    simp only [opTable, OpRow.selects, encode, List.getElem_cons_succ, List.getElem_cons_zero, beq_iff_eq]
  · apply word_ext; intro j hj
    interval_cases j <;> simp
  · congr 1
    all_goals
      apply BitVec.eq_of_getLsbD_eq; intro j hj
      interval_cases j <;> simp

theorem rdCtword (y : Symbol) (w : BitVec 4) : Statement (.rdCtword y w) := by
  refine of_word _ 15 (by decide) ⟨rfl, ?_, ?_⟩ <;>
    simp only [opTable, OpRow.selects, encode, List.getElem_cons_succ, List.getElem_cons_zero, beq_iff_eq]
  · apply word_ext; intro j hj
    interval_cases j <;> simp
  · congr 1
    all_goals
      apply BitVec.eq_of_getLsbD_eq; intro j hj
      interval_cases j <;> simp

theorem rdTree (i : NodeIndex) : Statement (.rdTree i) := by
  refine of_word _ 16 (by decide) ⟨rfl, ?_, ?_⟩ <;>
    simp only [opTable, OpRow.selects, encode, List.getElem_cons_succ, List.getElem_cons_zero, beq_iff_eq]
  · apply word_ext; intro j hj
    interval_cases j <;> simp
  · congr 1
    all_goals
      apply BitVec.eq_of_getLsbD_eq; intro j hj
      interval_cases j <;> simp

theorem clrCmderr : Statement .clrCmderr := of_word _ 17 (by decide) (by decide)

/-- All commands. -/
theorem all (i : Instr) : Statement i := by
  cases i with
  | nop => exact nop
  | ctLen y len => exact ctLen y len
  | ctWord y w d => exact ctWord y w d
  | encStart => exact encStart
  | encSym y => exact encSym y
  | encFinish => exact encFinish
  | treeLeaf i y => exact treeLeaf i y
  | treeInt i l r => exact treeInt i l r
  | decSetn h d => exact decSetn h d
  | decStart => exact decStart
  | decByte v => exact decByte v
  | decBitchar c => exact decBitchar c
  | decEnd => exact decEnd
  | rdreg a => exact rdreg a
  | rdCtlen y => exact rdCtlen y
  | rdCtword y w => exact rdCtword y w
  | rdTree i => exact rdTree i
  | clrCmderr => exact clrCmderr

end Sys2Proof.Laws.EncodeSelectsRow
end

