-- ==== Sys2Proof/Laws/Decode.lean ====
section
/-! SUPPORT. What selecting a row says about a word, and what the decoder answers (30_encoding.md R91, R92). -/

namespace Sys2Proof.Machine

/-- Two rows that select one word agree on the bits both of them fix. -/
theorem selects_agree {r q : OpRow} {x : Word32} (hr : r.selects x = true) (hq : q.selects x = true) :
    r.mask &&& q.mask &&& r.pattern = r.mask &&& q.mask &&& q.pattern := by
  simp only [OpRow.selects, beq_iff_eq] at hr hq
  rw [← hr, ← hq]
  apply BitVec.eq_of_getLsbD_eq
  intro i _
  simp only [BitVec.getLsbD_and]
  cases r.mask.getLsbD i <;> cases q.mask.getLsbD i <;> simp

/-- No two rows of the table agree on the bits both of them fix. -/
theorem rows_differ : opTable.Pairwise fun r q =>
    r.mask &&& q.mask &&& r.pattern ≠ r.mask &&& q.mask &&& q.pattern := by
  decide

/-- A bit of a selected word that the row fixes is the pattern's. -/
theorem OpRow.selects_bit {r : OpRow} {x : Word32} (h : r.selects x = true) (i : Nat) :
    (x.getLsbD i && r.mask.getLsbD i) = r.pattern.getLsbD i := by
  simp only [OpRow.selects, beq_iff_eq] at h
  rw [← h, BitVec.getLsbD_and]

/-- The decoder's answer, once the row is known. -/
theorem decode_of_find {x : Word32} {r : OpRow} (h : opTable.find? (·.selects x) = some r) :
    decode x = checkOperands (r.build x) := by
  simp [decode, h]

theorem checkOperands_ok_iff {i j : Instr} : checkOperands i = .ok j ↔ i = j ∧ i.wellFormed = true := by
  unfold checkOperands
  split <;> simp_all

/-- An accepted word selects a row of the table, which builds the command, and the operands are legal. -/
theorem decode_ok_row {x : Word32} {i : Instr} (h : decode x = .ok i) :
    ∃ r ∈ opTable, r.selects x = true ∧ r.build x = i ∧ i.wellFormed = true := by
  unfold decode at h
  split at h
  · cases h
  · next r hr =>
    obtain ⟨hi, hw⟩ := checkOperands_ok_iff.mp h
    exact ⟨r, List.mem_of_find?_eq_some hr, by simpa using List.find?_some hr, hi, hi ▸ hw⟩

end Sys2Proof.Machine
end

