-- ==== Sys2Proof/Laws/State.lean ====
section
/-! SUPPORT. What each update of the state leaves in every unit and field: one lemma each, true by rfl, so that no proof unfolds
a record update. -/

namespace Sys2Proof.Machine

variable (s : State)

/-! ### `emit` -/

@[simp] theorem State.emit_enc (e : Event) : (s.emit e).enc = s.enc := rfl
@[simp] theorem State.emit_dec (e : Event) : (s.emit e).dec = s.dec := rfl
@[simp] theorem State.emit_cmd (e : Event) : (s.emit e).cmd = s.cmd := rfl
@[simp] theorem State.emit_io_log (e : Event) : (s.emit e).io.log = s.io.log ++ [e] := rfl
@[simp] theorem State.emit_io_pending (e : Event) : (s.emit e).io.pending = s.io.pending ++ [e] := rfl
@[simp] theorem State.emit_io_input (e : Event) : (s.emit e).io.input = s.io.input := rfl

/-! ### `respond` -/

@[simp] theorem State.respond_enc (w : Word32) : (s.respond w).enc = s.enc := rfl
@[simp] theorem State.respond_dec (w : Word32) : (s.respond w).dec = s.dec := rfl
@[simp] theorem State.respond_cmd (w : Word32) : (s.respond w).cmd = s.cmd := rfl
@[simp] theorem State.respond_io_log (w : Word32) : (s.respond w).io.log = s.io.log ++ [.rsp w] := rfl
@[simp] theorem State.respond_io_pending (w : Word32) : (s.respond w).io.pending = s.io.pending ++ [.rsp w] := rfl
@[simp] theorem State.respond_io_input (w : Word32) : (s.respond w).io.input = s.io.input := rfl

/-! ### `withEvents` -/

@[simp] theorem State.withEvents_enc (es : List Event) : (s.withEvents es).enc = s.enc := rfl
@[simp] theorem State.withEvents_dec (es : List Event) : (s.withEvents es).dec = s.dec := rfl
@[simp] theorem State.withEvents_cmd (es : List Event) : (s.withEvents es).cmd = s.cmd := rfl
@[simp] theorem State.withEvents_io_log (es : List Event) : (s.withEvents es).io.log = s.io.log ++ es := rfl
@[simp] theorem State.withEvents_io_pending (es : List Event) : (s.withEvents es).io.pending = s.io.pending ++ es := rfl
@[simp] theorem State.withEvents_io_input (es : List Event) : (s.withEvents es).io.input = s.io.input := rfl

/-! ### `withLogged` -/

@[simp] theorem State.withLogged_enc (es : List Event) : (s.withLogged es).enc = s.enc := rfl
@[simp] theorem State.withLogged_dec (es : List Event) : (s.withLogged es).dec = s.dec := rfl
@[simp] theorem State.withLogged_cmd (es : List Event) : (s.withLogged es).cmd = s.cmd := rfl
@[simp] theorem State.withLogged_io_log (es : List Event) : (s.withLogged es).io.log = s.io.log ++ es := rfl
@[simp] theorem State.withLogged_io_pending (es : List Event) : (s.withLogged es).io.pending = s.io.pending := rfl
@[simp] theorem State.withLogged_io_input (es : List Event) : (s.withLogged es).io.input = s.io.input := rfl

/-! ### `withInput` -/

@[simp] theorem State.withInput_enc (ms : List HostMove) : (s.withInput ms).enc = s.enc := rfl
@[simp] theorem State.withInput_dec (ms : List HostMove) : (s.withInput ms).dec = s.dec := rfl
@[simp] theorem State.withInput_cmd (ms : List HostMove) : (s.withInput ms).cmd = s.cmd := rfl
@[simp] theorem State.withInput_io_log (ms : List HostMove) : (s.withInput ms).io.log = s.io.log := rfl
@[simp] theorem State.withInput_io_pending (ms : List HostMove) : (s.withInput ms).io.pending = s.io.pending := rfl
@[simp] theorem State.withInput_io_input (ms : List HostMove) : (s.withInput ms).io.input = ms := rfl

/-! ### `transfer` -/

@[simp] theorem State.transfer_enc (o : OutStream) : (s.transfer o).enc = s.enc := rfl
@[simp] theorem State.transfer_dec (o : OutStream) : (s.transfer o).dec = s.dec := rfl
@[simp] theorem State.transfer_cmd (o : OutStream) : (s.transfer o).cmd = s.cmd := rfl
@[simp] theorem State.transfer_io_log (o : OutStream) : (s.transfer o).io.log = s.io.log := rfl
@[simp] theorem State.transfer_io_pending (o : OutStream) : (s.transfer o).io.pending = s.io.pending.eraseP fun e => e.stream = o := rfl
@[simp] theorem State.transfer_io_input (o : OutStream) : (s.transfer o).io.input = s.io.input := rfl

/-! ### `raiseEnc` -/

@[simp] theorem State.raiseEnc_enc_ct (e : ErrCode) : (s.raiseEnc e).enc.ct = s.enc.ct := rfl
@[simp] theorem State.raiseEnc_enc_state (e : ErrCode) : (s.raiseEnc e).enc.state = .error := rfl
@[simp] theorem State.raiseEnc_enc_err (e : ErrCode) : (s.raiseEnc e).enc.err = e.code := rfl
@[simp] theorem State.raiseEnc_enc_acc (e : ErrCode) : (s.raiseEnc e).enc.acc = s.enc.acc := rfl
@[simp] theorem State.raiseEnc_enc_accn (e : ErrCode) : (s.raiseEnc e).enc.accn = s.enc.accn := rfl
@[simp] theorem State.raiseEnc_enc_count (e : ErrCode) : (s.raiseEnc e).enc.count = s.enc.count := rfl
@[simp] theorem State.raiseEnc_enc_bits (e : ErrCode) : (s.raiseEnc e).enc.bits = s.enc.bits := rfl
@[simp] theorem State.raiseEnc_dec (e : ErrCode) : (s.raiseEnc e).dec = s.dec := rfl
@[simp] theorem State.raiseEnc_cmd (e : ErrCode) : (s.raiseEnc e).cmd = s.cmd := rfl
@[simp] theorem State.raiseEnc_io (e : ErrCode) : (s.raiseEnc e).io = s.io := rfl

/-! ### `encFails` -/

@[simp] theorem State.encFails_enc_ct (c : BitVec 4) : (s.encFails c).enc.ct = s.enc.ct := rfl
@[simp] theorem State.encFails_enc_state (c : BitVec 4) : (s.encFails c).enc.state = .error := rfl
@[simp] theorem State.encFails_enc_err (c : BitVec 4) : (s.encFails c).enc.err = c := rfl
@[simp] theorem State.encFails_enc_acc (c : BitVec 4) : (s.encFails c).enc.acc = s.enc.acc := rfl
@[simp] theorem State.encFails_enc_accn (c : BitVec 4) : (s.encFails c).enc.accn = s.enc.accn := rfl
@[simp] theorem State.encFails_enc_count (c : BitVec 4) : (s.encFails c).enc.count = s.enc.count := rfl
@[simp] theorem State.encFails_enc_bits (c : BitVec 4) : (s.encFails c).enc.bits = s.enc.bits := rfl
@[simp] theorem State.encFails_dec (c : BitVec 4) : (s.encFails c).dec = s.dec := rfl
@[simp] theorem State.encFails_cmd (c : BitVec 4) : (s.encFails c).cmd = s.cmd := rfl
@[simp] theorem State.encFails_io (c : BitVec 4) : (s.encFails c).io = s.io := rfl

/-! ### `raiseDec` -/

@[simp] theorem State.raiseDec_enc (e : ErrCode) : (s.raiseDec e).enc = s.enc := rfl
@[simp] theorem State.raiseDec_dec_tree (e : ErrCode) : (s.raiseDec e).dec.tree = s.dec.tree := rfl
@[simp] theorem State.raiseDec_dec_state (e : ErrCode) : (s.raiseDec e).dec.state = .error := rfl
@[simp] theorem State.raiseDec_dec_err (e : ErrCode) : (s.raiseDec e).dec.err = e.code := rfl
@[simp] theorem State.raiseDec_dec_n (e : ErrCode) : (s.raiseDec e).dec.n = s.dec.n := rfl
@[simp] theorem State.raiseDec_dec_cur (e : ErrCode) : (s.raiseDec e).dec.cur = s.dec.cur := rfl
@[simp] theorem State.raiseDec_dec_emitted (e : ErrCode) : (s.raiseDec e).dec.emitted = s.dec.emitted := rfl
@[simp] theorem State.raiseDec_dec_bits (e : ErrCode) : (s.raiseDec e).dec.bits = s.dec.bits := rfl
@[simp] theorem State.raiseDec_dec_extra (e : ErrCode) : (s.raiseDec e).dec.extra = s.dec.extra := rfl
@[simp] theorem State.raiseDec_cmd (e : ErrCode) : (s.raiseDec e).cmd = s.cmd := rfl
@[simp] theorem State.raiseDec_io (e : ErrCode) : (s.raiseDec e).io = s.io := rfl

/-! ### `decFails` -/

@[simp] theorem State.decFails_enc (c : BitVec 4) : (s.decFails c).enc = s.enc := rfl
@[simp] theorem State.decFails_dec_tree (c : BitVec 4) : (s.decFails c).dec.tree = s.dec.tree := rfl
@[simp] theorem State.decFails_dec_state (c : BitVec 4) : (s.decFails c).dec.state = .error := rfl
@[simp] theorem State.decFails_dec_err (c : BitVec 4) : (s.decFails c).dec.err = c := rfl
@[simp] theorem State.decFails_dec_n (c : BitVec 4) : (s.decFails c).dec.n = s.dec.n := rfl
@[simp] theorem State.decFails_dec_cur (c : BitVec 4) : (s.decFails c).dec.cur = s.dec.cur := rfl
@[simp] theorem State.decFails_dec_emitted (c : BitVec 4) : (s.decFails c).dec.emitted = s.dec.emitted := rfl
@[simp] theorem State.decFails_dec_bits (c : BitVec 4) : (s.decFails c).dec.bits = s.dec.bits := rfl
@[simp] theorem State.decFails_dec_extra (c : BitVec 4) : (s.decFails c).dec.extra = s.dec.extra := rfl
@[simp] theorem State.decFails_cmd (c : BitVec 4) : (s.decFails c).cmd = s.cmd := rfl
@[simp] theorem State.decFails_io (c : BitVec 4) : (s.decFails c).io = s.io := rfl

/-! ### `illegalCommand` -/

@[simp] theorem State.illegalCommand_enc (x : Word32) : (s.illegalCommand x).enc = s.enc := rfl
@[simp] theorem State.illegalCommand_dec (x : Word32) : (s.illegalCommand x).dec = s.dec := rfl
@[simp] theorem State.illegalCommand_cmd_ill (x : Word32) : (s.illegalCommand x).cmd.ill = true := rfl
@[simp] theorem State.illegalCommand_cmd_badword (x : Word32) : (s.illegalCommand x).cmd.badword = x := rfl
@[simp] theorem State.illegalCommand_io (x : Word32) : (s.illegalCommand x).io = s.io := rfl

/-! ### `openEncJob` -/

@[simp] theorem State.openEncJob_enc_ct : (s.openEncJob).enc.ct = s.enc.ct := rfl
@[simp] theorem State.openEncJob_enc_state : (s.openEncJob).enc.state = .active := rfl
@[simp] theorem State.openEncJob_enc_err : (s.openEncJob).enc.err = 0 := rfl
@[simp] theorem State.openEncJob_enc_acc : (s.openEncJob).enc.acc = 0 := rfl
@[simp] theorem State.openEncJob_enc_accn : (s.openEncJob).enc.accn = 0 := rfl
@[simp] theorem State.openEncJob_enc_count : (s.openEncJob).enc.count = 0 := rfl
@[simp] theorem State.openEncJob_enc_bits : (s.openEncJob).enc.bits = 0 := rfl
@[simp] theorem State.openEncJob_dec : (s.openEncJob).dec = s.dec := rfl
@[simp] theorem State.openEncJob_cmd : (s.openEncJob).cmd = s.cmd := rfl
@[simp] theorem State.openEncJob_io : (s.openEncJob).io = s.io := rfl

/-! ### `setCtEntry` -/

@[simp] theorem State.setCtEntry_enc_ct (y : Symbol) (e : CtEntry) : (s.setCtEntry y e).enc.ct = s.enc.ct.set y.toNat e y.isLt := rfl
@[simp] theorem State.setCtEntry_enc_state (y : Symbol) (e : CtEntry) : (s.setCtEntry y e).enc.state = s.enc.state := rfl
@[simp] theorem State.setCtEntry_enc_err (y : Symbol) (e : CtEntry) : (s.setCtEntry y e).enc.err = s.enc.err := rfl
@[simp] theorem State.setCtEntry_enc_acc (y : Symbol) (e : CtEntry) : (s.setCtEntry y e).enc.acc = s.enc.acc := rfl
@[simp] theorem State.setCtEntry_enc_accn (y : Symbol) (e : CtEntry) : (s.setCtEntry y e).enc.accn = s.enc.accn := rfl
@[simp] theorem State.setCtEntry_enc_count (y : Symbol) (e : CtEntry) : (s.setCtEntry y e).enc.count = s.enc.count := rfl
@[simp] theorem State.setCtEntry_enc_bits (y : Symbol) (e : CtEntry) : (s.setCtEntry y e).enc.bits = s.enc.bits := rfl
@[simp] theorem State.setCtEntry_dec (y : Symbol) (e : CtEntry) : (s.setCtEntry y e).dec = s.dec := rfl
@[simp] theorem State.setCtEntry_cmd (y : Symbol) (e : CtEntry) : (s.setCtEntry y e).cmd = s.cmd := rfl
@[simp] theorem State.setCtEntry_io (y : Symbol) (e : CtEntry) : (s.setCtEntry y e).io = s.io := rfl

/-! ### `setPacker` -/

@[simp] theorem State.setPacker_enc_ct (acc : BitVec 8) (accn : BitVec 3) : (s.setPacker acc accn).enc.ct = s.enc.ct := rfl
@[simp] theorem State.setPacker_enc_state (acc : BitVec 8) (accn : BitVec 3) : (s.setPacker acc accn).enc.state = s.enc.state := rfl
@[simp] theorem State.setPacker_enc_err (acc : BitVec 8) (accn : BitVec 3) : (s.setPacker acc accn).enc.err = s.enc.err := rfl
@[simp] theorem State.setPacker_enc_acc (acc : BitVec 8) (accn : BitVec 3) : (s.setPacker acc accn).enc.acc = acc := rfl
@[simp] theorem State.setPacker_enc_accn (acc : BitVec 8) (accn : BitVec 3) : (s.setPacker acc accn).enc.accn = accn := rfl
@[simp] theorem State.setPacker_enc_count (acc : BitVec 8) (accn : BitVec 3) : (s.setPacker acc accn).enc.count = s.enc.count := rfl
@[simp] theorem State.setPacker_enc_bits (acc : BitVec 8) (accn : BitVec 3) : (s.setPacker acc accn).enc.bits = s.enc.bits := rfl
@[simp] theorem State.setPacker_dec (acc : BitVec 8) (accn : BitVec 3) : (s.setPacker acc accn).dec = s.dec := rfl
@[simp] theorem State.setPacker_cmd (acc : BitVec 8) (accn : BitVec 3) : (s.setPacker acc accn).cmd = s.cmd := rfl
@[simp] theorem State.setPacker_io (acc : BitVec 8) (accn : BitVec 3) : (s.setPacker acc accn).io = s.io := rfl

/-! ### `countSymbol` -/

@[simp] theorem State.countSymbol_enc_ct (len : BitVec 8) : (s.countSymbol len).enc.ct = s.enc.ct := rfl
@[simp] theorem State.countSymbol_enc_state (len : BitVec 8) : (s.countSymbol len).enc.state = s.enc.state := rfl
@[simp] theorem State.countSymbol_enc_err (len : BitVec 8) : (s.countSymbol len).enc.err = s.enc.err := rfl
@[simp] theorem State.countSymbol_enc_acc (len : BitVec 8) : (s.countSymbol len).enc.acc = s.enc.acc := rfl
@[simp] theorem State.countSymbol_enc_accn (len : BitVec 8) : (s.countSymbol len).enc.accn = s.enc.accn := rfl
@[simp] theorem State.countSymbol_enc_count (len : BitVec 8) : (s.countSymbol len).enc.count = s.enc.count + 1 := rfl
@[simp] theorem State.countSymbol_enc_bits (len : BitVec 8) : (s.countSymbol len).enc.bits = s.enc.bits + len.setWidth 64 := rfl
@[simp] theorem State.countSymbol_dec (len : BitVec 8) : (s.countSymbol len).dec = s.dec := rfl
@[simp] theorem State.countSymbol_cmd (len : BitVec 8) : (s.countSymbol len).cmd = s.cmd := rfl
@[simp] theorem State.countSymbol_io (len : BitVec 8) : (s.countSymbol len).io = s.io := rfl

/-! ### `encDone` -/

@[simp] theorem State.encDone_enc_ct : (s.encDone).enc.ct = s.enc.ct := rfl
@[simp] theorem State.encDone_enc_state : (s.encDone).enc.state = .done := rfl
@[simp] theorem State.encDone_enc_err : (s.encDone).enc.err = s.enc.err := rfl
@[simp] theorem State.encDone_enc_acc : (s.encDone).enc.acc = s.enc.acc := rfl
@[simp] theorem State.encDone_enc_accn : (s.encDone).enc.accn = s.enc.accn := rfl
@[simp] theorem State.encDone_enc_count : (s.encDone).enc.count = s.enc.count := rfl
@[simp] theorem State.encDone_enc_bits : (s.encDone).enc.bits = s.enc.bits := rfl
@[simp] theorem State.encDone_dec : (s.encDone).dec = s.dec := rfl
@[simp] theorem State.encDone_cmd : (s.encDone).cmd = s.cmd := rfl
@[simp] theorem State.encDone_io : (s.encDone).io = s.io := rfl

/-! ### `setNode` -/

@[simp] theorem State.setNode_enc (i : NodeIndex) (v : Node) : (s.setNode i v).enc = s.enc := rfl
@[simp] theorem State.setNode_dec_tree (i : NodeIndex) (v : Node) : (s.setNode i v).dec.tree = s.dec.tree.setIfInBounds i.toNat v := rfl
@[simp] theorem State.setNode_dec_state (i : NodeIndex) (v : Node) : (s.setNode i v).dec.state = s.dec.state := rfl
@[simp] theorem State.setNode_dec_err (i : NodeIndex) (v : Node) : (s.setNode i v).dec.err = s.dec.err := rfl
@[simp] theorem State.setNode_dec_n (i : NodeIndex) (v : Node) : (s.setNode i v).dec.n = s.dec.n := rfl
@[simp] theorem State.setNode_dec_cur (i : NodeIndex) (v : Node) : (s.setNode i v).dec.cur = s.dec.cur := rfl
@[simp] theorem State.setNode_dec_emitted (i : NodeIndex) (v : Node) : (s.setNode i v).dec.emitted = s.dec.emitted := rfl
@[simp] theorem State.setNode_dec_bits (i : NodeIndex) (v : Node) : (s.setNode i v).dec.bits = s.dec.bits := rfl
@[simp] theorem State.setNode_dec_extra (i : NodeIndex) (v : Node) : (s.setNode i v).dec.extra = s.dec.extra := rfl
@[simp] theorem State.setNode_cmd (i : NodeIndex) (v : Node) : (s.setNode i v).cmd = s.cmd := rfl
@[simp] theorem State.setNode_io (i : NodeIndex) (v : Node) : (s.setNode i v).io = s.io := rfl

/-! ### `setN` -/

@[simp] theorem State.setN_enc (v : BitVec 32) : (s.setN v).enc = s.enc := rfl
@[simp] theorem State.setN_dec_tree (v : BitVec 32) : (s.setN v).dec.tree = s.dec.tree := rfl
@[simp] theorem State.setN_dec_state (v : BitVec 32) : (s.setN v).dec.state = s.dec.state := rfl
@[simp] theorem State.setN_dec_err (v : BitVec 32) : (s.setN v).dec.err = s.dec.err := rfl
@[simp] theorem State.setN_dec_n (v : BitVec 32) : (s.setN v).dec.n = v := rfl
@[simp] theorem State.setN_dec_cur (v : BitVec 32) : (s.setN v).dec.cur = s.dec.cur := rfl
@[simp] theorem State.setN_dec_emitted (v : BitVec 32) : (s.setN v).dec.emitted = s.dec.emitted := rfl
@[simp] theorem State.setN_dec_bits (v : BitVec 32) : (s.setN v).dec.bits = s.dec.bits := rfl
@[simp] theorem State.setN_dec_extra (v : BitVec 32) : (s.setN v).dec.extra = s.dec.extra := rfl
@[simp] theorem State.setN_cmd (v : BitVec 32) : (s.setN v).cmd = s.cmd := rfl
@[simp] theorem State.setN_io (v : BitVec 32) : (s.setN v).io = s.io := rfl

/-! ### `clearDecJob` -/

@[simp] theorem State.clearDecJob_enc : (s.clearDecJob).enc = s.enc := rfl
@[simp] theorem State.clearDecJob_dec_tree : (s.clearDecJob).dec.tree = s.dec.tree := rfl
@[simp] theorem State.clearDecJob_dec_state : (s.clearDecJob).dec.state = s.dec.state := rfl
@[simp] theorem State.clearDecJob_dec_err : (s.clearDecJob).dec.err = 0 := rfl
@[simp] theorem State.clearDecJob_dec_n : (s.clearDecJob).dec.n = s.dec.n := rfl
@[simp] theorem State.clearDecJob_dec_cur : (s.clearDecJob).dec.cur = 0 := rfl
@[simp] theorem State.clearDecJob_dec_emitted : (s.clearDecJob).dec.emitted = 0 := rfl
@[simp] theorem State.clearDecJob_dec_bits : (s.clearDecJob).dec.bits = 0 := rfl
@[simp] theorem State.clearDecJob_dec_extra : (s.clearDecJob).dec.extra = false := rfl
@[simp] theorem State.clearDecJob_cmd : (s.clearDecJob).cmd = s.cmd := rfl
@[simp] theorem State.clearDecJob_io : (s.clearDecJob).io = s.io := rfl

/-! ### `decOpened` -/

@[simp] theorem State.decOpened_enc (d : EngState) (c : BitVec 4) : (s.decOpened d c).enc = s.enc := rfl
@[simp] theorem State.decOpened_dec_tree (d : EngState) (c : BitVec 4) : (s.decOpened d c).dec.tree = s.dec.tree := rfl
@[simp] theorem State.decOpened_dec_state (d : EngState) (c : BitVec 4) : (s.decOpened d c).dec.state = d := rfl
@[simp] theorem State.decOpened_dec_err (d : EngState) (c : BitVec 4) : (s.decOpened d c).dec.err = c := rfl
@[simp] theorem State.decOpened_dec_n (d : EngState) (c : BitVec 4) : (s.decOpened d c).dec.n = s.dec.n := rfl
@[simp] theorem State.decOpened_dec_cur (d : EngState) (c : BitVec 4) : (s.decOpened d c).dec.cur = 0 := rfl
@[simp] theorem State.decOpened_dec_emitted (d : EngState) (c : BitVec 4) : (s.decOpened d c).dec.emitted = 0 := rfl
@[simp] theorem State.decOpened_dec_bits (d : EngState) (c : BitVec 4) : (s.decOpened d c).dec.bits = 0 := rfl
@[simp] theorem State.decOpened_dec_extra (d : EngState) (c : BitVec 4) : (s.decOpened d c).dec.extra = false := rfl
@[simp] theorem State.decOpened_cmd (d : EngState) (c : BitVec 4) : (s.decOpened d c).cmd = s.cmd := rfl
@[simp] theorem State.decOpened_io (d : EngState) (c : BitVec 4) : (s.decOpened d c).io = s.io := rfl

/-! ### `setDecState` -/

@[simp] theorem State.setDecState_enc (v : EngState) : (s.setDecState v).enc = s.enc := rfl
@[simp] theorem State.setDecState_dec_tree (v : EngState) : (s.setDecState v).dec.tree = s.dec.tree := rfl
@[simp] theorem State.setDecState_dec_state (v : EngState) : (s.setDecState v).dec.state = v := rfl
@[simp] theorem State.setDecState_dec_err (v : EngState) : (s.setDecState v).dec.err = s.dec.err := rfl
@[simp] theorem State.setDecState_dec_n (v : EngState) : (s.setDecState v).dec.n = s.dec.n := rfl
@[simp] theorem State.setDecState_dec_cur (v : EngState) : (s.setDecState v).dec.cur = s.dec.cur := rfl
@[simp] theorem State.setDecState_dec_emitted (v : EngState) : (s.setDecState v).dec.emitted = s.dec.emitted := rfl
@[simp] theorem State.setDecState_dec_bits (v : EngState) : (s.setDecState v).dec.bits = s.dec.bits := rfl
@[simp] theorem State.setDecState_dec_extra (v : EngState) : (s.setDecState v).dec.extra = s.dec.extra := rfl
@[simp] theorem State.setDecState_cmd (v : EngState) : (s.setDecState v).cmd = s.cmd := rfl
@[simp] theorem State.setDecState_io (v : EngState) : (s.setDecState v).io = s.io := rfl

/-! ### `countBit` -/

@[simp] theorem State.countBit_enc : (s.countBit).enc = s.enc := rfl
@[simp] theorem State.countBit_dec_tree : (s.countBit).dec.tree = s.dec.tree := rfl
@[simp] theorem State.countBit_dec_state : (s.countBit).dec.state = s.dec.state := rfl
@[simp] theorem State.countBit_dec_err : (s.countBit).dec.err = s.dec.err := rfl
@[simp] theorem State.countBit_dec_n : (s.countBit).dec.n = s.dec.n := rfl
@[simp] theorem State.countBit_dec_cur : (s.countBit).dec.cur = s.dec.cur := rfl
@[simp] theorem State.countBit_dec_emitted : (s.countBit).dec.emitted = s.dec.emitted := rfl
@[simp] theorem State.countBit_dec_bits : (s.countBit).dec.bits = s.dec.bits + 1 := rfl
@[simp] theorem State.countBit_dec_extra : (s.countBit).dec.extra = s.dec.extra := rfl
@[simp] theorem State.countBit_cmd : (s.countBit).cmd = s.cmd := rfl
@[simp] theorem State.countBit_io : (s.countBit).io = s.io := rfl

/-! ### `moveTo` -/

@[simp] theorem State.moveTo_enc (i : NodeIndex) : (s.moveTo i).enc = s.enc := rfl
@[simp] theorem State.moveTo_dec_tree (i : NodeIndex) : (s.moveTo i).dec.tree = s.dec.tree := rfl
@[simp] theorem State.moveTo_dec_state (i : NodeIndex) : (s.moveTo i).dec.state = s.dec.state := rfl
@[simp] theorem State.moveTo_dec_err (i : NodeIndex) : (s.moveTo i).dec.err = s.dec.err := rfl
@[simp] theorem State.moveTo_dec_n (i : NodeIndex) : (s.moveTo i).dec.n = s.dec.n := rfl
@[simp] theorem State.moveTo_dec_cur (i : NodeIndex) : (s.moveTo i).dec.cur = i := rfl
@[simp] theorem State.moveTo_dec_emitted (i : NodeIndex) : (s.moveTo i).dec.emitted = s.dec.emitted := rfl
@[simp] theorem State.moveTo_dec_bits (i : NodeIndex) : (s.moveTo i).dec.bits = s.dec.bits := rfl
@[simp] theorem State.moveTo_dec_extra (i : NodeIndex) : (s.moveTo i).dec.extra = s.dec.extra := rfl
@[simp] theorem State.moveTo_cmd (i : NodeIndex) : (s.moveTo i).cmd = s.cmd := rfl
@[simp] theorem State.moveTo_io (i : NodeIndex) : (s.moveTo i).io = s.io := rfl

/-! ### `countEmitted` -/

@[simp] theorem State.countEmitted_enc : (s.countEmitted).enc = s.enc := rfl
@[simp] theorem State.countEmitted_dec_tree : (s.countEmitted).dec.tree = s.dec.tree := rfl
@[simp] theorem State.countEmitted_dec_state : (s.countEmitted).dec.state = s.dec.state := rfl
@[simp] theorem State.countEmitted_dec_err : (s.countEmitted).dec.err = s.dec.err := rfl
@[simp] theorem State.countEmitted_dec_n : (s.countEmitted).dec.n = s.dec.n := rfl
@[simp] theorem State.countEmitted_dec_cur : (s.countEmitted).dec.cur = s.dec.cur := rfl
@[simp] theorem State.countEmitted_dec_emitted : (s.countEmitted).dec.emitted = s.dec.emitted + 1 := rfl
@[simp] theorem State.countEmitted_dec_bits : (s.countEmitted).dec.bits = s.dec.bits := rfl
@[simp] theorem State.countEmitted_dec_extra : (s.countEmitted).dec.extra = s.dec.extra := rfl
@[simp] theorem State.countEmitted_cmd : (s.countEmitted).cmd = s.cmd := rfl
@[simp] theorem State.countEmitted_io : (s.countEmitted).io = s.io := rfl

/-! ### `setExtra` -/

@[simp] theorem State.setExtra_enc : (s.setExtra).enc = s.enc := rfl
@[simp] theorem State.setExtra_dec_tree : (s.setExtra).dec.tree = s.dec.tree := rfl
@[simp] theorem State.setExtra_dec_state : (s.setExtra).dec.state = s.dec.state := rfl
@[simp] theorem State.setExtra_dec_err : (s.setExtra).dec.err = s.dec.err := rfl
@[simp] theorem State.setExtra_dec_n : (s.setExtra).dec.n = s.dec.n := rfl
@[simp] theorem State.setExtra_dec_cur : (s.setExtra).dec.cur = s.dec.cur := rfl
@[simp] theorem State.setExtra_dec_emitted : (s.setExtra).dec.emitted = s.dec.emitted := rfl
@[simp] theorem State.setExtra_dec_bits : (s.setExtra).dec.bits = s.dec.bits := rfl
@[simp] theorem State.setExtra_dec_extra : (s.setExtra).dec.extra = true := rfl
@[simp] theorem State.setExtra_cmd : (s.setExtra).cmd = s.cmd := rfl
@[simp] theorem State.setExtra_io : (s.setExtra).io = s.io := rfl

/-! ### `hardReset` -/

@[simp] theorem State.hardReset_enc : s.hardReset.enc = Encoder.reset := rfl
@[simp] theorem State.hardReset_dec : s.hardReset.dec = Decoder.reset := rfl
@[simp] theorem State.hardReset_cmd : s.hardReset.cmd = CommandUnit.reset := rfl
@[simp] theorem State.hardReset_io_log : s.hardReset.io.log = s.io.log := rfl
@[simp] theorem State.hardReset_io_pending : s.hardReset.io.pending = [] := rfl
@[simp] theorem State.hardReset_io_input : s.hardReset.io.input = s.io.input := rfl

/-! ### Reading a table or a node after an update of another unit or field -/

@[simp] theorem State.emit_ctEntry (e : Event) (z : Symbol) : (s.emit e).ctEntry z = s.ctEntry z := rfl
@[simp] theorem State.emit_node (e : Event) (j : NodeIndex) : (s.emit e).node j = s.node j := rfl
@[simp] theorem State.respond_ctEntry (w : Word32) (z : Symbol) : (s.respond w).ctEntry z = s.ctEntry z := rfl
@[simp] theorem State.respond_node (w : Word32) (j : NodeIndex) : (s.respond w).node j = s.node j := rfl
@[simp] theorem State.withEvents_ctEntry (es : List Event) (z : Symbol) : (s.withEvents es).ctEntry z = s.ctEntry z := rfl
@[simp] theorem State.withEvents_node (es : List Event) (j : NodeIndex) : (s.withEvents es).node j = s.node j := rfl
@[simp] theorem State.withLogged_ctEntry (es : List Event) (z : Symbol) : (s.withLogged es).ctEntry z = s.ctEntry z := rfl
@[simp] theorem State.withLogged_node (es : List Event) (j : NodeIndex) : (s.withLogged es).node j = s.node j := rfl
@[simp] theorem State.withInput_ctEntry (ms : List HostMove) (z : Symbol) : (s.withInput ms).ctEntry z = s.ctEntry z := rfl
@[simp] theorem State.withInput_node (ms : List HostMove) (j : NodeIndex) : (s.withInput ms).node j = s.node j := rfl
@[simp] theorem State.transfer_ctEntry (o : OutStream) (z : Symbol) : (s.transfer o).ctEntry z = s.ctEntry z := rfl
@[simp] theorem State.transfer_node (o : OutStream) (j : NodeIndex) : (s.transfer o).node j = s.node j := rfl
@[simp] theorem State.raiseEnc_ctEntry (e : ErrCode) (z : Symbol) : (s.raiseEnc e).ctEntry z = s.ctEntry z := rfl
@[simp] theorem State.raiseEnc_node (e : ErrCode) (j : NodeIndex) : (s.raiseEnc e).node j = s.node j := rfl
@[simp] theorem State.encFails_ctEntry (c : BitVec 4) (z : Symbol) : (s.encFails c).ctEntry z = s.ctEntry z := rfl
@[simp] theorem State.encFails_node (c : BitVec 4) (j : NodeIndex) : (s.encFails c).node j = s.node j := rfl
@[simp] theorem State.raiseDec_ctEntry (e : ErrCode) (z : Symbol) : (s.raiseDec e).ctEntry z = s.ctEntry z := rfl
@[simp] theorem State.raiseDec_node (e : ErrCode) (j : NodeIndex) : (s.raiseDec e).node j = s.node j := rfl
@[simp] theorem State.decFails_ctEntry (c : BitVec 4) (z : Symbol) : (s.decFails c).ctEntry z = s.ctEntry z := rfl
@[simp] theorem State.decFails_node (c : BitVec 4) (j : NodeIndex) : (s.decFails c).node j = s.node j := rfl
@[simp] theorem State.illegalCommand_ctEntry (x : Word32) (z : Symbol) : (s.illegalCommand x).ctEntry z = s.ctEntry z := rfl
@[simp] theorem State.illegalCommand_node (x : Word32) (j : NodeIndex) : (s.illegalCommand x).node j = s.node j := rfl
@[simp] theorem State.openEncJob_ctEntry (z : Symbol) : (s.openEncJob).ctEntry z = s.ctEntry z := rfl
@[simp] theorem State.openEncJob_node (j : NodeIndex) : (s.openEncJob).node j = s.node j := rfl
@[simp] theorem State.setCtEntry_node (y : Symbol) (e : CtEntry) (j : NodeIndex) : (s.setCtEntry y e).node j = s.node j := rfl
@[simp] theorem State.setPacker_ctEntry (acc : BitVec 8) (accn : BitVec 3) (z : Symbol) : (s.setPacker acc accn).ctEntry z = s.ctEntry z := rfl
@[simp] theorem State.setPacker_node (acc : BitVec 8) (accn : BitVec 3) (j : NodeIndex) : (s.setPacker acc accn).node j = s.node j := rfl
@[simp] theorem State.countSymbol_ctEntry (len : BitVec 8) (z : Symbol) : (s.countSymbol len).ctEntry z = s.ctEntry z := rfl
@[simp] theorem State.countSymbol_node (len : BitVec 8) (j : NodeIndex) : (s.countSymbol len).node j = s.node j := rfl
@[simp] theorem State.encDone_ctEntry (z : Symbol) : (s.encDone).ctEntry z = s.ctEntry z := rfl
@[simp] theorem State.encDone_node (j : NodeIndex) : (s.encDone).node j = s.node j := rfl
@[simp] theorem State.setNode_ctEntry (i : NodeIndex) (v : Node) (z : Symbol) : (s.setNode i v).ctEntry z = s.ctEntry z := rfl
@[simp] theorem State.setN_ctEntry (v : BitVec 32) (z : Symbol) : (s.setN v).ctEntry z = s.ctEntry z := rfl
@[simp] theorem State.setN_node (v : BitVec 32) (j : NodeIndex) : (s.setN v).node j = s.node j := rfl
@[simp] theorem State.clearDecJob_ctEntry (z : Symbol) : (s.clearDecJob).ctEntry z = s.ctEntry z := rfl
@[simp] theorem State.clearDecJob_node (j : NodeIndex) : (s.clearDecJob).node j = s.node j := rfl
@[simp] theorem State.decOpened_ctEntry (d : EngState) (c : BitVec 4) (z : Symbol) : (s.decOpened d c).ctEntry z = s.ctEntry z := rfl
@[simp] theorem State.decOpened_node (d : EngState) (c : BitVec 4) (j : NodeIndex) : (s.decOpened d c).node j = s.node j := rfl
@[simp] theorem State.setDecState_ctEntry (v : EngState) (z : Symbol) : (s.setDecState v).ctEntry z = s.ctEntry z := rfl
@[simp] theorem State.setDecState_node (v : EngState) (j : NodeIndex) : (s.setDecState v).node j = s.node j := rfl
@[simp] theorem State.countBit_ctEntry (z : Symbol) : (s.countBit).ctEntry z = s.ctEntry z := rfl
@[simp] theorem State.countBit_node (j : NodeIndex) : (s.countBit).node j = s.node j := rfl
@[simp] theorem State.moveTo_ctEntry (i : NodeIndex) (z : Symbol) : (s.moveTo i).ctEntry z = s.ctEntry z := rfl
@[simp] theorem State.moveTo_node (i : NodeIndex) (j : NodeIndex) : (s.moveTo i).node j = s.node j := rfl
@[simp] theorem State.countEmitted_ctEntry (z : Symbol) : (s.countEmitted).ctEntry z = s.ctEntry z := rfl
@[simp] theorem State.countEmitted_node (j : NodeIndex) : (s.countEmitted).node j = s.node j := rfl
@[simp] theorem State.setExtra_ctEntry (z : Symbol) : (s.setExtra).ctEntry z = s.ctEntry z := rfl
@[simp] theorem State.setExtra_node (j : NodeIndex) : (s.setExtra).node j = s.node j := rfl

/-! ### The names of the claims -/

theorem State.raiseEnc_eq_encFails (e : ErrCode) : s.raiseEnc e = s.encFails e.code := rfl
theorem State.raiseDec_eq_decFails (e : ErrCode) : s.raiseDec e = s.decFails e.code := rfl
theorem State.respond_eq_withEvents (w : Word32) : s.respond w = s.withEvents [.rsp w] := rfl
theorem State.emit_eq_withEvents (e : Event) : s.emit e = s.withEvents [e] := rfl

@[simp] theorem State.withEvents_nil : s.withEvents [] = s := by
  simp [State.withEvents]

@[simp] theorem State.withEvents_withEvents (es fs : List Event) :
    (s.withEvents es).withEvents fs = s.withEvents (es ++ fs) := by
  simp [State.withEvents]

end Sys2Proof.Machine
end

