-- ==== Sys2Proof/Laws/Tables.lean ====
section
/-! SUPPORT. Reading after writing: the code table, code words and code bits, the tree RAM, the halves of DEC_N. -/

namespace Sys2Proof.Machine

/-! ### The code table -/

@[simp] theorem State.ctEntry_setCtEntry_self (s : State) (y : Symbol) (e : CtEntry) :
    (s.setCtEntry y e).ctEntry y = e := by
  simp [State.ctEntry]

theorem State.ctEntry_setCtEntry_ne (s : State) (y z : Symbol) (e : CtEntry) (h : z ≠ y) :
    (s.setCtEntry y e).ctEntry z = s.ctEntry z := by
  have : y.toNat ≠ z.toNat := fun hn => h (BitVec.eq_of_toNat_eq hn.symm)
  simp [State.ctEntry, Vector.getElem_set_ne, this]

theorem State.setCtEntry_setCtEntry (s : State) (y : Symbol) (e f : CtEntry) :
    (s.setCtEntry y e).setCtEntry y f = s.setCtEntry y f := by
  simp [State.setCtEntry]

theorem State.setCtEntry_ctEntry_self (s : State) (y : Symbol) : s.setCtEntry y (s.ctEntry y) = s := by
  simp [State.setCtEntry, State.ctEntry]

/-- A write to the table leaves everything else. -/
theorem State.setCtEntry_frame (s : State) (y : Symbol) (e : CtEntry) :
    s.setCtEntry y e = { s with enc := { s.enc with ct := (s.setCtEntry y e).enc.ct } } := rfl

/-! ### Code words and code bits -/

@[simp] theorem CtEntry.setWord_len (e : CtEntry) (w : BitVec 4) (d : CodeWord) : (e.setWord w d).len = e.len := rfl

@[simp] theorem CtEntry.word_setWord_self (e : CtEntry) (w : BitVec 4) (d : CodeWord) :
    (e.setWord w d).word w = d := by
  simp [CtEntry.word, CtEntry.setWord]

theorem CtEntry.word_setWord_ne (e : CtEntry) (v w : BitVec 4) (d : CodeWord) (h : v ≠ w) :
    (e.setWord w d).word v = e.word v := by
  have : w.toNat ≠ v.toNat := fun hn => h (BitVec.eq_of_toNat_eq hn.symm)
  simp [CtEntry.word, CtEntry.setWord, Vector.getElem_set_ne, this]

/-- Code bit `16w + k` is bit `15 - k` of word `w` (20_memory.md R63). -/
theorem CtEntry.codeBit_of_word (e : CtEntry) (w : BitVec 4) (k : Nat) (hk : k < 16) :
    e.codeBit (16 * w.toNat + k) = (e.word w).getLsbD (15 - k) := by
  have h1 : (16 * w.toNat + k) / 16 = w.toNat := by omega
  have h2 : (16 * w.toNat + k) % 16 = k := by omega
  simp [CtEntry.codeBit, h1, h2, BitVec.getMsbD, hk]

theorem CtEntry.codeBit_setWord_self (e : CtEntry) (w : BitVec 4) (d : CodeWord) (k : Nat) (hk : k < 16) :
    (e.setWord w d).codeBit (16 * w.toNat + k) = d.getLsbD (15 - k) := by
  rw [CtEntry.codeBit_of_word _ _ _ hk, CtEntry.word_setWord_self]

theorem CtEntry.codeBit_setWord_ne (e : CtEntry) (w : BitVec 4) (d : CodeWord) (j : Nat) (hj : j < 256)
    (h : j / 16 ≠ w.toNat) : (e.setWord w d).codeBit j = e.codeBit j := by
  have : BitVec.ofNat 4 (j / 16) ≠ w := fun hw => h (by rw [← hw, BitVec.toNat_ofNat]; omega)
  simp [CtEntry.codeBit, CtEntry.word_setWord_ne _ _ _ _ this]

/-- A word of CT_LOAD holds the code bits from `16w` on, first bit first, and 0 past the end of the code (30_encoding.md R97). -/
theorem codeWordOf_getMsbD (code : List Bool) (w k : Nat) (hk : k < 16) :
    (codeWordOf code w).getMsbD k = code.getD (16 * w + k) false := by
  simp [codeWordOf, BitVec.getMsbD_ofFnBE, hk]

/-- Entries with the same code words have the same code bits, whatever their lengths. -/
theorem CtEntry.codeBit_congr {e f : CtEntry} (h : e.code = f.code) (j : Nat) : e.codeBit j = f.codeBit j := by
  simp [CtEntry.codeBit, CtEntry.word, h]

@[simp] theorem CtEntry.codeBits_length (e : CtEntry) : e.codeBits.length = e.len.toNat := by
  simp [CtEntry.codeBits]

theorem CtEntry.codeBits_eq_nil_iff (e : CtEntry) : e.codeBits = [] ↔ e.len = 0 := by
  rw [← List.length_eq_zero_iff, CtEntry.codeBits_length]
  exact ⟨fun h => BitVec.eq_of_toNat_eq h, fun h => by simp [h]⟩

/-! ### The tree RAM -/

@[simp] theorem toNat_nil : Config.NIL.toNat = 511 := rfl

/-- Index 511 names no node (10_state.md R30). -/
@[simp] theorem treeNode_nil (t : Vector Node Config.T_NODES) : treeNode t Config.NIL = none := by
  simp [treeNode]

theorem toNat_lt_of_ne_nil {i : NodeIndex} (h : i ≠ Config.NIL) : i.toNat < 511 := by
  have := i.isLt
  have : i.toNat ≠ 511 := fun hn => h (BitVec.eq_of_toNat_eq hn)
  omega

/-- Every other index names a node. -/
theorem treeNode_isSome {i : NodeIndex} (t : Vector Node Config.T_NODES) (h : i ≠ Config.NIL) :
    ∃ v, treeNode t i = some v := by
  have := toNat_lt_of_ne_nil h
  exact ⟨t[i.toNat], by simp [treeNode, this]⟩

theorem ne_nil_of_treeNode {t : Vector Node Config.T_NODES} {i : NodeIndex} {v : Node} (h : treeNode t i = some v) :
    i ≠ Config.NIL := by
  rintro rfl
  simp at h

theorem State.node_setNode_self (s : State) (i : NodeIndex) (v : Node) (h : i ≠ Config.NIL) :
    (s.setNode i v).node i = some v := by
  have := toNat_lt_of_ne_nil h
  simp [State.node, treeNode, this]

theorem State.node_setNode_ne (s : State) (i j : NodeIndex) (v : Node) (h : j ≠ i) :
    (s.setNode i v).node j = s.node j := by
  have : i.toNat ≠ j.toNat := fun hn => h (BitVec.eq_of_toNat_eq hn.symm)
  simp [State.node, treeNode, this]

theorem State.setNode_setNode (s : State) (i : NodeIndex) (v w : Node) :
    (s.setNode i v).setNode i w = s.setNode i w := by
  simp [State.setNode]

/-- A write to the tree leaves everything else. -/
theorem State.setNode_frame (s : State) (i : NodeIndex) (v : Node) :
    s.setNode i v = { s with dec := { s.dec with tree := (s.setNode i v).dec.tree } } := rfl

/-! ### The halves of DEC_N -/

theorem getLsbD_append_halves (a b : BitVec 16) (i : Nat) :
    BitVec.getLsbD (w := 32) (a ++ b) i = if i < 16 then b.getLsbD i else a.getLsbD (i - 16) :=
  BitVec.getLsbD_append

theorem bit_cases (h : BitVec 1) : h = 0 ∨ h = 1 := by
  have := h.isLt
  rcases (show h.toNat = 0 ∨ h.toNat = 1 by omega) with hn | hn
  · exact .inl (BitVec.eq_of_toNat_eq hn)
  · exact .inr (BitVec.eq_of_toNat_eq hn)

/-- Every bit after a write of one half (42_decoder.md R143). -/
theorem setHalf_getLsbD (v : BitVec 32) (h : BitVec 1) (d : BitVec 16) (i : Nat) (hi : i < 32) :
    (setHalf v h d).getLsbD i = if i / 16 = h.toNat then d.getLsbD (i % 16) else v.getLsbD i := by
  obtain rfl | rfl := bit_cases h
  · by_cases h' : i < 16
    · simp [setHalf, getLsbD_append_halves, h', Nat.mod_eq_of_lt h']
    · simp [setHalf, getLsbD_append_halves, h', show ¬ i / 16 = 0 by omega, show i - 16 < 16 by omega,
        show 16 + (i - 16) = i by omega]
  · by_cases h' : i < 16
    · simp [setHalf, getLsbD_append_halves, h', show ¬ i / 16 = 1 by omega]
    · simp [setHalf, getLsbD_append_halves, h', show i / 16 = 1 by omega, show i % 16 = i - 16 by omega]

/-- The written half is the data (42_decoder.md R143). -/
theorem setHalf_written (v : BitVec 32) (h : BitVec 1) (d : BitVec 16) :
    (setHalf v h d).extractLsb' (16 * h.toNat) 16 = d := by
  ext i hi
  have := h.isLt
  simp [setHalf_getLsbD _ _ _ (16 * h.toNat + i) (by omega), show (16 * h.toNat + i) / 16 = h.toNat by omega,
    show (16 * h.toNat + i) % 16 = i by omega, hi]

/-- The other half is kept (42_decoder.md R143). -/
theorem setHalf_kept (v : BitVec 32) (h : BitVec 1) (d : BitVec 16) :
    (setHalf v h d).extractLsb' (16 - 16 * h.toNat) 16 = v.extractLsb' (16 - 16 * h.toNat) 16 := by
  ext i hi
  have := h.isLt
  simp [setHalf_getLsbD _ _ _ (16 - 16 * h.toNat + i) (by omega),
    show ¬ (16 - 16 * h.toNat + i) / 16 = h.toNat by omega]

/-- Writing both halves writes all of DEC_N (30_encoding.md R97). -/
theorem setHalf_both (v n : BitVec 32) :
    setHalf (setHalf v 0 (n.extractLsb' 0 16)) 1 (n.extractLsb' 16 16) = n := by
  apply BitVec.eq_of_getLsbD_eq
  intro i hi
  rw [setHalf_getLsbD _ _ _ _ hi, setHalf_getLsbD _ _ _ _ hi]
  rcases (show i / 16 = 1 ∨ i / 16 = 0 by omega) with h | h
  · simp [h, show i % 16 < 16 by omega, show 16 + i % 16 = i by omega]
  · simp [h, show i % 16 = i by omega, show i < 16 by omega]

end Sys2Proof.Machine
end

