-- ==== Sys2Proof/Laws/Packer.lean ====
section
/-! SUPPORT. The bit packer as a function of bit sequences (41_encoder.md R116; 20_memory.md R62): what is pending, what a
payload byte is, and what appending bits does. -/

namespace Sys2Proof.Machine

/-! ### Payload bytes -/

theorem payloadByte_getMsbD (bits : List Bool) (q k : Nat) (hk : k < 8) :
    (payloadByte bits q).getMsbD k = bits.getD (8 * q + k) false := by
  simp [payloadByte, BitVec.getMsbD_ofFnBE, hk]

theorem byte_ext {v w : BitVec 8} (h : ∀ k, k < 8 → v.getMsbD k = w.getMsbD k) : v = w :=
  BitVec.eq_of_getMsbD_eq h

@[simp] theorem payload_nil : payload [] = [] := rfl

/-- The first eight bits make the first byte. -/
theorem payload_append_eight (a l : List Bool) (ha : a.length = 8) :
    payload (a ++ l) = payloadByte a 0 :: payload l := by
  have hn : ((a ++ l).length + 7) / 8 = (l.length + 7) / 8 + 1 := by simp [ha]; omega
  rw [payload, hn, List.range_succ_eq_map, List.map_cons, List.map_map, payload]
  congr 1
  · apply byte_ext
    intro k hk
    simp [payloadByte_getMsbD _ _ _ hk, List.getElem?_append, ha, hk]
  · apply List.map_congr_left
    intro q _
    apply byte_ext
    intro k hk
    simp [payloadByte_getMsbD _ _ _ hk, List.getElem?_append, ha, show ¬ 8 * (q + 1) + k < 8 by omega,
      show 8 * (q + 1) + k - 8 = 8 * q + k by omega]

/-- One to seven bits make one padded byte. -/
theorem payload_short (a : List Bool) (h0 : a ≠ []) (h8 : a.length < 8) : payload a = [payloadByte a 0] := by
  have := List.length_pos_of_ne_nil h0
  rw [payload, show (a.length + 7) / 8 = 1 by omega]
  rfl

/-! ### The pending bits -/

@[simp] theorem Encoder.pendingBits_length (e : Encoder) : e.pendingBits.length = e.accn.toNat := by
  simp [Encoder.pendingBits]

theorem Encoder.accn_le (e : Encoder) : e.accn.toNat ≤ 7 := by
  have := e.accn.isLt
  omega

/-- With zero padding the accumulator is the byte of its pending bits (10_state.md R27). -/
theorem Encoder.acc_eq_payloadByte (e : Encoder) (h : e.PadZero) : e.acc = payloadByte e.pendingBits 0 := by
  apply byte_ext
  intro k hk
  rw [payloadByte_getMsbD _ _ _ hk]
  by_cases hl : k < e.accn.toNat
  · simp [Encoder.pendingBits, hl]
  · simp [Encoder.pendingBits, hl, h k (by omega)]

theorem getMsbD_putBit (v : BitVec 8) (n k : Nat) (b : Bool) (hn : n < 8) (hk : k < 8) :
    (putBit v (7 - n) b).getMsbD k = if k = n then b else v.getMsbD k := by
  have h7 : (7 - k = 7 - n) ↔ k = n := by omega
  by_cases h : k = n
  · cases b <;> simp [putBit, BitVec.getMsbD, BitVec.getLsbD_twoPow, h, hn]
    exact .inr (by omega)
  · have : ¬ 7 - n = 7 - k := by omega
    cases b <;> simp [putBit, BitVec.getMsbD, hk, BitVec.getLsbD_twoPow, h, this]
    omega

/-! ### Appending bits -/

/-- The eighth bit empties the packer into a byte (41_encoder.md R116). -/
theorem packBit_full (s : State) (b : Bool) (hp : s.enc.PadZero) (hn : s.enc.accn.toNat = 7) :
    packBit s b = (s.emit (.encByte (payloadByte (s.enc.pendingBits ++ [b]) 0))).setPacker 0 0 := by
  have h8 : s.enc.accn.setWidth 4 + 1 = 8 := BitVec.eq_of_toNat_eq (by simp [hn])
  have hacc : putBit s.enc.acc (7 - s.enc.accn.toNat) b = payloadByte (s.enc.pendingBits ++ [b]) 0 := by
    apply byte_ext
    intro k hk
    rw [getMsbD_putBit _ _ _ _ (by omega) hk, payloadByte_getMsbD _ _ _ hk, Encoder.acc_eq_payloadByte _ hp,
      payloadByte_getMsbD _ _ _ hk]
    by_cases h : k = 7
    · simp [hn, h]
    · simp [List.getElem?_append, hn, h, show k < 7 by omega]
  simp only [packBit, h8, hacc, if_true]

/-- Fewer than eight bits stay pending (41_encoder.md R116). -/
theorem packBit_short (s : State) (b : Bool) (hp : s.enc.PadZero) (hn : s.enc.accn.toNat < 7) :
    ∃ acc accn, packBit s b = s.setPacker acc accn ∧
      (s.setPacker acc accn).enc.pendingBits = s.enc.pendingBits ++ [b] ∧ (s.setPacker acc accn).enc.PadZero := by
  have hval : (s.enc.accn.setWidth 4 + 1).toNat = s.enc.accn.toNat + 1 := by
    simp [BitVec.toNat_add]; omega
  have h8 : ¬ s.enc.accn.setWidth 4 + 1 = 8 := fun h => by
    have := congrArg BitVec.toNat h
    rw [hval] at this
    simp at this
    omega
  have hval3 : ((s.enc.accn.setWidth 4 + 1).setWidth 3).toNat = s.enc.accn.toNat + 1 := by
    rw [BitVec.toNat_setWidth, hval]; omega
  refine ⟨_, _, by simp only [packBit, h8, if_false]; rfl, ?_, ?_⟩
  · apply List.ext_getElem
    · simp only [Encoder.pendingBits_length, State.setPacker_enc_accn, hval3, List.length_append, List.length_singleton]
    · intro k h1 h2
      simp only [Encoder.pendingBits_length, State.setPacker_enc_accn, hval3] at h1
      simp only [Encoder.pendingBits, State.setPacker_enc_accn, State.setPacker_enc_acc, List.getElem_map,
        List.getElem_range, List.getElem_append, List.length_map, List.length_range, List.getElem_singleton]
      rw [getMsbD_putBit _ _ _ _ (by omega) (by omega)]
      by_cases h : k = s.enc.accn.toNat
      · simp [h]
      · simp [h, show k < s.enc.accn.toNat by omega]
  · intro k hk
    simp only [State.setPacker_enc_accn, State.setPacker_enc_acc, hval3] at hk ⊢
    by_cases h8 : k < 8
    · rw [getMsbD_putBit _ _ _ _ (by omega) h8, if_neg (by omega), hp k (by omega)]
    · simp [BitVec.getMsbD, h8]

/-- Appending bits: the whole bytes of the pending bits and the new ones are emitted, the rest stays pending
(41_encoder.md R116, R120). -/
theorem foldl_packBit (bs : List Bool) (s : State) (hp : s.enc.PadZero) :
    ∃ acc accn,
      bs.foldl packBit s = (s.setPacker acc accn).withEvents
        ((payload ((s.enc.pendingBits ++ bs).take (8 * ((s.enc.pendingBits ++ bs).length / 8)))).map .encByte) ∧
      (s.setPacker acc accn).enc.pendingBits =
        (s.enc.pendingBits ++ bs).drop (8 * ((s.enc.pendingBits ++ bs).length / 8)) ∧
      (s.setPacker acc accn).enc.PadZero := by
  induction bs generalizing s with
  | nil =>
    have := s.enc.accn_le
    refine ⟨s.enc.acc, s.enc.accn, ?_, ?_, hp⟩
    · simp [Nat.div_eq_of_lt (show s.enc.accn.toNat < 8 by omega)]
      rfl
    · simp [Nat.div_eq_of_lt (show s.enc.accn.toNat < 8 by omega)]
      rfl
  | cons b bs ih =>
    rw [List.foldl_cons]
    have hsplit : s.enc.pendingBits ++ b :: bs = (s.enc.pendingBits ++ [b]) ++ bs := by simp
    rw [hsplit]
    rcases (show s.enc.accn.toNat = 7 ∨ s.enc.accn.toNat < 7 by have := s.enc.accn_le; omega) with hn | hn
    · rw [packBit_full s b hp hn]
      have hp' : ((s.emit (.encByte (payloadByte (s.enc.pendingBits ++ [b]) 0))).setPacker 0 0).enc.PadZero := by
        intro k _; simp
      obtain ⟨acc, accn, h1, h2, h3⟩ := ih _ hp'
      have hl : (s.enc.pendingBits ++ [b]).length = 8 := by simp [hn]
      have hpend : ((s.emit (.encByte (payloadByte (s.enc.pendingBits ++ [b]) 0))).setPacker 0 0).enc.pendingBits = [] := by
        simp [Encoder.pendingBits]
      rw [hpend, List.nil_append] at h1 h2
      have hdiv : 8 * ((s.enc.pendingBits ++ [b] ++ bs).length / 8) = 8 + 8 * (bs.length / 8) := by
        rw [List.length_append, hl]; omega
      have htake : (s.enc.pendingBits ++ [b] ++ bs).take (8 + 8 * (bs.length / 8)) =
          (s.enc.pendingBits ++ [b]) ++ bs.take (8 * (bs.length / 8)) := by
        rw [List.take_append, List.take_of_length_le (by omega), hl]; simp
      have hdrop : (s.enc.pendingBits ++ [b] ++ bs).drop (8 + 8 * (bs.length / 8)) = bs.drop (8 * (bs.length / 8)) := by
        rw [List.drop_append, List.drop_of_length_le (by omega), hl]; simp
      rw [hdiv, htake, hdrop, payload_append_eight _ _ hl]
      refine ⟨acc, accn, ?_, h2, h3⟩
      rw [h1]
      simp [State.withEvents, State.emit, State.setPacker]
    · obtain ⟨a, n, h1, h2, h3⟩ := packBit_short s b hp hn
      rw [h1]
      obtain ⟨acc, accn, g1, g2, g3⟩ := ih _ h3
      rw [h2] at g1 g2
      exact ⟨acc, accn, g1, g2, g3⟩

end Sys2Proof.Machine
end

