-- ==== Sys2Proof/Laws/Exec.lean ====
section
/-! SUPPORT. What each command answers, case by case: the equations the claims cite in place of unfolding a meaning. -/

namespace Sys2Proof.Machine

variable (s : State)

/-! ### Table writes of the encoder -/

theorem State.writeCt_of_active {s : State} (y : Symbol) (e : CtEntry) (h : s.enc.state = .active) :
    s.writeCt y e = s.encFails 6 := by
  simp only [State.writeCt, h, if_true]; rfl

theorem State.writeCt_of_not_active {s : State} (y : Symbol) (e : CtEntry) (h : s.enc.state ≠ .active) :
    s.writeCt y e = s.setCtEntry y e := by
  simp only [State.writeCt, h, if_false]

theorem exec_ctLen (y : Symbol) (len : BitVec 8) :
    exec (.ctLen y len) s = .next (s.writeCt y { s.ctEntry y with len := len }) := rfl

theorem exec_ctWord (y : Symbol) (w : BitVec 4) (d : CodeWord) :
    exec (.ctWord y w d) s = .next (s.writeCt y ((s.ctEntry y).setWord w d)) := rfl

/-! ### Encoder jobs -/

theorem exec_encStart : exec .encStart s = .next s.openEncJob := rfl

section
variable {s}

theorem exec_encSym_error (y : Symbol) (h : s.enc.state = .error) : exec (.encSym y) s = .next s := by
  simp only [exec, execEncSym, h]

theorem exec_encSym_noJob (y : Symbol) (h : s.enc.state = .idle ∨ s.enc.state = .done) :
    exec (.encSym y) s = .next (s.encFails 6) := by
  rcases h with h | h <;> simp only [exec, execEncSym, h] <;> rfl

theorem exec_encSym_unknown (y : Symbol) (h : s.enc.state = .active) (hl : (s.ctEntry y).len = 0) :
    exec (.encSym y) s = .next (s.encFails 2) := by
  simp only [exec, execEncSym, h, hl, if_true]; rfl

theorem exec_encSym_overflow (y : Symbol) (h : s.enc.state = .active) (hl : (s.ctEntry y).len ≠ 0)
    (hc : s.enc.count = 0xFFFFFFFF) : exec (.encSym y) s = .next (s.encFails 7) := by
  simp only [exec, execEncSym, h, if_neg hl, hc, if_true]; rfl

theorem exec_encSym_append (y : Symbol) (h : s.enc.state = .active) (hl : (s.ctEntry y).len ≠ 0)
    (hc : s.enc.count ≠ 0xFFFFFFFF) : exec (.encSym y) s = .next (s.appendCode (s.ctEntry y)) := by
  simp only [exec, execEncSym, h, if_neg hl, if_neg hc]

theorem exec_encFinish_error (h : s.enc.state = .error) : exec .encFinish s = .next s := by
  simp only [exec, execEncFinish, h]

theorem exec_encFinish_noJob (h : s.enc.state = .idle ∨ s.enc.state = .done) :
    exec .encFinish s = .next (s.encFails 6) := by
  rcases h with h | h <;> simp only [exec, execEncFinish, h] <;> rfl

theorem exec_encFinish_empty (h : s.enc.state = .active) (hc : s.enc.count = 0) :
    exec .encFinish s = .next (s.encFails 1) := by
  simp only [exec, execEncFinish, h, hc, if_true]; rfl

theorem exec_encFinish_flush (h : s.enc.state = .active) (hc : s.enc.count ≠ 0) :
    exec .encFinish s = .next s.flushPacker.encDone := by
  simp only [exec, execEncFinish, h, if_neg hc]

theorem State.flushPacker_empty (h : s.enc.accn = 0) : s.flushPacker = s := if_pos h

theorem State.flushPacker_pending (h : s.enc.accn ≠ 0) :
    s.flushPacker = (s.setPacker 0 0).withEvents [.encByte s.enc.acc] := if_neg h

/-! ### Tree and count writes of the decoder -/

theorem State.writeTree_of_active (i : NodeIndex) (v : Node) (h : s.dec.state = .active) :
    s.writeTree i v = s.decFails 6 := by
  simp only [State.writeTree, h, if_true]; rfl

theorem State.writeTree_of_not_active (i : NodeIndex) (v : Node) (h : s.dec.state ≠ .active) :
    s.writeTree i v = s.setNode i v := by
  simp only [State.writeTree, h, if_false]

theorem nodeIndexOk_iff {i : NodeIndex} : nodeIndexOk i = true ↔ i ≠ Config.NIL := by
  simp [nodeIndexOk]

theorem exec_treeLeaf {i : NodeIndex} (y : Symbol) (hi : i ≠ Config.NIL) :
    exec (.treeLeaf i y) s = .next (s.writeTree i (.leaf y)) := by
  simp only [exec, execTreeLeaf, nodeIndexOk_iff.mpr hi, if_true]

theorem exec_treeInt {i : NodeIndex} (l r : NodeIndex) (hi : i ≠ Config.NIL) :
    exec (.treeInt i l r) s = .next (s.writeTree i (.internal l r)) := by
  simp only [exec, execTreeInt, nodeIndexOk_iff.mpr hi, if_true]

theorem exec_decSetn_active (h : BitVec 1) (d : BitVec 16) (ha : s.dec.state = .active) :
    exec (.decSetn h d) s = .next (s.decFails 6) := by
  simp only [exec, execDecSetn, ha, if_true]; rfl

theorem exec_decSetn_write (h : BitVec 1) (d : BitVec 16) (ha : s.dec.state ≠ .active) :
    exec (.decSetn h d) s = .next (s.setN (setHalf s.dec.n h d)) := by
  simp only [exec, execDecSetn, ha, if_false]

/-! ### Decoder jobs -/

theorem exec_decStart_empty (h : s.dec.n = 0) : exec .decStart s = .next (s.decOpened .error 1) := by
  simp only [exec, execDecStart, h, if_true]
  simp [State.decOpened, State.clearDecJob, State.raiseDec, ErrCode.code, h]

theorem exec_decStart_corrupt (h : s.dec.n ≠ 0) (hv : validTree s.dec.tree = false) :
    exec .decStart s = .next (s.decOpened .error 3) := by
  simp only [exec, execDecStart, if_neg h, hv, if_true]; rfl

theorem exec_decStart_active (h : s.dec.n ≠ 0) (hv : validTree s.dec.tree = true) :
    exec .decStart s = .next (s.decOpened .active 0) := by
  simp only [exec, execDecStart, if_neg h, hv]; rfl

theorem exec_decByte_error (v : Byte) (h : s.dec.state = .error) : exec (.decByte v) s = .next s := by
  simp only [exec, execDecByte, h]

theorem exec_decByte_idle (v : Byte) (h : s.dec.state = .idle) : exec (.decByte v) s = .next (s.decFails 6) := by
  simp only [exec, execDecByte, h]; rfl

theorem exec_decByte_done (v : Byte) (h : s.dec.state = .done) : exec (.decByte v) s = .next s.setExtra := by
  simp only [exec, execDecByte, h]

theorem exec_decByte_active (v : Byte) (h : s.dec.state = .active) :
    exec (.decByte v) s = .next ((byteBits v).foldl walkWhileActive s) := by
  simp only [exec, execDecByte, h]

theorem exec_decBitchar_error (c : Byte) (h : s.dec.state = .error) : exec (.decBitchar c) s = .next s := by
  simp only [exec, execDecBitchar, h]

theorem exec_decBitchar_idle (c : Byte) (h : s.dec.state = .idle) :
    exec (.decBitchar c) s = .next (s.decFails 6) := by
  simp only [exec, execDecBitchar, h]; rfl

theorem charBit_eq_none {c : Byte} (h0 : c ≠ 0x30) (h1 : c ≠ 0x31) : charBit c = none := by
  simp only [charBit, if_neg h0, if_neg h1]

@[simp] theorem charBit_bitChar (b : Bool) : charBit (bitChar b) = some b := by
  cases b <;> rfl

theorem charBit_cases (c : Byte) : charBit c = none ∨ ∃ b, c = bitChar b := by
  by_cases h0 : c = 0x30
  · exact .inr ⟨false, h0⟩
  · by_cases h1 : c = 0x31
    · exact .inr ⟨true, h1⟩
    · exact .inl (charBit_eq_none h0 h1)

theorem exec_decBitchar_invalid (c : Byte) (h : s.dec.state = .active ∨ s.dec.state = .done)
    (hc : charBit c = none) : exec (.decBitchar c) s = .next (s.decFails 5) := by
  rcases h with h | h <;> simp only [exec, execDecBitchar, h, feedChar, hc] <;> rfl

theorem exec_decBitchar_done (b : Bool) (h : s.dec.state = .done) :
    exec (.decBitchar (bitChar b)) s = .next s.setExtra := by
  simp only [exec, execDecBitchar, h, feedChar, charBit_bitChar, if_true]

theorem exec_decBitchar_active (b : Bool) (h : s.dec.state = .active) :
    exec (.decBitchar (bitChar b)) s = .next (walkBit s b) := by
  simp [exec, execDecBitchar, h, feedChar]

theorem exec_decEnd_ignored (h : s.dec.state = .error ∨ s.dec.state = .done) : exec .decEnd s = .next s := by
  rcases h with h | h <;> simp only [exec, execDecEnd, h]

theorem exec_decEnd_idle (h : s.dec.state = .idle) : exec .decEnd s = .next (s.decFails 6) := by
  simp only [exec, execDecEnd, h]; rfl

theorem exec_decEnd_active (h : s.dec.state = .active) : exec .decEnd s = .next (s.decFails 4) := by
  simp only [exec, execDecEnd, h]; rfl

/-! ### Control and readback -/

theorem exec_nop : exec .nop s = .next s := rfl

theorem exec_rdreg {a : BitVec 8} {w : Word32} (h : s.reg a = some w) :
    exec (.rdreg a) s = .next (s.withEvents [.rsp w]) := by
  simp only [exec, execRdreg, h]; rfl

theorem exec_rdCtlen (y : Symbol) : exec (.rdCtlen y) s = .next (s.withEvents [.rsp ((s.ctEntry y).len.setWidth 32)]) := rfl

theorem exec_rdCtword (y : Symbol) (w : BitVec 4) :
    exec (.rdCtword y w) s = .next (s.withEvents [.rsp (((s.ctEntry y).word w).setWidth 32)]) := rfl

theorem exec_rdTree {i : NodeIndex} {v : Node} (h : s.node i = some v) :
    exec (.rdTree i) s = .next (s.withEvents [.rsp v.word]) := by
  simp only [exec, execRdTree, h]; rfl

theorem exec_clrCmderr : exec .clrCmderr s = .next { s with cmd := { s.cmd with ill := false } } := rfl

/-- A register address is in the map exactly when it is legal (10_state.md R40). -/
theorem reg_isSome_iff (a : BitVec 8) : (s.reg a).isSome = regAddrOk a := by
  by_cases h : a ∈ legalRegAddrs
  · have hok : regAddrOk a = true := by simpa [regAddrOk] using h
    rw [hok]
    simp only [legalRegAddrs, List.mem_cons, List.not_mem_nil, or_false] at h
    rcases h with rfl | rfl | rfl | rfl | rfl | rfl | rfl | rfl | rfl | rfl | rfl | rfl | rfl | rfl <;> rfl
  · have hok : regAddrOk a = false := by simpa [regAddrOk] using h
    rw [hok]
    simp only [legalRegAddrs, List.mem_cons, List.not_mem_nil, or_false, not_or] at h
    simp only [State.reg, h, if_false, Option.isSome_none]

/-- A command with an illegal operand acts as its illegal word (30_encoding.md R92; log entry 7). -/
theorem exec_of_not_wellFormed {i : Instr} (h : i.wellFormed = false) : exec i s = .next (s.illegalCommand (encode i)) := by
  cases i with
  | treeLeaf i y => simp only [exec, execTreeLeaf, show nodeIndexOk i = false from h]; rfl
  | treeInt i l r => simp only [exec, execTreeInt, show nodeIndexOk i = false from h]; rfl
  | rdTree i =>
    have : i = Config.NIL := by simpa [Instr.wellFormed, nodeIndexOk] using h
    subst this
    simp only [exec, execRdTree, State.node, treeNode_nil]
  | rdreg a =>
    have : s.reg a = none := by
      rw [← Option.not_isSome_iff_eq_none, reg_isSome_iff]
      simpa [Instr.wellFormed] using h
    simp only [exec, execRdreg, this]
  | _ => exact absurd h (by simp [Instr.wellFormed])

end

/-! ### One walked bit -/

section
variable {s} {b : Bool}

theorem child_eq_some {t : Vector Node Config.T_NODES} {i j : NodeIndex} :
    child t i b = some j ↔ ∃ l r, treeNode t i = some (.internal l r) ∧ j = if b then r else l := by
  unfold child
  split
  · next l r h =>
    constructor
    · rintro ⟨⟩; exact ⟨l, r, h, rfl⟩
    · rintro ⟨l', r', h', rfl⟩; rw [h] at h'; cases h'; rfl
  all_goals simp_all

/-- What delivering a symbol does (42_decoder.md R148). -/
theorem State.deliver_eq (y : Symbol) : s.deliver y = State.withEvents
    { s with dec := { s.dec with emitted := s.dec.emitted + 1, cur := 0,
                                 state := if s.dec.emitted + 1 = s.dec.n then .done else s.dec.state } } [.decSym y] := by
  unfold State.deliver
  by_cases h : s.dec.emitted + 1 = s.dec.n
  · rw [if_pos h, if_pos h]; rfl
  · rw [if_neg h, if_neg h]; rfl

/-- What counting a bit and delivering a symbol does, in terms of the state before (42_decoder.md R148). -/
theorem State.countBit_deliver_eq (y : Symbol) : s.countBit.deliver y = State.withEvents
    { s with dec := { s.dec with bits := s.dec.bits + 1, emitted := s.dec.emitted + 1, cur := 0,
                                 state := if s.dec.emitted + 1 = s.dec.n then .done else s.dec.state } } [.decSym y] :=
  State.deliver_eq y

/-- A bit that reaches a LEAF (42_decoder.md R148). -/
theorem walkBit_leaf {j : NodeIndex} {y : Symbol} (hc : child s.dec.tree s.dec.cur b = some j)
    (hj : s.node j = some (.leaf y)) : walkBit s b = s.countBit.deliver y := by
  obtain ⟨l, r, hn, rfl⟩ := child_eq_some.mp hc
  have hne := ne_nil_of_treeNode hj
  simp only [walkBit, State.node] at hj ⊢
  simp only [hn, if_neg hne, hj]

/-- A bit that reaches an INTERNAL node (42_decoder.md R148). -/
theorem walkBit_internal {j l' r' : NodeIndex} (hc : child s.dec.tree s.dec.cur b = some j)
    (hj : s.node j = some (.internal l' r')) : walkBit s b = s.countBit.moveTo j := by
  obtain ⟨l, r, hn, rfl⟩ := child_eq_some.mp hc
  have hne := ne_nil_of_treeNode hj
  simp only [walkBit, State.node] at hj ⊢
  simp only [hn, if_neg hne, hj]

/-- A bit that follows a NIL child (42_decoder.md R148). -/
theorem walkBit_nil (hc : child s.dec.tree s.dec.cur b = some Config.NIL) : walkBit s b = s.countBit.decFails 8 := by
  obtain ⟨l, r, hn, hj⟩ := child_eq_some.mp hc
  simp only [walkBit, State.node]
  simp only [hn, if_pos hj.symm]
  rfl

/-- A bit from a node that is not INTERNAL, or to an EMPTY one (42_decoder.md R148; never in a job). -/
theorem walkBit_corrupt
    (h : child s.dec.tree s.dec.cur b = none ∨ ∃ j, child s.dec.tree s.dec.cur b = some j ∧ s.node j = some .empty) :
    walkBit s b = s.countBit.decFails 3 := by
  rcases h with h | ⟨j, hc, hj⟩
  · unfold child at h
    unfold walkBit State.node
    split at h <;> simp_all <;> rfl
  · obtain ⟨l, r, hn, rfl⟩ := child_eq_some.mp hc
    have hne := ne_nil_of_treeNode hj
    simp only [walkBit, State.node] at hj ⊢
    simp only [hn, if_neg hne, hj]
    rfl

/-- Everything one walked bit can do (42_decoder.md R148). -/
theorem walkBit_cases (s : State) (b : Bool) :
    (∃ j y, child s.dec.tree s.dec.cur b = some j ∧ s.node j = some (.leaf y) ∧ walkBit s b = s.countBit.deliver y) ∨
    (∃ j l r, child s.dec.tree s.dec.cur b = some j ∧ s.node j = some (.internal l r) ∧
      walkBit s b = s.countBit.moveTo j) ∨
    (child s.dec.tree s.dec.cur b = some Config.NIL ∧ walkBit s b = s.countBit.decFails 8) ∨
    ((child s.dec.tree s.dec.cur b = none ∨ ∃ j, child s.dec.tree s.dec.cur b = some j ∧ s.node j = some .empty) ∧
      walkBit s b = s.countBit.decFails 3) := by
  cases hc : child s.dec.tree s.dec.cur b with
  | none => exact .inr (.inr (.inr ⟨.inl rfl, walkBit_corrupt (.inl hc)⟩))
  | some j =>
    by_cases hnil : j = Config.NIL
    · subst hnil
      exact .inr (.inr (.inl ⟨rfl, walkBit_nil hc⟩))
    · obtain ⟨v, hv⟩ := treeNode_isSome s.dec.tree hnil
      cases v with
      | empty => exact .inr (.inr (.inr ⟨.inr ⟨j, rfl, hv⟩, walkBit_corrupt (.inr ⟨j, hc, hv⟩)⟩))
      | leaf y => exact .inl ⟨j, y, rfl, hv, walkBit_leaf hc hv⟩
      | internal l r => exact .inr (.inl ⟨j, l, r, rfl, hv, walkBit_internal hc hv⟩)

end

end Sys2Proof.Machine
end

