-- ==== Sys2Proof/Laws/Effect.lean ====
section
/-! SUPPORT. Everything a command can do, in one lemma (`exec_effect`), and what packing and walking bits leave alone. -/

namespace Sys2Proof.Machine

/-- Everything a command can do: the state it goes to and when, one constructor per outcome (41_encoder.md, 42_decoder.md,
43_control.md). -/
inductive Effect (i : Instr) (s : State) : State → Prop
  | ctLen (y : Symbol) (len : BitVec 8) : i = .ctLen y len → s.enc.state ≠ .active →
      Effect i s (s.setCtEntry y { s.ctEntry y with len := len })
  | ctWord (y : Symbol) (w : BitVec 4) (d : CodeWord) : i = .ctWord y w d → s.enc.state ≠ .active →
      Effect i s (s.setCtEntry y ((s.ctEntry y).setWord w d))
  | ctBad : ((∃ y len, i = .ctLen y len) ∨ ∃ y w d, i = .ctWord y w d) → s.enc.state = .active →
      Effect i s (s.encFails 6)
  | encStart : i = .encStart → Effect i s s.openEncJob
  | encIgnored : ((∃ y, i = .encSym y) ∨ i = .encFinish) → s.enc.state = .error → Effect i s s
  | encFails (c : BitVec 4) : ((∃ y, i = .encSym y) ∨ i = .encFinish) → s.enc.state ≠ .error → c ≠ 0 → c.toNat ≤ 8 →
      Effect i s (s.encFails c)
  | encSym (y : Symbol) : i = .encSym y → s.enc.state = .active → s.enc.count ≠ 0xFFFFFFFF → (s.ctEntry y).len ≠ 0 →
      Effect i s (s.appendCode (s.ctEntry y))
  | encFinish : i = .encFinish → s.enc.state = .active → s.enc.count ≠ 0 → Effect i s s.flushPacker.encDone
  | treeWrite (k : NodeIndex) (v : Node) :
      ((∃ y, i = .treeLeaf k y ∧ v = .leaf y) ∨ ∃ l r, i = .treeInt k l r ∧ v = .internal l r) → k ≠ Config.NIL →
      s.dec.state ≠ .active → Effect i s (s.setNode k v)
  | decSetn (h : BitVec 1) (d : BitVec 16) : i = .decSetn h d → s.dec.state ≠ .active →
      Effect i s (s.setN (setHalf s.dec.n h d))
  | decBad : ((∃ k y, i = .treeLeaf k y) ∨ (∃ k l r, i = .treeInt k l r) ∨ ∃ h d, i = .decSetn h d) →
      s.dec.state = .active → Effect i s (s.decFails 6)
  | decStartFails (c : BitVec 4) : i = .decStart → c ≠ 0 → c.toNat ≤ 8 → Effect i s (s.decOpened .error c)
  | decStart : i = .decStart → s.dec.n ≠ 0 → validTree s.dec.tree = true → Effect i s (s.decOpened .active 0)
  | decIgnored : ((∃ v, i = .decByte v) ∨ ∃ c, i = .decBitchar c) → s.dec.state = .error → Effect i s s
  | decEndIgnored : i = .decEnd → s.dec.state = .error ∨ s.dec.state = .done → Effect i s s
  | decFails (c : BitVec 4) : ((∃ v, i = .decByte v) ∨ (∃ c, i = .decBitchar c) ∨ i = .decEnd) → s.dec.state ≠ .error →
      c ≠ 0 → c.toNat ≤ 8 → Effect i s (s.decFails c)
  | extra : ((∃ v, i = .decByte v) ∨ ∃ c, i = .decBitchar c) → s.dec.state = .done → Effect i s s.setExtra
  | decByte (v : Byte) : i = .decByte v → s.dec.state = .active → Effect i s ((byteBits v).foldl walkWhileActive s)
  | decBit (b : Bool) : i = .decBitchar (bitChar b) → s.dec.state = .active → Effect i s (walkBit s b)
  | nop : i = .nop → Effect i s s
  | read (w : Word32) : isRead i = true → Effect i s (s.withEvents [.rsp w])
  | clrCmderr : i = .clrCmderr → Effect i s { s with cmd := { s.cmd with ill := false } }
  | illegal : i.wellFormed = false → Effect i s (s.illegalCommand (encode i))

/-- Every command answers a next state, by one of the effects (00_scope.md R13). -/
theorem exec_effect (i : Instr) (s : State) : ∃ t, exec i s = .next t ∧ Effect i s t := by
  by_cases hw : i.wellFormed = true
  swap
  · have hw : i.wellFormed = false := by simpa using hw
    exact ⟨_, exec_of_not_wellFormed hw, .illegal hw⟩
  cases i with
  | nop => exact ⟨_, rfl, .nop rfl⟩
  | ctLen y len =>
    by_cases h : s.enc.state = .active
    · exact ⟨_, by rw [exec_ctLen, State.writeCt_of_active _ _ h], .ctBad (.inl ⟨_, _, rfl⟩) h⟩
    · exact ⟨_, by rw [exec_ctLen, State.writeCt_of_not_active _ _ h], .ctLen _ _ rfl h⟩
  | ctWord y w d =>
    by_cases h : s.enc.state = .active
    · exact ⟨_, by rw [exec_ctWord, State.writeCt_of_active _ _ h], .ctBad (.inr ⟨_, _, _, rfl⟩) h⟩
    · exact ⟨_, by rw [exec_ctWord, State.writeCt_of_not_active _ _ h], .ctWord _ _ _ rfl h⟩
  | encStart => exact ⟨_, rfl, .encStart rfl⟩
  | encSym y =>
    cases h : s.enc.state
    · exact ⟨_, exec_encSym_noJob _ (.inl h), .encFails _ (.inl ⟨_, rfl⟩) (by simp [h]) (by decide) (by decide)⟩
    · by_cases hl : (s.ctEntry y).len = 0
      · exact ⟨_, exec_encSym_unknown _ h hl, .encFails _ (.inl ⟨_, rfl⟩) (by simp [h]) (by decide) (by decide)⟩
      by_cases hc : s.enc.count = 0xFFFFFFFF
      · exact ⟨_, exec_encSym_overflow _ h hl hc, .encFails _ (.inl ⟨_, rfl⟩) (by simp [h]) (by decide) (by decide)⟩
      exact ⟨_, exec_encSym_append _ h hl hc, .encSym _ rfl h hc hl⟩
    · exact ⟨_, exec_encSym_noJob _ (.inr h), .encFails _ (.inl ⟨_, rfl⟩) (by simp [h]) (by decide) (by decide)⟩
    · exact ⟨_, exec_encSym_error _ h, .encIgnored (.inl ⟨_, rfl⟩) h⟩
  | encFinish =>
    cases h : s.enc.state
    · exact ⟨_, exec_encFinish_noJob (.inl h), .encFails _ (.inr rfl) (by simp [h]) (by decide) (by decide)⟩
    · by_cases hc : s.enc.count = 0
      · exact ⟨_, exec_encFinish_empty h hc, .encFails _ (.inr rfl) (by simp [h]) (by decide) (by decide)⟩
      exact ⟨_, exec_encFinish_flush h hc, .encFinish rfl h hc⟩
    · exact ⟨_, exec_encFinish_noJob (.inr h), .encFails _ (.inr rfl) (by simp [h]) (by decide) (by decide)⟩
    · exact ⟨_, exec_encFinish_error h, .encIgnored (.inr rfl) h⟩
  | treeLeaf k y =>
    have hk : k ≠ Config.NIL := nodeIndexOk_iff.mp hw
    by_cases h : s.dec.state = .active
    · exact ⟨_, by rw [exec_treeLeaf _ hk, State.writeTree_of_active _ _ h], .decBad (.inl ⟨_, _, rfl⟩) h⟩
    · exact ⟨_, by rw [exec_treeLeaf _ hk, State.writeTree_of_not_active _ _ h], .treeWrite _ _ (.inl ⟨_, rfl, rfl⟩) hk h⟩
  | treeInt k l r =>
    have hk : k ≠ Config.NIL := nodeIndexOk_iff.mp hw
    by_cases h : s.dec.state = .active
    · exact ⟨_, by rw [exec_treeInt _ _ hk, State.writeTree_of_active _ _ h], .decBad (.inr (.inl ⟨_, _, _, rfl⟩)) h⟩
    · exact ⟨_, by rw [exec_treeInt _ _ hk, State.writeTree_of_not_active _ _ h], .treeWrite _ _ (.inr ⟨_, _, rfl, rfl⟩) hk h⟩
  | decSetn hh d =>
    by_cases h : s.dec.state = .active
    · exact ⟨_, exec_decSetn_active _ _ h, .decBad (.inr (.inr ⟨_, _, rfl⟩)) h⟩
    · exact ⟨_, exec_decSetn_write _ _ h, .decSetn _ _ rfl h⟩
  | decStart =>
    by_cases hn : s.dec.n = 0
    · exact ⟨_, exec_decStart_empty hn, .decStartFails _ rfl (by decide) (by decide)⟩
    cases hv : validTree s.dec.tree
    · exact ⟨_, exec_decStart_corrupt hn hv, .decStartFails _ rfl (by decide) (by decide)⟩
    · exact ⟨_, exec_decStart_active hn hv, .decStart rfl hn hv⟩
  | decByte v =>
    cases h : s.dec.state
    · exact ⟨_, exec_decByte_idle _ h, .decFails _ (.inl ⟨_, rfl⟩) (by simp [h]) (by decide) (by decide)⟩
    · exact ⟨_, exec_decByte_active _ h, .decByte _ rfl h⟩
    · exact ⟨_, exec_decByte_done _ h, .extra (.inl ⟨_, rfl⟩) h⟩
    · exact ⟨_, exec_decByte_error _ h, .decIgnored (.inl ⟨_, rfl⟩) h⟩
  | decBitchar c =>
    cases h : s.dec.state
    · exact ⟨_, exec_decBitchar_idle _ h, .decFails _ (.inr (.inl ⟨_, rfl⟩)) (by simp [h]) (by decide) (by decide)⟩
    · rcases charBit_cases c with hc | ⟨b, rfl⟩
      · exact ⟨_, exec_decBitchar_invalid _ (.inl h) hc, .decFails _ (.inr (.inl ⟨_, rfl⟩)) (by simp [h]) (by decide) (by decide)⟩
      · exact ⟨_, exec_decBitchar_active _ h, .decBit _ rfl h⟩
    · rcases charBit_cases c with hc | ⟨b, rfl⟩
      · exact ⟨_, exec_decBitchar_invalid _ (.inr h) hc, .decFails _ (.inr (.inl ⟨_, rfl⟩)) (by simp [h]) (by decide) (by decide)⟩
      · exact ⟨_, exec_decBitchar_done _ h, .extra (.inr ⟨_, rfl⟩) h⟩
    · exact ⟨_, exec_decBitchar_error _ h, .decIgnored (.inr ⟨_, rfl⟩) h⟩
  | decEnd =>
    cases h : s.dec.state
    · exact ⟨_, exec_decEnd_idle h, .decFails _ (.inr (.inr rfl)) (by simp [h]) (by decide) (by decide)⟩
    · exact ⟨_, exec_decEnd_active h, .decFails _ (.inr (.inr rfl)) (by simp [h]) (by decide) (by decide)⟩
    · exact ⟨_, exec_decEnd_ignored (.inr h), .decEndIgnored rfl (.inr h)⟩
    · exact ⟨_, exec_decEnd_ignored (.inl h), .decEndIgnored rfl (.inl h)⟩
  | rdreg a =>
    have : (s.reg a).isSome := by rw [reg_isSome_iff]; exact hw
    obtain ⟨w, hw⟩ := Option.isSome_iff_exists.mp this
    exact ⟨_, exec_rdreg hw, .read _ rfl⟩
  | rdCtlen y => exact ⟨_, rfl, .read _ rfl⟩
  | rdCtword y w => exact ⟨_, rfl, .read _ rfl⟩
  | rdTree k =>
    obtain ⟨v, hv⟩ := treeNode_isSome s.dec.tree (nodeIndexOk_iff.mp hw)
    exact ⟨_, exec_rdTree hv, .read _ rfl⟩
  | clrCmderr => exact ⟨_, rfl, .clrCmderr rfl⟩

/-- The one lemma to take a command apart with. -/
theorem effect_of_exec {i : Instr} {s t : State} (h : exec i s = .next t) : Effect i s t := by
  obtain ⟨u, hu, he⟩ := exec_effect i s
  rw [h] at hu; cases hu; exact he

/-! ### What packing bits leaves alone (41_encoder.md R116) -/

/-- The bits packed touch the packer's registers only, and emit bytes: eight bits each, the rest pending. -/
theorem foldl_packBit_frame (bs : List Bool) (s : State) :
    ∃ acc accn, ∃ es : List Event, bs.foldl packBit s = (s.setPacker acc accn).withEvents es ∧
      (∀ e ∈ es, ∃ v, e = .encByte v) ∧ 8 * es.length + accn.toNat = s.enc.accn.toNat + bs.length := by
  induction bs generalizing s with
  | nil => exact ⟨s.enc.acc, s.enc.accn, [], by simp [State.setPacker, State.withEvents], by simp, by simp⟩
  | cons b bs ih =>
    have hstep : ∃ acc accn, ∃ es : List Event, packBit s b = (s.setPacker acc accn).withEvents es ∧
        (∀ e ∈ es, ∃ v, e = .encByte v) ∧ 8 * es.length + accn.toNat = s.enc.accn.toNat + 1 := by
      have hn := s.enc.accn.isLt
      simp only [packBit]
      split
      · next h =>
        refine ⟨0, 0, [_], rfl, by simp, ?_⟩
        have := congrArg BitVec.toNat h
        simp at this ⊢
        omega
      · next h =>
        refine ⟨_, _, [], by simp only [State.withEvents, List.append_nil]; rfl, by simp, ?_⟩
        have : (s.enc.accn.setWidth 4 + 1).toNat ≠ 8 := fun h' => h (BitVec.eq_of_toNat_eq h')
        simp at this ⊢
        omega
    obtain ⟨a, n, es, h, he, hl⟩ := hstep
    obtain ⟨a', n', fs, h', hf, hl'⟩ := ih (packBit s b)
    refine ⟨a', n', es ++ fs, ?_, ?_, ?_⟩
    · rw [List.foldl_cons, h', h]
      simp [State.setPacker, State.withEvents]
    · intro e h
      rcases List.mem_append.mp h with h | h
      · exact he e h
      · exact hf e h
    · rw [h] at hl'
      simp at hl' ⊢
      omega

/-! ### What walking bits leaves alone (42_decoder.md R148, R149) -/

/-- A walked bit touches the decoder's job registers only, and emits at most one symbol. -/
theorem walkBit_frame (s : State) (b : Bool) :
    ∃ d, ∃ es : List Event, walkBit s b = ({ s with dec := d } : State).withEvents es ∧ d.tree = s.dec.tree ∧
      d.n = s.dec.n ∧ d.extra = s.dec.extra ∧ (∀ e ∈ es, ∃ y, e = .decSym y) ∧ es.length ≤ 1 := by
  rcases walkBit_cases s b with ⟨j, y, _, _, h⟩ | ⟨j, l, r, _, _, h⟩ | ⟨_, h⟩ | ⟨_, h⟩ <;> rw [h]
  · exact ⟨_, [.decSym y], State.countBit_deliver_eq y, rfl, rfl, rfl, by simp, by simp⟩
  · exact ⟨(s.countBit.moveTo j).dec, [], by simp only [State.withEvents, List.append_nil]; rfl, rfl, rfl, rfl, by simp, by simp⟩
  · exact ⟨(s.countBit.decFails 8).dec, [], by simp only [State.withEvents, List.append_nil]; rfl, rfl, rfl, rfl, by simp, by simp⟩
  · exact ⟨(s.countBit.decFails 3).dec, [], by simp only [State.withEvents, List.append_nil]; rfl, rfl, rfl, rfl, by simp, by simp⟩

/-- The bits of a byte touch the decoder's job registers only, and emit at most one symbol each. -/
theorem foldl_walk_frame (bs : List Bool) (s : State) :
    ∃ d, ∃ es : List Event, bs.foldl walkWhileActive s = ({ s with dec := d } : State).withEvents es ∧
      d.tree = s.dec.tree ∧ d.n = s.dec.n ∧ d.extra = s.dec.extra ∧ (∀ e ∈ es, ∃ y, e = .decSym y) ∧
      es.length ≤ bs.length := by
  induction bs generalizing s with
  | nil => exact ⟨s.dec, [], by simp [State.withEvents], rfl, rfl, rfl, by simp, by simp⟩
  | cons b bs ih =>
    by_cases ha : s.dec.state = .active
    · obtain ⟨d, es, h, ht, hn, hx, he, hl⟩ := walkBit_frame s b
      obtain ⟨d', fs, h', ht', hn', hx', hf, hl'⟩ := ih (walkBit s b)
      refine ⟨d', es ++ fs, ?_, ?_, ?_, ?_, ?_, ?_⟩
      · rw [List.foldl_cons, walkWhileActive, if_pos ha, h', h]
        simp [State.withEvents]
      · rw [ht', h]; exact ht
      · rw [hn', h]; exact hn
      · rw [hx', h]; exact hx
      · intro e h
        rcases List.mem_append.mp h with h | h
        · exact he e h
        · exact hf e h
      · simp; omega
    · obtain ⟨d, es, h, rest⟩ := ih s
      refine ⟨d, es, ?_, rest.1, rest.2.1, rest.2.2.1, rest.2.2.2.1, by simp; omega⟩
      rw [List.foldl_cons, walkWhileActive, if_neg ha, h]

/-- A job that is not ACTIVE walks no bit (42_decoder.md R149). -/
theorem foldl_walk_stopped (bs : List Bool) {s : State} (h : s.dec.state ≠ .active) :
    bs.foldl walkWhileActive s = s := by
  induction bs with
  | nil => rfl
  | cons b bs ih => rw [List.foldl_cons, walkWhileActive, if_neg h, ih]

end Sys2Proof.Machine
end

