-- ==== Sys2Proof/Tests/Slice0.lean ====
section
/-! SUPPORT. The model's own tests. The expected values are those of 95_test_vectors.md (the vector's name stands in each comment)
or read by hand from the rule named; then, for each claim with hypotheses, a concrete state and operands that meet them. -/

namespace Sys2Proof.Tests

open Sys2Proof.Machine

-- one theorem at a time: each waiting on the kernel in a thread of its own, they would run out of threads
set_option Elab.async false

/-! ### Small states -/

/-- A code-table entry from its length and its first two code words. -/
def entry (len : BitVec 8) (w0 w1 : CodeWord) : CtEntry :=
  { len := len, code := (CtEntry.reset.code.set 0 w0).set 1 w1 }

/-- A code table with a few entries. -/
def table (es : List (Symbol × CtEntry)) : Vector CtEntry Config.CT_ENTRIES :=
  es.foldl (fun t p => t.set p.1.toNat p.2 p.1.isLt) Encoder.reset.ct

/-- A tree RAM with a few nodes written. -/
def tree (ns : List (NodeIndex × Node)) : Vector Node Config.T_NODES :=
  ns.foldl (fun t p => t.setIfInBounds p.1.toNat p.2) Decoder.reset.tree

/-- The set-ups CT_ABC and T_ABC of 95_test_vectors.md, with DEC_N = 8. -/
def abc : State :=
  { State.reset with
    enc := { Encoder.reset with ct := table [(0x41, entry 1 0x8000 0), (0x42, entry 2 0x4000 0), (0x43, entry 2 0 0)] }
    dec := { Decoder.reset with
      n := 8
      tree := tree [(0, .internal 1 2), (1, .internal 3 4), (2, .leaf 0x41), (3, .leaf 0x43), (4, .leaf 0x42)] } }

/-- The set-up T_A, with DEC_N = 4. -/
def single : State :=
  { State.reset with dec := { Decoder.reset with n := 4, tree := tree [(0, .internal 1 511), (1, .leaf 0x41)] } }

/-- A state with the encoder in a job state. -/
def encIn (st : EngState) (s : State) : State := { s with enc := { s.enc with state := st } }

/-- A state with the decoder in a job state. -/
def decIn (st : EngState) (s : State) : State := { s with dec := { s.dec with state := st } }

/-- A state with the host's moves waiting. -/
def waiting (ms : List HostMove) (s : State) : State := { s with io := { s.io with input := ms } }

/-- The state a command answers; no command answers anything else. -/
def out (r : Host.Outcome State Fault Refusal) : State :=
  match r with
  | .next t => t
  | .fault f => nomatch f
  | .refused _ => State.reset

/-! ### Well-formedness: an ill-formed term for each check -/

theorem test_wellFormed_treeLeaf_511 : (Instr.treeLeaf 511 0x41).wellFormed = false := by decide
theorem test_wellFormed_treeInt_511 : (Instr.treeInt 511 0 0).wellFormed = false := by decide
theorem test_wellFormed_rdTree_511 : (Instr.rdTree 511).wellFormed = false := by decide
theorem test_wellFormed_rdreg_unlisted :
    (Instr.rdreg 0x03).wellFormed = false ∧ (Instr.rdreg 0xFF).wellFormed = false ∧ (Instr.rdreg 0x22).wellFormed = false := by
  decide
theorem test_wellFormed_ctLoad_length : (AsmLine.ctLoad 0x41 []).wellFormed = false ∧
    (AsmLine.ctLoad 0x41 (List.replicate 256 true)).wellFormed = false := by
  decide +kernel
theorem test_wellFormed_line_of_command : (AsmLine.command (.treeInt 511 0 0)).wellFormed = false := by decide
/-- Child fields are not checked (42_decoder.md R142). -/
theorem test_wellFormed_children_unchecked : (Instr.treeInt 510 511 511).wellFormed = true := by decide

/-! ### Decoding: a word of every row, from the words of 95_test_vectors.md -/

theorem test_decode_control : decode 0x00000000 = .ok .nop ∧ decode 0xE0000000 = .ok .clrCmderr := by decide
theorem test_decode_codeTable :
    decode 0x14200002 = .ok (.ctLen 0x42 2) ∧ decode 0x25118000 = .ok (.ctWord 0x51 1 0x8000) := by decide
theorem test_decode_encoder : decode 0x30000000 = .ok .encStart ∧ decode 0x4000005A = .ok (.encSym 0x5A) ∧
    decode 0x50000000 = .ok .encFinish := by decide
theorem test_decode_tree :
    decode 0x60200042 = .ok (.treeLeaf 4 0x42) ∧ decode 0x60140A06 = .ok (.treeInt 2 5 6) := by decide
theorem test_decode_decoder : decode 0x70010001 = .ok (.decSetn 1 1) ∧ decode 0x80000000 = .ok .decStart ∧
    decode 0x900000FA = .ok (.decByte 0xFA) ∧ decode 0xA0000031 = .ok (.decBitchar 0x31) ∧
    decode 0xB0000000 = .ok .decEnd := by decide
theorem test_decode_readback : decode 0xC0000010 = .ok (.rdreg 0x10) ∧ decode 0xD0000041 = .ok (.rdCtlen 0x41) ∧
    decode 0xD4000142 = .ok (.rdCtword 0x42 1) ∧ decode 0xD8000005 = .ok (.rdTree 5) := by decide

/-- The legal edge words of 95_test_vectors.md 2.1. -/
theorem test_decode_edges : decode 0x2FFFFFFF = .ok (.ctWord 0xFF 15 0xFFFF) ∧
    decode 0x6FF7FFFF = .ok (.treeInt 510 511 511) ∧ decode 0x6FF000FF = .ok (.treeLeaf 510 0xFF) ∧
    decode 0x7001FFFF = .ok (.decSetn 1 0xFFFF) ∧ decode 0xD00000FF = .ok (.rdCtlen 0xFF) ∧
    decode 0xD4000FFF = .ok (.rdCtword 0xFF 15) ∧ decode 0xD80001FE = .ok (.rdTree 510) := by decide

/-- The illegal words of 95_test_vectors.md 2.1, with the reason each is given there. -/
theorem test_decode_illegal_op : decode 0xF0000000 = .error .reservedOp ∧ decode 0xFFFFFFFF = .error .reservedOp ∧
    decode 0xDC000000 = .error .reservedRead := by decide
theorem test_decode_illegal_bits :
    decode 0x00000001 = .error .reservedBits ∧ decode 0x30000001 = .error .reservedBits ∧
    decode 0xE0000001 = .error .reservedBits ∧ decode 0x10000100 = .error .reservedBits ∧
    decode 0x40000100 = .error .reservedBits ∧ decode 0x90000100 = .error .reservedBits := by decide
theorem test_decode_illegal_bits_2 :
    decode 0x60000141 = .error .reservedBits ∧ decode 0x70020000 = .error .reservedBits ∧
    decode 0xC0000100 = .error .reservedBits ∧ decode 0xD4001000 = .error .reservedBits ∧
    decode 0xD8000200 = .error .reservedBits := by decide
theorem test_decode_illegal_operand : decode 0x6FF80041 = .error .nodeIndex ∧ decode 0x6FFC0000 = .error .nodeIndex ∧
    decode 0xD80001FF = .error .nodeIndex ∧ decode 0xC0000003 = .error .regAddr ∧ decode 0xC00000FF = .error .regAddr := by
  decide

/-- A word of the opcode table is the command word. -/
theorem test_decodeTableWord : decodeTableWord 32 0x6007FE01 = some (.treeInt 0 511 1) ∧
    decodeTableWord 32 0x70020000 = none := by decide

/-- The line `CT_LOAD 'Q'` of 17 bits: the words of EV15. -/
theorem test_assemble_ctLoad : assemble (.ctLoad 0x51 [true, false, true, false, false, true, false, true, true, true, false,
    false, false, false, true, true, true]) = [0x2510A5C3, 0x25118000, 0x15100011] := by decide
/-- `DEC_SETN32`, and lines in the operand order of 30_encoding.md R96 (set-up T_A, program P1). -/
theorem test_assemble_lines : assemble (.decSetn32 0x10002) = [0x70000002, 0x70010001] ∧
    (parseCommand "TREE_INT" [.number 0, .number 1, .name "NIL"]).map encode = some 0x600403FF ∧
    (parseCommand "RDREG" [.name "DEC_STATUS"]).map encode = some 0xC0000010 := by decide

/-! ### One step of each command -/

/-- KV2. -/
theorem test_nop : exec .nop abc = .next abc := rfl
/-- EV5: CT_LEN in ACTIVE. -/
theorem test_ctLen_active : (out (exec (.ctLen 0x41 5) (encIn .active abc))).enc.status = 0x63 ∧
    ((out (exec (.ctLen 0x41 5) (encIn .active abc))).ctEntry 0x41).len = 1 := by decide +kernel
/-- EV13: the code bits stay after the length is cleared. -/
theorem test_ctLen_keeps_code : (out (exec (.ctLen 0x41 0) abc)).ctEntry 0x41 = entry 0 0x8000 0 := by decide +kernel
/-- EV15: bit 15 of word 1 is code bit 16. -/
theorem test_ctWord : ((out (exec (.ctWord 0x51 1 0x8000) abc)).ctEntry 0x51).codeBit 16 = true ∧
    ((out (exec (.ctWord 0x51 1 0x8000) abc)).ctEntry 0x51).codeBit 31 = false := by decide +kernel
/-- EV12: the error is cleared. -/
theorem test_encStart : (out (exec .encStart (abc.encFails 6))).enc.status = 0x01 := by decide +kernel
/-- EV15: 17 bits give two bytes and one pending bit. -/
theorem test_encSym : (let s := out (exec (.encSym 0x51) (out (exec .encStart
      { abc with enc := { abc.enc with ct := table [(0x51, entry 17 0xA5C3 0x8000)] } })));
    s.io.log = [.encByte 0xA5, .encByte 0xC3] ∧ s.enc.status = 0x101 ∧ s.enc.acc = 0x80 ∧ s.enc.bits = 17) := by
  decide +kernel
/-- EV9: L = 255 with ENC_ACCN = 7 gives 32 bytes. -/
theorem test_encSym_longest : (let s := out (exec (.encSym 0xFF) { abc with enc :=
      { ct := table [(0xFF, { len := 255, code := Vector.replicate 16 0xFFFF })], state := .active, err := 0, acc := 0xFE,
        accn := 7, count := 1, bits := 255 } });
    s.io.log = List.replicate 32 (.encByte 0xFF) ∧ s.enc.status = 0x601 ∧ s.enc.acc = 0xFC ∧ s.enc.bits = 510) := by
  decide +kernel
/-- EV10. -/
theorem test_encFinish : (let s := out (exec .encFinish
      { abc with enc := { abc.enc with state := .active, acc := 0xFC, accn := 6, count := 2 } });
    s.io.log = [.encByte 0xFC] ∧ s.enc.status = 0x02 ∧ s.enc.acc = 0) := by decide +kernel
/-- EV3. -/
theorem test_encFinish_empty : (let s := out (exec .encFinish (encIn .active abc));
    s.io.log = [] ∧ s.enc.status = 0x13) := by decide +kernel
/-- KV4. -/
theorem test_treeLeaf : (out (exec (.treeLeaf 510 0xFF) State.reset)).node 510 = some (.leaf 0xFF) := by decide +kernel
/-- DV17: TREE_LEAF in ACTIVE. -/
theorem test_treeLeaf_active : (out (exec (.treeLeaf 2 0x5A) (decIn .active abc))).dec.status = 0x63 ∧
    (out (exec (.treeLeaf 2 0x5A) (decIn .active abc))).node 2 = some (.leaf 0x41) := by decide +kernel
/-- KV3. -/
theorem test_treeInt : (out (exec (.treeInt 0 1 511) State.reset)).node 0 = some (.internal 1 511) := by decide +kernel
/-- DV22. -/
theorem test_decSetn : (out (exec (.decSetn 0 2) { abc with dec := { abc.dec with n := 0x10000 } })).dec.n = 0x10002 := by
  decide +kernel
/-- DV9 and DV10. -/
theorem test_decStart : (out (exec .decStart abc)).dec.status = 0x01 ∧ (out (exec .decStart State.reset)).dec.status = 0x13 := by
  decide +kernel
/-- DV1 to DV8b: none of these trees is valid; DV9: a node that is not reached does not count. -/
theorem test_validTree : (∀ ns ∈ ([[(0, .leaf 0x41)], [(0, .internal 1 1), (1, .leaf 0x41)],
      [(0, .internal 1 2), (2, .leaf 0x41), (1, .internal 3 0), (3, .leaf 0x42)],
      [(0, .internal 1 2), (2, .leaf 0x41), (1, .internal 1 3), (3, .leaf 0x42)], [(0, .internal 1 2), (1, .leaf 0x41)],
      [(0, .internal 1 2), (2, .leaf 0x41), (1, .internal 3 511), (3, .leaf 0x43)],
      [(0, .internal 511 1), (1, .leaf 0x41)],
      [(0, .internal 1 511), (1, .internal 2 3), (2, .leaf 0x41), (3, .leaf 0x42)], [(0, .internal 511 511)],
      [(0, .internal 1 511)]] : List (List (NodeIndex × Node))), validTree (tree ns) = false) ∧
    validTree (out (exec (.treeInt 9 9 9) abc)).dec.tree = true := by decide +kernel
/-- DV12: three bits give three symbols, the rest is not walked. -/
theorem test_decByte : (let s := out (exec (.decByte 0xE5) (decIn .active { abc with dec := { abc.dec with n := 3 } }));
    s.io.log = [.decSym 0x41, .decSym 0x41, .decSym 0x41] ∧ s.dec.status = 0x02 ∧ s.dec.bits = 3) := by decide +kernel
/-- DV24: the third bit follows NIL. -/
theorem test_decByte_invalidPath : (let s := out (exec (.decByte 0x20) (decIn .active single));
    s.io.log = [.decSym 0x41, .decSym 0x41] ∧ s.dec.status = 0x83 ∧ s.dec.emitted = 2 ∧ s.dec.bits = 3) := by decide +kernel
/-- DV15: one bit from the root to node 1. -/
theorem test_decBitchar : (let s := out (exec (.decBitchar 0x30) (decIn .active abc));
    s.io.log = [] ∧ s.dec.cur = 1 ∧ s.dec.bits = 1 ∧ s.dec.status = 0x01) := by decide +kernel
/-- DV25: a character that is no bit, in DONE, keeps EXTRA. -/
theorem test_decBitchar_invalid : (out (exec (.decBitchar 0x61)
    { single with dec := { single.dec with state := .done, extra := true } })).dec.status = 0x153 := by decide +kernel
/-- DV18 and DV16. -/
theorem test_decEnd : (out (exec .decEnd (decIn .active abc))).dec.status = 0x43 ∧
    (out (exec .decEnd abc)).dec.status = 0x63 := by decide +kernel
/-- Program P1: ACCN 3, ACTIVE. -/
theorem test_rdreg : (out (exec (.rdreg 0x04) { abc with enc := { abc.enc with state := .active, accn := 3 } })).io.log =
    [.rsp 0x301] := by decide +kernel
/-- KV5. -/
theorem test_rdCtlen : (out (exec (.rdCtlen 0x42) abc)).io.log = [.rsp 2] := by decide +kernel
/-- KV5. -/
theorem test_rdCtword : (out (exec (.rdCtword 0x42 0) abc)).io.log = [.rsp 0x4000] ∧
    (out (exec (.rdCtword 0x42 1) abc)).io.log = [.rsp 0] := by decide +kernel
/-- KV3 and KV4: the three kinds of node. -/
theorem test_rdTree : (out (exec (.rdTree 0) single)).io.log = [.rsp 0x800003FF] ∧
    (out (exec (.rdTree 1) single)).io.log = [.rsp 0x40000041] ∧ (out (exec (.rdTree 5) single)).io.log = [.rsp 0] := by
  decide +kernel
/-- KV6. -/
theorem test_clrCmderr : (out (exec .clrCmderr { abc with cmd := { ill := true, badword := 0xF0000000 } })).cmd =
    { ill := false, badword := 0xF0000000 } := by decide +kernel
/-- KV7: an illegal word is recorded, over an earlier one. -/
theorem test_illegal_word : (out (acceptCommand 0xC0000003
    { abc with cmd := { ill := true, badword := 0xF0000000 } })).cmd = { ill := true, badword := 0xC0000003 } := by
  decide +kernel

/-! ### The machine -/

/-- A word placed with `withFetchWord` is the next command (the first word of set-up T_ABC). -/
theorem test_step_withFetchWord :
    (out (step (State.reset.withFetchWord 32 0x60040202))).node 0 = some (.internal 1 2) := by decide +kernel
/-- Two events on different streams: the host takes the second one (20_memory.md R64). -/
theorem test_transfer : (out (step (waiting [.accept .rsp]
    (abc.withEvents [.encByte 1, .rsp 2, .rsp 3])))).io.pending = [.encByte 1, .rsp 3] := by decide +kernel
/-- Reset discards what waits, keeps the log and clears the units (70_reset_and_hazards.md R231). -/
theorem test_reset : (let s := out (step (waiting [.reset] (abc.withEvents [.encByte 1])));
    s.io = { log := [.encByte 1], pending := [], input := [] } ∧ s.dec.n = 0 ∧ s.node 0 = some .empty ∧
    (s.ctEntry 0x41).len = 0) := by decide +kernel

/-! ### What meets the claims' hypotheses

One theorem for each claim that has any: a concrete state and operands, one for each clause. -/

/-- A tree of two leaves with the codes that match it: A is 0, B is 1. -/
def two : State :=
  { State.reset with
    enc := { Encoder.reset with ct := table [(0x41, entry 1 0 0), (0x42, entry 1 0x8000 0)] }
    dec := { Decoder.reset with n := 2, tree := tree [(0, .internal 1 2), (1, .leaf 0x41), (2, .leaf 0x42)] } }

theorem two_nodes : treeNode two.dec.tree 0 = some (.internal 1 2) ∧ treeNode two.dec.tree 1 = some (.leaf 0x41) ∧
    treeNode two.dec.tree 2 = some (.leaf 0x42) := by decide +kernel

/-- The three paths of a tree of two leaves. -/
theorem two_leaf_paths {t : Vector Node Config.T_NODES} (h0 : ∀ b, child t 0 b = some (if b then 2 else 1))
    (h1 : ∀ b, child t 1 b = none) (h2 : ∀ b, child t 2 b = none) :
    ∀ (p : List Bool) (i : NodeIndex), nodeAt t p = some i →
      (p = [] ∧ i = 0) ∨ (p = [false] ∧ i = 1) ∨ (p = [true] ∧ i = 2)
  | [], _, h => .inl ⟨rfl, (Option.some.inj h).symm⟩
  | [false], _, h => by
    simp only [nodeAt, followPath, Config.ROOT, h0, Option.bind_some] at h
    exact .inr (.inl ⟨rfl, (Option.some.inj h).symm⟩)
  | [true], _, h => by
    simp only [nodeAt, followPath, Config.ROOT, h0, Option.bind_some] at h
    exact .inr (.inr ⟨rfl, (Option.some.inj h).symm⟩)
  | false :: c :: q, _, h => by
    simp only [nodeAt, followPath, Config.ROOT, h0, Option.bind_some] at h
    simp only [Bool.false_eq_true, if_false, h1, Option.bind_none] at h
    cases h
  | true :: c :: q, _, h => by
    simp only [nodeAt, followPath, Config.ROOT, h0, Option.bind_some] at h
    simp only [if_true, h2, Option.bind_none] at h
    cases h

theorem two_paths {p : List Bool} {i : NodeIndex} (h : nodeAt two.dec.tree p = some i) :
    (p = [] ∧ i = 0) ∨ (p = [false] ∧ i = 1) ∨ (p = [true] ∧ i = 2) :=
  two_leaf_paths (by decide +kernel) (by decide +kernel) (by decide +kernel) p i h

/-- A job in the middle: one symbol of two delivered, at the root. -/
def mid : State := { two with dec := { two.dec with state := .active, emitted := 1, bits := 1 } }

theorem mid_inv : Inv mid where
  padZero := by intro k _; simp [mid, two, Encoder.reset]
  encRest := by decide +kernel
  encErr := by decide +kernel
  decErr := by decide +kernel
  encCode := by decide +kernel
  decCode := by decide +kernel
  encBits := by decide +kernel
  decValid := by decide +kernel
  decCount := by decide +kernel
  decCur := by decide +kernel
  decPath := fun _ => ⟨[], rfl⟩
  decDone := by intro h; cases h
  decIdle := by intro h; cases h

/-! #### Words -/

/-- `WordsThatMatchNoRow`: each clause at a word. -/
theorem witness_words : (0xFFFFFFFF : Word32).extractLsb' 28 4 = 0xF ∧
    ((0xDC000000 : Word32).extractLsb' 28 4 = 0xD ∧ (0xDC000000 : Word32).extractLsb' 26 2 = 3) ∧
    (0x60000141 : Word32) &&& zeroField 0x60000141 ≠ 0 := by
  decide

theorem witness_decodeOfEncode : (Instr.treeLeaf 510 0xFF).wellFormed = true ∧ (Instr.rdreg 0x21).wellFormed = true := by decide

theorem witness_encodeOfDecode : decode 0x6FF000FF = .ok (.treeLeaf 510 0xFF) := by decide

/-- The shortest and the longest code: a bit past the end of each in its last word, a bit past that word, and another symbol. -/
theorem witness_ctLoad : 1 ≤ [true].length ∧ [true].length ≤ 255 ∧ abc.enc.state ≠ .active ∧
    [true].length ≤ 1 ∧ 15 < 16 * (([true].length + 15) / 16) ∧ 16 * (([true].length + 15) / 16) ≤ 16 ∧
    1 ≤ (List.replicate 255 true).length ∧ (List.replicate 255 true).length ≤ 255 ∧
    255 < 16 * (((List.replicate 255 true).length + 15) / 16) ∧
    16 * (((List.replicate 240 true).length + 15) / 16) ≤ 240 ∧ (0x42 : Symbol) ≠ 0x41 := by decide +kernel

theorem witness_pseudo : abc.dec.state ≠ .active ∧ abc.enc.state ≠ .active := by decide +kernel

/-! #### The step -/

theorem witness_stepRuns : (waiting [.send 0x30000000, .reset] abc).io.input = [.send 0x30000000, .reset] ∧
    decode 0x30000000 = .ok .encStart := ⟨rfl, by decide⟩

theorem witness_illegalWord : (waiting [.send 0xF0000000] abc).io.input = [.send 0xF0000000] ∧
    decode 0xF0000000 = .error .reservedOp := ⟨rfl, by decide⟩

/-- CMD_ILL set, and the word that clears it. -/
theorem witness_flagCleared : (let s : State := { abc with cmd := { ill := true, badword := 1 } };
    s.cmd.ill = true ∧ (out (acceptCommand 0xE0000000 s)).cmd.ill = false) := by decide +kernel

theorem witness_idle : abc.io.input = [] := rfl

theorem witness_resetValues : (510 : NodeIndex) ≠ Config.NIL ∧ (0 : NodeIndex) ≠ Config.NIL ∧ (0x21 : BitVec 8) ∈ legalRegAddrs := by
  decide

theorem witness_reset : (waiting [.reset, .accept .rsp] mid).io.input = [.reset, .accept .rsp] := rfl

theorem witness_resetDuring : (waiting [.resetDuring 0x900000FA 3] mid).io.input = [.resetDuring 0x900000FA 3] := rfl

theorem witness_transfer : (waiting [.accept .rsp] abc).io.input = [.accept .rsp] ∧ OutStream.encOut ≠ .rsp := ⟨rfl, by decide⟩

/-- A log with one byte gone and two items waiting. -/
def flowing : State :=
  { abc with io := { log := [.encByte 1, .rsp 7, .encByte 2], pending := [.rsp 7, .encByte 2], input := [.accept .encOut] } }

theorem witness_streams : StreamsInOrder flowing ∧ ∃ t, step flowing = .next t := by
  refine ⟨fun o => ?_, out (step flowing), rfl⟩
  cases o
  · exact ⟨[.encByte 1], rfl⟩
  · exact ⟨[], rfl⟩
  · exact ⟨[], rfl⟩

/-! #### Encoder commands -/

theorem witness_ctWrites : (encIn .active abc).enc.state = .active ∧ abc.enc.state ≠ .active ∧ (0xFF : Symbol) ≠ 0 ∧
    255 / 16 ≠ (0 : BitVec 4).toNat ∧ 0 / 16 ≠ (15 : BitVec 4).toNat := by decide +kernel

/-- The clauses of ENC_SYM, the last with a full packer and with an empty one. -/
theorem witness_encSym : (encIn .error abc).enc.state = .error ∧ (encIn .done abc).enc.state = .done ∧
    ((encIn .active abc).enc.state = .active ∧ ((encIn .active abc).ctEntry 0x5A).len = 0) ∧
    ((encIn .active abc).ctEntry 0x41).len ≠ 0 ∧
    ({ (encIn .active abc).enc with count := 0xFFFFFFFF } : Encoder).count = 0xFFFFFFFF ∧ (encIn .active abc).enc.count ≠ 0xFFFFFFFF ∧
    (encIn .active abc).enc.accn = 0 := by decide +kernel

theorem witness_encSym_padZero : (encIn .active abc).enc.PadZero ∧
    ({ (encIn .active abc).enc with acc := 0xFE, accn := 7 } : Encoder).PadZero := by
  refine ⟨fun k _ => by simp [encIn, abc, Encoder.reset], fun k hk => ?_⟩
  by_cases h : k = 7
  · subst h; decide
  · have : ¬ k < 8 := by
      have : 7 ≤ k := hk
      omega
    simp [BitVec.getMsbD, this]

theorem witness_encFinish : (encIn .error abc).enc.state = .error ∧ (encIn .idle abc).enc.state = .idle ∧
    ((encIn .active abc).enc.state = .active ∧ (encIn .active abc).enc.count = 0) ∧
    ({ (encIn .active abc).enc with count := 1 } : Encoder).count ≠ 0 ∧ (encIn .active abc).enc.accn = 0 ∧
    ({ (encIn .active abc).enc with accn := 7 } : Encoder).accn ≠ 0 := by decide +kernel

/-- A job of two symbols with a decoder command and a read between them. -/
theorem witness_encoderJob : (let is : List Instr := [.encSym 0x41, .decStart, .rdreg 0x04, .encSym 0x42];
    (∀ i ∈ is, breaksEncJob i = false) ∧ encodedSymbols is = [0x41, 0x42] ∧ (encodedSymbols is).length < 2 ^ 32 ∧
    ∀ x ∈ encodedSymbols is, (abc.ctEntry x).len ≠ 0) := by decide +kernel

/-! #### Decoder commands -/

theorem witness_decWrites : (510 : NodeIndex) ≠ Config.NIL ∧ (0 : NodeIndex) ≠ 510 ∧ (decIn .active abc).dec.state = .active ∧
    abc.dec.state ≠ .active := by decide +kernel

theorem witness_decStart : State.reset.dec.n = 0 ∧ abc.dec.n ≠ 0 ∧ validTree abc.dec.tree = true ∧
    validTree Decoder.reset.tree = false ∧ validTree single.dec.tree = true := by decide +kernel

/-- The clauses of DEC_BITCHAR: a leaf, an internal node, NIL, an EMPTY node, and a node that is not INTERNAL. -/
theorem witness_decBitchar : (decIn .error abc).dec.state = .error ∧ abc.dec.state = .idle ∧
    ((decIn .done abc).dec.state = .done ∧ (0x2F : Byte) ≠ 0x30 ∧ (0x32 : Byte) ≠ 0x31) ∧ (decIn .active abc).dec.state = .active ∧
    (0x31 : Byte) = bitChar true ∧ (0x30 : Byte) = bitChar false ∧
    (child abc.dec.tree abc.dec.cur true = some 2 ∧ abc.node 2 = some (.leaf 0x41)) ∧
    (child abc.dec.tree abc.dec.cur false = some 1 ∧ abc.node 1 = some (.internal 3 4)) ∧
    child single.dec.tree single.dec.cur true = some Config.NIL ∧ child State.reset.dec.tree 0 false = none ∧
    (child (tree [(0, .internal 1 2)]) 0 false = some 1 ∧ treeNode (tree [(0, .internal 1 2)]) 1 = some .empty) := by
  decide +kernel

theorem witness_decByte : (decIn .error abc).dec.state = .error ∧ (decIn .idle abc).dec.state = .idle ∧
    (decIn .done abc).dec.state = .done ∧ (decIn .active abc).dec.state = .active := by decide +kernel

theorem witness_decEnd : (decIn .error abc).dec.state = .error ∧ (decIn .done abc).dec.state = .done ∧
    (decIn .idle abc).dec.state = .idle ∧ (decIn .active abc).dec.state = .active := by decide +kernel

theorem witness_singleSymbolForm : treeNode single.dec.tree 0 = some (.internal 1 Config.NIL) ∧
    treeNode single.dec.tree 1 = some (.leaf 0x41) ∧
    ((decIn .active single).node 0 = some (.internal 1 Config.NIL) ∧ (decIn .active single).dec.state = .active ∧
      (decIn .active single).dec.cur = 0) ∧
    treeNode (tree [(0, .internal Config.NIL 1)]) 0 = some (.internal Config.NIL 1) ∧
    isInternal (tree [(0, .leaf 0x41)]) 0 = false ∧
    (treeNode abc.dec.tree 0 = some (.internal 1 2) ∧ (2 : NodeIndex) ≠ Config.NIL ∧ validTree abc.dec.tree = true) := by
  decide +kernel

theorem witness_fullTree : FullTree two.dec.tree ∧ nodeAt two.dec.tree [true] = some 2 := by
  obtain ⟨h0, h1, h2⟩ := two_nodes
  refine ⟨⟨by decide +kernel, fun p i h => ?_, fun p q i hp hq => ?_⟩, by decide +kernel⟩
  · rcases two_paths h with ⟨_, rfl⟩ | ⟨_, rfl⟩ | ⟨_, rfl⟩
    · exact ⟨by decide, by rw [h0]; simp⟩
    · exact ⟨by decide, by rw [h1]; simp⟩
    · exact ⟨by decide, by rw [h2]; simp⟩
  · rcases two_paths hp with ⟨rfl, rfl⟩ | ⟨rfl, rfl⟩ | ⟨rfl, rfl⟩ <;>
      rcases two_paths hq with ⟨rfl, h⟩ | ⟨rfl, h⟩ | ⟨rfl, h⟩ <;> first | rfl | exact absurd h (by decide)

/-- `DecodingUndoesEncoding`: the two-leaf tree with its codes, and a sequence of both symbols. -/
theorem witness_roundTrip : validTree two.dec.tree = true ∧ two.dec.state ≠ .active ∧
    (∀ p y, LeafAt two.dec.tree p y → (two.ctEntry y).codeBits = p) ∧ ([0x41, 0x42, 0x41] : List Symbol) ≠ [] ∧
    ([0x41, 0x42, 0x41] : List Symbol).length < 2 ^ 32 ∧
    ∀ x ∈ ([0x41, 0x42, 0x41] : List Symbol), ∃ p, LeafAt two.dec.tree p x := by
  obtain ⟨h0, h1, h2⟩ := two_nodes
  have hA : LeafAt two.dec.tree [false] 0x41 := ⟨1, by decide +kernel, h1⟩
  have hB : LeafAt two.dec.tree [true] 0x42 := ⟨2, by decide +kernel, h2⟩
  refine ⟨by decide +kernel, by decide +kernel, fun p y ⟨i, hp, hy⟩ => ?_, by decide, by decide, fun x hx => ?_⟩
  · rcases two_paths hp with ⟨rfl, rfl⟩ | ⟨rfl, rfl⟩ | ⟨rfl, rfl⟩
    · rw [h0] at hy; cases hy
    · rw [h1] at hy; cases hy; decide +kernel
    · rw [h2] at hy; cases hy; decide +kernel
  · simp only [List.mem_cons, List.not_mem_nil, or_false] at hx
    rcases hx with rfl | rfl | rfl
    · exact ⟨_, hA⟩
    · exact ⟨_, hB⟩
    · exact ⟨_, hA⟩

theorem witness_walk : Inv mid ∧ mid.dec.state = .active ∧ (∃ t, exec (.decByte 0x80) mid = .next t) ∧
    ∃ t, exec (.decBitchar 0x31) mid = .next t :=
  ⟨mid_inv, rfl, ⟨_, rfl⟩, ⟨_, rfl⟩⟩

/-! #### Control, and rules about the whole machine -/

theorem witness_rdreg_unlisted : (0x22 : BitVec 8) ∉ legalRegAddrs := by decide

theorem witness_treeReadback : (510 : NodeIndex) ≠ Config.NIL ∧ State.reset.node 510 = some .empty ∧
    single.node 1 = some (.leaf 0x41) ∧ single.node 0 = some (.internal 1 511) := by decide +kernel

theorem witness_illegalOperands : (Instr.treeInt 511 0 0).wellFormed = false ∧ (Instr.rdreg 0x22).wellFormed = false := by decide

theorem witness_reads : isRead (.rdTree 510) = true ∧ (Instr.rdTree 510).wellFormed = true ∧ abc.enc.state ≠ .active ∧
    (Instr.treeLeaf 0 0x41).wellFormed = true ∧ abc.dec.state ≠ .active := by decide +kernel

/-- `OnlyTheListedCommandsWrite`: a command that changes the element, for each clause. -/
theorem witness_writes : (∃ t, acceptCommand 0x14100005 abc = .next t) ∧
    ((out (acceptCommand 0x14100005 abc)).ctEntry 0x41).len ≠ (abc.ctEntry 0x41).len ∧
    ((out (acceptCommand 0x2410FFFF abc)).ctEntry 0x41).code ≠ (abc.ctEntry 0x41).code ∧
    (out (acceptCommand 0x14100005 (encIn .active abc))).enc.state ≠ .active ∧
    (out (acceptCommand 0x40000041 (encIn .active abc))).enc.accn ≠ 0 ∧
    (out (acceptCommand 0x6FF000FF abc)).node 510 ≠ abc.node 510 ∧ (out (acceptCommand 0x70010001 abc)).dec.n ≠ abc.dec.n ∧
    (out (acceptCommand 0x80000000 abc)).dec.state ≠ abc.dec.state ∧ (out (acceptCommand 0x90000080 mid)).dec.bits ≠ mid.dec.bits ∧
    (out (acceptCommand 0xF0000000 abc)).cmd.ill ≠ abc.cmd.ill ∧ (out (acceptCommand 0xF0000000 abc)).cmd.badword ≠ abc.cmd.badword := by
  refine ⟨⟨_, rfl⟩, ?_⟩
  decide +kernel

theorem witness_firstError : (encIn .error abc).enc.state = .error ∧ Instr.encSym 0x41 ≠ .encStart ∧
    (∃ t, exec (.encSym 0x41) (encIn .error abc) = .next t) ∧ (decIn .error abc).dec.state = .error ∧
    Instr.decByte 0 ≠ .decStart ∧ ∃ t, exec (.decByte 0) (decIn .error abc) = .next t :=
  ⟨rfl, by decide, ⟨_, rfl⟩, rfl, by decide, ⟨_, rfl⟩⟩

/-- `OneCommandTouchesOneEngine` and `CommandsOnlyAppendEvents`. -/
theorem witness_exec : ∃ t, exec (.encSym 0x41) (encIn .active abc) = .next t := ⟨_, rfl⟩

theorem witness_invariantStep : Inv mid ∧ ∃ t, step mid = .next t := ⟨mid_inv, _, rfl⟩

theorem witness_bitsBounded : Inv mid ∧ BitsBounded mid ∧ ∃ t, step mid = .next t :=
  ⟨mid_inv, ⟨fun _ => ⟨[], rfl, by decide +kernel⟩, by decide +kernel⟩, _, rfl⟩

theorem witness_countWrite : (decIn .done { abc with dec := { abc.dec with emitted := 8 } }).dec.state = .done ∧
    (decIn .done { abc with dec := { abc.dec with emitted := 8 } }).dec.emitted = 8 ∧ abc.dec.n = 8 := by decide +kernel

/-- A finished job: both symbols delivered. -/
def finished : State := { two with dec := { two.dec with state := .done, emitted := 2, bits := 2 } }

theorem finished_inv : Inv finished where
  padZero := by intro k _; simp [finished, two, Encoder.reset]
  encRest := by decide +kernel
  encErr := by decide +kernel
  decErr := by decide +kernel
  encCode := by decide +kernel
  decCode := by decide +kernel
  encBits := by decide +kernel
  decValid := by intro h; cases h
  decCount := by intro h; cases h
  decCur := by intro h; cases h
  decPath := by intro h; cases h
  decDone := by decide +kernel
  decIdle := by intro h; cases h

/-- `DoneHasTheTargetUntilRewritten`: the last bit of a job, and a NOP after it. -/
theorem witness_done : Inv mid ∧ mid.dec.state ≠ .done ∧ (out (acceptCommand 0xA0000031 mid)).dec.state = .done ∧
    Inv finished ∧ (out (acceptCommand 0 finished)).dec.state = .done ∧ finished.dec.emitted = finished.dec.n ∧
    decode 0 = .ok .nop :=
  ⟨mid_inv, by decide +kernel, by decide +kernel, finished_inv, by decide +kernel, by decide +kernel, by decide +kernel⟩

/-- `OpenJobCountsItsBits`: two symbols with a read between them. -/
theorem witness_openJob : Instr.encStart ∉ ([.encSym 0x41, .rdreg 0x04, .encSym 0x42] : List Instr) ∧
    (out (runCommands [.encStart, .encSym 0x41, .rdreg 0x04, .encSym 0x42] abc)).enc.state = .active := by decide +kernel

/-- `JobEndsAtTheTargetItStartedWith`: a job of two symbols, open, and done with DEC_N written again. -/
theorem witness_jobTarget : Instr.decStart ∉ ([.decBitchar 0x30, .decBitchar 0x31, .decSetn 0 5] : List Instr) ∧
    (out (runCommands [.decStart, .decBitchar 0x30] two)).dec.state = .active ∧
    (out (runCommands [.decStart, .decBitchar 0x30, .decBitchar 0x31, .decSetn 0 5] two)).dec.state = .done := by decide +kernel

theorem witness_tablesFixed : (encIn .active abc).enc.state = .active ∧ mid.dec.state = .active := by decide +kernel

end Sys2Proof.Tests
end

namespace Sys2Proof.Machine

/-! ## What a command appends to the log (00_scope.md R12) -/

/-- From `s` to `t` the ports change by the command's own events only: as many, and of the kind, that `i` may produce. -/
def AppendsEvents (i : Instr) (s t : State) : Prop :=
  ∃ es : List Event, t.io = (s.withEvents es).io ∧ es.length ≤ maxEvents i ∧ ∀ e ∈ es, e.From i

/-- A command that leaves the ports alone appends nothing. -/
theorem AppendsEvents.of_io_eq {i : Instr} {s t : State} (h : t.io = s.io) : AppendsEvents i s t :=
  ⟨[], by rw [h, State.withEvents_nil], Nat.zero_le _, by simp⟩

/-- A read may append the one response it gives (43_control.md R181-R184). -/
theorem maxEvents_of_isRead {i : Instr} (h : isRead i = true) : maxEvents i = 1 := by
  cases i with
  | rdreg | rdCtlen | rdCtword | rdTree => rfl
  | _ => simp [isRead] at h

/-- The code of at most 255 bits and at most 7 pending ones hold no more than 32 whole bytes (41_encoder.md R117). -/
theorem appendCode_appendsEvents (s : State) (y : Symbol) :
    AppendsEvents (.encSym y) s (s.appendCode (s.ctEntry y)) := by
  obtain ⟨acc, accn, es, hfold, hbytes, hcount⟩ := foldl_packBit_frame (s.ctEntry y).codeBits s
  rw [CtEntry.codeBits_length] at hcount
  have hpending := s.enc.accn_le
  have hlen := (s.ctEntry y).len.isLt
  have hmax : es.length ≤ 32 := by omega
  refine ⟨es, by rw [State.appendCode, hfold]; rfl, hmax, fun e he => ?_⟩
  obtain ⟨v, rfl⟩ := hbytes e he
  exact .inl ⟨y, rfl⟩

/-- ENC_FINISH emits the last byte when bits are pending (41_encoder.md R118). -/
theorem flushPacker_appendsEvents (s : State) : AppendsEvents .encFinish s s.flushPacker.encDone := by
  by_cases h : s.enc.accn = 0
  · exact .of_io_eq (by rw [State.flushPacker_empty h, State.encDone_io])
  · exact ⟨[.encByte s.enc.acc], by rw [State.flushPacker_pending h]; rfl, Nat.le_refl 1, by simp [Event.From]⟩

/-- A byte walks eight bits, of which each delivers one symbol at most (42_decoder.md R148, R149). -/
theorem foldl_walk_appendsEvents (s : State) (v : Byte) :
    AppendsEvents (.decByte v) s ((byteBits v).foldl walkWhileActive s) := by
  obtain ⟨d, es, hfold, -, -, -, hsyms, hcount⟩ := foldl_walk_frame (byteBits v) s
  refine ⟨es, by rw [hfold]; rfl, hcount, fun e he => ?_⟩
  obtain ⟨y, rfl⟩ := hsyms e he
  exact .inl ⟨v, rfl⟩

/-- A textual bit delivers one symbol at most (42_decoder.md R148, R150). -/
theorem walkBit_appendsEvents (s : State) (b : Bool) : AppendsEvents (.decBitchar (bitChar b)) s (walkBit s b) := by
  obtain ⟨d, es, hwalk, -, -, -, hsyms, hcount⟩ := walkBit_frame s b
  refine ⟨es, by rw [hwalk]; rfl, hcount, fun e he => ?_⟩
  obtain ⟨y, rfl⟩ := hsyms e he
  exact .inr ⟨_, rfl⟩

/-- Five kinds of effect emit events; all others leave the ports alone. -/
theorem Effect.appendsEvents {i : Instr} {s t : State} (h : Effect i s t) : AppendsEvents i s t := by
  cases h with
  | encSym y hi => subst hi; exact appendCode_appendsEvents s y
  | encFinish hi => subst hi; exact flushPacker_appendsEvents s
  | decByte v hi => subst hi; exact foldl_walk_appendsEvents s v
  | decBit b hi => subst hi; exact walkBit_appendsEvents s b
  | read w hi => exact ⟨[.rsp w], rfl, (maxEvents_of_isRead hi).ge, by simpa [Event.From] using hi⟩
  | _ => exact .of_io_eq rfl

/-- Settles O48: every effect of a command appends the command's own events and touches nothing else at the ports. -/
theorem commandsOnlyAppendEvents : Obligations.CommandsOnlyAppendEvents := by
  unfold Obligations.CommandsOnlyAppendEvents
  intro i s t h
  exact (effect_of_exec h).appendsEvents

/-! ## What a word, a move of the host and a step do -/

theorem acceptCommand_of_ok {x : Word32} {i : Instr} (h : decode x = .ok i) (s : State) :
    acceptCommand x s = exec i s := by
  simp only [acceptCommand, h]

theorem acceptCommand_of_error {x : Word32} {e : Illegal} (h : decode x = .error e) (s : State) :
    acceptCommand x s = .next (s.illegalCommand x) := by
  simp only [acceptCommand, h]

theorem step_idle {s : State} (h : s.io.input = []) : step s = .next s := by
  simp only [step, h]

theorem step_move {s : State} {m : HostMove} {ms : List HostMove} (h : s.io.input = m :: ms) :
    step s = takeMove m (s.withInput ms) := by
  simp only [step, h]

/-- Every word is accepted, and what it does at the ports is to append events (00_scope.md R12, R13). -/
theorem acceptCommand_next (x : Word32) (s : State) :
    ∃ t es, acceptCommand x s = .next t ∧ t.io = (s.withEvents es).io := by
  cases h : decode x with
  | error e => exact ⟨_, [], acceptCommand_of_error h s, by rw [State.withEvents_nil, State.illegalCommand_io]⟩
  | ok i =>
    obtain ⟨t, hexec, heffect⟩ := exec_effect i s
    obtain ⟨es, hio, -, -⟩ := heffect.appendsEvents
    exact ⟨t, es, by rw [acceptCommand_of_ok h, hexec], hio⟩

/-- A command that reset cuts short leaves some of its events in the log of a block that is reset (70_reset_and_hazards.md R231). -/
theorem cutShort_next (x : Word32) (k : Nat) (s : State) :
    ∃ es, cutShort x k s = .next (s.hardReset.withLogged es) := by
  obtain ⟨t, -, h, -⟩ := acceptCommand_next x s
  exact ⟨_, by simp only [cutShort, h]; rfl⟩

/-- Everything one move of the host can do to the log and the waiting items: a command appends events to both, a transfer takes the
oldest item of a stream, and a reset, between commands or during one, empties the waiting items. -/
theorem takeMove_next (m : HostMove) (s : State) : ∃ t, takeMove m s = .next t ∧
    ((∃ es, t.io = (s.withEvents es).io) ∨ (∃ o, t = s.transfer o) ∨ t.io.pending = []) := by
  cases m with
  | send x =>
    obtain ⟨t, es, h, hio⟩ := acceptCommand_next x s
    exact ⟨t, h, .inl ⟨es, hio⟩⟩
  | accept o => exact ⟨_, rfl, .inr (.inl ⟨o, rfl⟩)⟩
  | reset => exact ⟨_, rfl, .inr (.inr rfl)⟩
  | resetDuring x k =>
    obtain ⟨es, h⟩ := cutShort_next x k s
    exact ⟨_, h, .inr (.inr rfl)⟩

/-- Settles O8: the step takes the word off the host's moves, and decoding it selects the command or the effect of R201. -/
theorem stepRunsTheDecodedCommand : Obligations.StepRunsTheDecodedCommand := by
  unfold Obligations.StepRunsTheDecodedCommand
  constructor
  · intro s x ms i hmove hdecode
    rw [step_move hmove, takeMove, acceptCommand_of_ok hdecode]
    rfl
  · intro s x ms e hmove hdecode
    rw [step_move hmove, takeMove, acceptCommand_of_error hdecode]
    rfl

/-- Settles O10: an idle step, every move of the host and every command answer a next state. -/
theorem everyStepAnswersNext : Obligations.EveryStepAnswersNext := by
  unfold Obligations.EveryStepAnswersNext
  constructor
  · intro s
    cases hinput : s.io.input with
    | nil => exact ⟨s, step_idle hinput⟩
    | cons m ms =>
      obtain ⟨t, h, -⟩ := takeMove_next m (s.withInput ms)
      exact ⟨t, by rw [step_move hinput, h]⟩
  · intro i s
    obtain ⟨t, h, -⟩ := exec_effect i s
    exact ⟨t, h⟩

/-! ## The order of the items on each stream (20_memory.md R64) -/

theorem onStream_append (o : OutStream) (es fs : List Event) : onStream o (es ++ fs) = onStream o es ++ onStream o fs :=
  List.filter_append es fs

/-- A transfer takes the oldest item of its stream. -/
theorem onStream_eraseP_self (o : OutStream) (es : List Event) :
    onStream o (es.eraseP fun e => e.stream = o) = (onStream o es).tail := by
  induction es with
  | nil => rfl
  | cons e es ih =>
    by_cases h : e.stream = o
    · simp [onStream, h]
    · simpa [onStream, h] using ih

/-- A transfer on one stream takes no item of another. -/
theorem onStream_eraseP_ne {o o' : OutStream} (hne : o' ≠ o) (es : List Event) :
    onStream o' (es.eraseP fun e => e.stream = o) = onStream o' es := by
  induction es with
  | nil => rfl
  | cons e es ih =>
    by_cases h : e.stream = o
    · simp [onStream, h, hne.symm]
    · rw [List.eraseP_cons_of_neg (by simpa using h)]
      simp only [onStream, List.filter_cons] at ih ⊢
      rw [ih]

/-- The order speaks of the log and the waiting items only. -/
theorem StreamsInOrder.withInput {s : State} (h : StreamsInOrder s) (ms : List HostMove) :
    StreamsInOrder (s.withInput ms) := h

/-- Events that enter the log and the waiting items together keep the order. -/
theorem StreamsInOrder.of_appended {s t : State} {es : List Event} (h : StreamsInOrder s)
    (hio : t.io = (s.withEvents es).io) : StreamsInOrder t := by
  intro o
  simp only [hio, State.withEvents_io_pending, State.withEvents_io_log, onStream_append]
  exact (List.suffix_append_self_iff).mpr (h o)

/-- A transfer takes an item from the front of its stream, so the rest are still the latest ones. -/
theorem StreamsInOrder.transfer {s : State} (h : StreamsInOrder s) (o : OutStream) : StreamsInOrder (s.transfer o) := by
  intro o'
  simp only [State.transfer_io_pending, State.transfer_io_log]
  by_cases hne : o' = o
  · subst hne
    rw [onStream_eraseP_self]
    exact (List.tail_suffix _).trans (h o')
  · rw [onStream_eraseP_ne hne]
    exact h o'

/-- With nothing waiting the streams are in order, whatever the log holds: the case of every reset. -/
theorem StreamsInOrder.of_nothing_pending {s : State} (h : s.io.pending = []) : StreamsInOrder s := by
  intro o
  rw [h]
  exact List.nil_suffix

/-- Settles O17: an idle step changes nothing, and each of the three things a move of the host can do keeps the order. -/
theorem everyStepKeepsStreamsInOrder : Obligations.EveryStepKeepsStreamsInOrder := by
  unfold Obligations.EveryStepKeepsStreamsInOrder
  intro s t horder hstep
  cases hinput : s.io.input with
  | nil =>
    rw [step_idle hinput] at hstep
    cases hstep
    exact horder
  | cons m ms =>
    obtain ⟨u, hmove, hports⟩ := takeMove_next m (s.withInput ms)
    rw [step_move hinput, hmove] at hstep
    cases hstep
    have horder' := horder.withInput ms
    rcases hports with ⟨es, hio⟩ | ⟨o, rfl⟩ | hempty
    · exact horder'.of_appended hio
    · exact horder'.transfer o
    · exact .of_nothing_pending hempty

/-- Settles O18: nothing waits at reset. -/
theorem streamsInOrderAtReset : Obligations.StreamsInOrderAtReset := by
  unfold Obligations.StreamsInOrderAtReset
  exact .of_nothing_pending rfl

end Sys2Proof.Machine

namespace Sys2Proof.Machine

/-! ## What packing and walking bits leave alone, field by field -/

section
variable (s : State)

/-- ENC_SYM in a job touches the packer and the counters only (41_encoder.md R117). -/
theorem State.appendCode_frame (e : CtEntry) :
    ∃ acc accn es, s.appendCode e = ((s.setPacker acc accn).countSymbol e.len).withEvents es := by
  obtain ⟨acc, accn, es, h, -, -⟩ := foldl_packBit_frame e.codeBits s
  exact ⟨acc, accn, es, by rw [State.appendCode, h]; rfl⟩

@[simp] theorem State.appendCode_enc_ct (e : CtEntry) : (s.appendCode e).enc.ct = s.enc.ct := by
  obtain ⟨_, _, _, h⟩ := s.appendCode_frame e
  simp [h]

@[simp] theorem State.appendCode_enc_count (e : CtEntry) : (s.appendCode e).enc.count = s.enc.count + 1 := by
  obtain ⟨_, _, _, h⟩ := s.appendCode_frame e
  simp [h]

@[simp] theorem State.appendCode_enc_bits (e : CtEntry) :
    (s.appendCode e).enc.bits = s.enc.bits + e.len.setWidth 64 := by
  obtain ⟨_, _, _, h⟩ := s.appendCode_frame e
  simp [h]

@[simp] theorem State.appendCode_dec (e : CtEntry) : (s.appendCode e).dec = s.dec := by
  obtain ⟨_, _, _, h⟩ := s.appendCode_frame e
  simp [h]

@[simp] theorem State.appendCode_cmd (e : CtEntry) : (s.appendCode e).cmd = s.cmd := by
  obtain ⟨_, _, _, h⟩ := s.appendCode_frame e
  simp [h]

/-- ENC_FINISH touches the packer only (41_encoder.md R118). -/
theorem State.flushPacker_frame : ∃ acc accn es, s.flushPacker = (s.setPacker acc accn).withEvents es := by
  by_cases h : s.enc.accn = 0
  · exact ⟨s.enc.acc, s.enc.accn, [], by rw [State.flushPacker_empty h, State.withEvents_nil]; rfl⟩
  · exact ⟨0, 0, _, State.flushPacker_pending h⟩

@[simp] theorem State.flushPacker_enc_ct : s.flushPacker.enc.ct = s.enc.ct := by
  obtain ⟨_, _, _, h⟩ := s.flushPacker_frame
  simp [h]

@[simp] theorem State.flushPacker_enc_err : s.flushPacker.enc.err = s.enc.err := by
  obtain ⟨_, _, _, h⟩ := s.flushPacker_frame
  simp [h]

@[simp] theorem State.flushPacker_enc_count : s.flushPacker.enc.count = s.enc.count := by
  obtain ⟨_, _, _, h⟩ := s.flushPacker_frame
  simp [h]

@[simp] theorem State.flushPacker_enc_bits : s.flushPacker.enc.bits = s.enc.bits := by
  obtain ⟨_, _, _, h⟩ := s.flushPacker_frame
  simp [h]

@[simp] theorem State.flushPacker_dec : s.flushPacker.dec = s.dec := by
  obtain ⟨_, _, _, h⟩ := s.flushPacker_frame
  simp [h]

@[simp] theorem State.flushPacker_cmd : s.flushPacker.cmd = s.cmd := by
  obtain ⟨_, _, _, h⟩ := s.flushPacker_frame
  simp [h]

/-! A walked bit, and the bits of a byte, leave the other units, the tree and DEC_N (42_decoder.md R148, R149). -/

@[simp] theorem walkBit_enc (b : Bool) : (walkBit s b).enc = s.enc := by
  obtain ⟨_, _, h, -⟩ := walkBit_frame s b
  simp [h]

@[simp] theorem walkBit_cmd (b : Bool) : (walkBit s b).cmd = s.cmd := by
  obtain ⟨_, _, h, -⟩ := walkBit_frame s b
  simp [h]

@[simp] theorem walkBit_dec_tree (b : Bool) : (walkBit s b).dec.tree = s.dec.tree := by
  obtain ⟨_, _, h, htree, -⟩ := walkBit_frame s b
  simp [h, htree]

@[simp] theorem walkBit_dec_n (b : Bool) : (walkBit s b).dec.n = s.dec.n := by
  obtain ⟨_, _, h, -, hn, -⟩ := walkBit_frame s b
  simp [h, hn]

@[simp] theorem foldl_walk_enc (bs : List Bool) : (bs.foldl walkWhileActive s).enc = s.enc := by
  obtain ⟨_, _, h, -⟩ := foldl_walk_frame bs s
  simp [h]

@[simp] theorem foldl_walk_cmd (bs : List Bool) : (bs.foldl walkWhileActive s).cmd = s.cmd := by
  obtain ⟨_, _, h, -⟩ := foldl_walk_frame bs s
  simp [h]

@[simp] theorem foldl_walk_dec_tree (bs : List Bool) : (bs.foldl walkWhileActive s).dec.tree = s.dec.tree := by
  obtain ⟨_, _, h, htree, -⟩ := foldl_walk_frame bs s
  simp [h, htree]

@[simp] theorem foldl_walk_dec_n (bs : List Bool) : (bs.foldl walkWhileActive s).dec.n = s.dec.n := by
  obtain ⟨_, _, h, -, hn, -⟩ := foldl_walk_frame bs s
  simp [h, hn]

end

section
variable {s : State} {y : Symbol}

/-- The symbol that reaches the target ends the job (42_decoder.md R148). -/
theorem State.deliver_last (h : s.dec.emitted + 1 = s.dec.n) : (s.countBit.deliver y).dec =
    { s.dec with bits := s.dec.bits + 1, emitted := s.dec.emitted + 1, cur := 0, state := .done } := by
  rw [State.countBit_deliver_eq, if_pos h]
  rfl

/-- A symbol before the target leaves the job open (42_decoder.md R148). -/
theorem State.deliver_more (hactive : s.dec.state = .active) (h : s.dec.emitted + 1 ≠ s.dec.n) :
    (s.countBit.deliver y).dec =
      { s.dec with bits := s.dec.bits + 1, emitted := s.dec.emitted + 1, cur := 0, state := .active } := by
  rw [State.countBit_deliver_eq, if_neg h, hactive]
  rfl

end

/-- What every bit walked in an ACTIVE job keeps, the bits of a byte keep (42_decoder.md R149). -/
theorem foldl_walk_keeps {P : State → Prop} (hbit : ∀ s b, s.dec.state = .active → P s → P (walkBit s b)) (bs : List Bool)
    {s : State} (h : P s) : P (bs.foldl walkWhileActive s) := by
  induction bs generalizing s with
  | nil => exact h
  | cons b bs ih =>
    rw [List.foldl_cons, walkWhileActive]
    split
    · next hactive => exact ih (hbit s b hactive h)
    · exact ih h

/-! ## What every step keeps: one induction for the predicates about the two engines -/

/-- A predicate about the two engines only: it does not see the command unit or the ports. -/
def OfEngines (P : State → Prop) : Prop := ∀ {s t : State}, P s → t.enc = s.enc → t.dec = s.dec → P t

/-- A predicate about the engines that holds at reset and that every command keeps is kept by every step: the block idle, an
illegal word, a transfer and the two ways of a reset touch no engine or reset both. -/
theorem step_keeps {P : State → Prop} (hengines : OfEngines P) (hreset : P State.reset)
    (heffect : ∀ {i s t}, P s → Effect i s t → P t) {s t : State} (hs : P s) (hstep : step s = .next t) : P t := by
  cases hinput : s.io.input with
  | nil =>
    rw [step_idle hinput] at hstep
    cases hstep
    exact hs
  | cons m ms =>
    rw [step_move hinput] at hstep
    have hs' : P (s.withInput ms) := hengines hs rfl rfl
    cases m with
    | send x =>
      rw [takeMove] at hstep
      cases hdecode : decode x with
      | ok i =>
        rw [acceptCommand_of_ok hdecode] at hstep
        exact heffect hs' (effect_of_exec hstep)
      | error e =>
        rw [acceptCommand_of_error hdecode] at hstep
        cases hstep
        exact hengines hs' rfl rfl
    | accept o =>
      cases hstep
      exact hengines hs' rfl rfl
    | reset =>
      cases hstep
      exact hengines hreset rfl rfl
    | resetDuring x k =>
      obtain ⟨es, hcut⟩ := cutShort_next x k (s.withInput ms)
      rw [takeMove, hcut] at hstep
      cases hstep
      exact hengines hreset rfl rfl

/-! ## The invariants of the encoder (10_state.md R49 items 1 to 3, R29; 60_exceptions.md R204) -/

/-- The part of `Inv` that speaks of the encoder. -/
structure EncInv (e : Encoder) : Prop where
  padZero : e.PadZero
  rest : e.state = .idle ∨ e.state = .done → e.accn = 0 ∧ e.acc = 0
  err : e.err = 0 ↔ e.state ≠ .error
  code : e.err.toNat ≤ 8
  bits : e.bits.toNat ≤ 255 * e.count.toNat

theorem Encoder.padZero_of_acc_eq_zero {e : Encoder} (h : e.acc = 0) : e.PadZero := by
  intro k _
  simp [h]

/-- With no bit pending the accumulator is 0 (10_state.md R27). -/
theorem Encoder.PadZero.acc_eq_zero {e : Encoder} (h : e.PadZero) (hn : e.accn = 0) : e.acc = 0 :=
  byte_ext fun k _ => by simp [h k (by simp [hn])]

theorem EncInv.reset : EncInv Encoder.reset where
  padZero := Encoder.padZero_of_acc_eq_zero rfl
  rest := fun _ => ⟨rfl, rfl⟩
  err := by decide
  code := by decide
  bits := by decide

section
variable {s : State} (h : EncInv s.enc)

theorem EncInv.openEncJob (s : State) : EncInv s.openEncJob.enc where
  padZero := Encoder.padZero_of_acc_eq_zero rfl
  rest := fun _ => ⟨rfl, rfl⟩
  err := by simp
  code := by simp
  bits := by simp

include h

theorem EncInv.setCtEntry (y : Symbol) (e : CtEntry) : EncInv (s.setCtEntry y e).enc where
  padZero := h.padZero
  rest := h.rest
  err := h.err
  code := h.code
  bits := h.bits

theorem EncInv.encFails {c : BitVec 4} (hc : c ≠ 0) (hle : c.toNat ≤ 8) : EncInv (s.encFails c).enc where
  padZero := h.padZero
  rest := by simp
  err := iff_of_false hc (by simp)
  code := hle
  bits := h.bits

/-- One more symbol has 255 bits at most, and is counted only while ENC_COUNT does not wrap (10_state.md R29; 41_encoder.md R117). -/
theorem EncInv.bits_appendCode (hcount : s.enc.count ≠ 0xFFFFFFFF) (e : CtEntry) :
    (s.enc.bits + e.len.setWidth 64).toNat ≤ 255 * (s.enc.count + 1).toNat := by
  have hbits := h.bits
  have hlen := e.len.isLt
  have hsucc : (s.enc.count + 1).toNat = s.enc.count.toNat + 1 := by bv_omega
  have hlt := s.enc.count.isLt
  rw [hsucc, BitVec.toNat_add, BitVec.toNat_setWidth]
  omega

theorem EncInv.appendCode (hactive : s.enc.state = .active) (hcount : s.enc.count ≠ 0xFFFFFFFF) (e : CtEntry) :
    EncInv (s.appendCode e).enc := by
  obtain ⟨acc, accn, hfold, -, hpad⟩ := foldl_packBit e.codeBits s h.padZero
  rw [State.appendCode, hfold]
  exact {
    padZero := hpad
    rest := by simp [hactive]
    err := h.err
    code := h.code
    bits := h.bits_appendCode hcount e }

/-- A flushed packer is empty (41_encoder.md R118). -/
theorem EncInv.flushPacker_rest : s.flushPacker.enc.accn = 0 ∧ s.flushPacker.enc.acc = 0 := by
  by_cases hn : s.enc.accn = 0
  · rw [State.flushPacker_empty hn]
    exact ⟨hn, h.padZero.acc_eq_zero hn⟩
  · rw [State.flushPacker_pending hn]
    exact ⟨rfl, rfl⟩

theorem EncInv.flushPacker_encDone (hactive : s.enc.state = .active) : EncInv s.flushPacker.encDone.enc where
  padZero := Encoder.padZero_of_acc_eq_zero h.flushPacker_rest.2
  rest := fun _ => h.flushPacker_rest
  err := by simpa [hactive] using h.err
  code := by simpa using h.code
  bits := by simpa using h.bits

theorem Effect.encInv {i : Instr} {t : State} (heffect : Effect i s t) : EncInv t.enc := by
  cases heffect with
  | ctLen | ctWord => exact h.setCtEntry _ _
  | ctBad => exact h.encFails (by decide) (by decide)
  | encStart => exact .openEncJob s
  | encFails c _ _ hc hle => exact h.encFails hc hle
  | encSym y _ hactive hcount => exact h.appendCode hactive hcount _
  | encFinish _ hactive => exact h.flushPacker_encDone hactive
  | decByte => rwa [foldl_walk_enc]
  | decBit => rwa [walkBit_enc]
  | _ => exact h

end

/-! ## Paths in the tree -/

section
variable {t : Vector Node Config.T_NODES}

theorem isInternal_iff {i : NodeIndex} : isInternal t i = true ↔ ∃ l r, treeNode t i = some (.internal l r) := by
  unfold isInternal
  split <;> simp_all

/-- The check of DEC_START starts from an INTERNAL root (42_decoder.md R144). -/
theorem isInternal_root_of_validTree (h : validTree t = true) : isInternal t Config.ROOT = true := by
  unfold validTree at h
  split at h
  · next l r hroot => exact isInternal_iff.mpr ⟨l, r, hroot⟩
  all_goals cases h

/-- An INTERNAL node has a child along every bit. -/
theorem exists_child {i : NodeIndex} (h : isInternal t i = true) (b : Bool) : ∃ j, child t i b = some j := by
  obtain ⟨l, r, hi⟩ := isInternal_iff.mp h
  exact ⟨_, child_eq_some.mpr ⟨l, r, hi, rfl⟩⟩

theorem followPath_append (i : NodeIndex) (p q : List Bool) :
    followPath t i (p ++ q) = (followPath t i p).bind fun j => followPath t j q := by
  induction p generalizing i with
  | nil => rfl
  | cons b p ih => cases h : child t i b <;> simp [followPath, h, ih]

/-- One more bit of a path. -/
theorem nodeAt_concat {p : List Bool} {i j : NodeIndex} {b : Bool} (hp : nodeAt t p = some i)
    (hc : child t i b = some j) : nodeAt t (p ++ [b]) = some j := by
  rw [nodeAt] at hp ⊢
  rw [followPath_append, hp]
  simp [followPath, hc]

end

/-! ## The invariants of the decoder (10_state.md R49 items 3 and 5 to 7, R35; 42_decoder.md R152; 60_exceptions.md R204) -/

/-- The part of `Inv` that speaks of the decoder. -/
structure DecInv (d : Decoder) : Prop where
  err : d.err = 0 ↔ d.state ≠ .error
  code : d.err.toNat ≤ 8
  valid : d.state = .active → validTree d.tree = true
  count : d.state = .active → d.emitted < d.n
  cur : d.state = .active → isInternal d.tree d.cur = true
  path : d.state = .active → ∃ p, nodeAt d.tree p = some d.cur
  done : d.state = .done → d.emitted ≠ 0 ∧ d.cur = 0
  idle : d.state = .idle → d.emitted = 0 ∧ d.bits = 0 ∧ d.cur = 0 ∧ d.extra = false

/-- The invariants speak of one engine each. -/
theorem inv_iff {s : State} : Inv s ↔ EncInv s.enc ∧ DecInv s.dec := by
  constructor
  · intro h
    exact ⟨⟨h.padZero, h.encRest, h.encErr, h.encCode, h.encBits⟩,
      ⟨h.decErr, h.decCode, h.decValid, h.decCount, h.decCur, h.decPath, h.decDone, h.decIdle⟩⟩
  · rintro ⟨he, hd⟩
    exact ⟨he.padZero, he.rest, he.err, hd.err, he.code, hd.code, he.bits, hd.valid, hd.count, hd.cur, hd.path, hd.done,
      hd.idle⟩

theorem DecInv.reset : DecInv Decoder.reset where
  err := by simp [Decoder.reset]
  code := by simp [Decoder.reset]
  valid := nofun
  count := nofun
  cur := nofun
  path := nofun
  done := nofun
  idle := fun _ => ⟨rfl, rfl, rfl, rfl⟩

/-- In ERROR only the code is bound (60_exceptions.md R203, R204). -/
theorem DecInv.of_error {d : Decoder} (h : d.state = .error) (hc : d.err ≠ 0) (hle : d.err.toNat ≤ 8) : DecInv d where
  err := iff_of_false hc (by simp [h])
  code := hle
  valid := by simp [h]
  count := by simp [h]
  cur := by simp [h]
  path := by simp [h]
  done := by simp [h]
  idle := by simp [h]

/-- A job opens at the root of a valid tree, with nothing emitted of a target of at least one (42_decoder.md R147). -/
theorem DecInv.decOpened_active {s : State} (hn : s.dec.n ≠ 0) (hvalid : validTree s.dec.tree = true) :
    DecInv (s.decOpened .active 0).dec where
  err := by simp
  code := by simp
  valid := fun _ => hvalid
  count := fun _ => by show 0 < s.dec.n; bv_omega
  cur := fun _ => isInternal_root_of_validTree hvalid
  path := fun _ => ⟨[], rfl⟩
  done := by simp
  idle := by simp

section
variable {s : State} (h : DecInv s.dec)
include h

theorem DecInv.setNode (hjob : s.dec.state ≠ .active) (k : NodeIndex) (v : Node) : DecInv (s.setNode k v).dec where
  err := h.err
  code := h.code
  valid := fun hactive => absurd hactive hjob
  count := fun hactive => absurd hactive hjob
  cur := fun hactive => absurd hactive hjob
  path := fun hactive => absurd hactive hjob
  done := h.done
  idle := h.idle

theorem DecInv.setN (hjob : s.dec.state ≠ .active) (v : BitVec 32) : DecInv (s.setN v).dec where
  err := h.err
  code := h.code
  valid := fun hactive => absurd hactive hjob
  count := fun hactive => absurd hactive hjob
  cur := fun hactive => absurd hactive hjob
  path := fun hactive => absurd hactive hjob
  done := h.done
  idle := h.idle

theorem DecInv.setExtra (hdone : s.dec.state = .done) : DecInv s.setExtra.dec where
  err := h.err
  code := h.code
  valid := h.valid
  count := h.count
  cur := h.cur
  path := h.path
  done := h.done
  idle := by simp [hdone]

/-- A symbol delivered below the target keeps the job open at the root; the last one ends it (42_decoder.md R148). -/
theorem DecInv.deliver (hactive : s.dec.state = .active) (y : Symbol) : DecInv (s.countBit.deliver y).dec := by
  have hcount := h.count hactive
  have herr := h.err.mpr (by simp [hactive])
  by_cases hlast : s.dec.emitted + 1 = s.dec.n
  · rw [State.deliver_last hlast]
    have hne : s.dec.emitted + 1 ≠ 0 := by bv_omega
    exact {
      err := iff_of_true herr nofun
      code := h.code
      valid := nofun
      count := nofun
      cur := nofun
      path := nofun
      done := fun _ => ⟨hne, rfl⟩
      idle := nofun }
  · rw [State.deliver_more hactive hlast]
    have hlt : s.dec.emitted + 1 < s.dec.n := by bv_omega
    exact {
      err := iff_of_true herr nofun
      code := h.code
      valid := fun _ => h.valid hactive
      count := fun _ => hlt
      cur := fun _ => isInternal_root_of_validTree (h.valid hactive)
      path := fun _ => ⟨[], rfl⟩
      done := nofun
      idle := nofun }

/-- A bit to an INTERNAL node makes the path one longer (42_decoder.md R148). -/
theorem DecInv.moveTo (hactive : s.dec.state = .active) {b : Bool} {j l r : NodeIndex}
    (hchild : child s.dec.tree s.dec.cur b = some j) (hj : s.node j = some (.internal l r)) :
    DecInv (s.countBit.moveTo j).dec where
  err := h.err
  code := h.code
  valid := h.valid
  count := h.count
  cur := fun _ => isInternal_iff.mpr ⟨l, r, hj⟩
  path := fun _ => by
    obtain ⟨p, hp⟩ := h.path hactive
    exact ⟨p ++ [b], nodeAt_concat hp hchild⟩
  done := by simp [hactive]
  idle := by simp [hactive]

theorem DecInv.walkBit (hactive : s.dec.state = .active) (b : Bool) : DecInv (walkBit s b).dec := by
  rcases walkBit_cases s b with ⟨j, y, -, -, hw⟩ | ⟨j, l, r, hchild, hj, hw⟩ | ⟨-, hw⟩ | ⟨-, hw⟩ <;> rw [hw]
  · exact h.deliver hactive y
  · exact h.moveTo hactive hchild hj
  · exact .of_error rfl (by simp) (by simp)
  · exact .of_error rfl (by simp) (by simp)

theorem Effect.decInv {i : Instr} {t : State} (heffect : Effect i s t) : DecInv t.dec := by
  cases heffect with
  | treeWrite k v _ _ hjob => exact h.setNode hjob k v
  | decSetn _ _ _ hjob => exact h.setN hjob _
  | decBad => exact .of_error rfl (by simp) (by simp)
  | decStartFails c _ hc hle => exact .of_error rfl hc hle
  | decStart _ hn hvalid => exact .decOpened_active hn hvalid
  | decFails c _ _ hc hle => exact .of_error rfl hc hle
  | extra _ hdone => exact h.setExtra hdone
  | decByte v => exact foldl_walk_keeps (P := fun u => DecInv u.dec) (fun _ b hactive h => h.walkBit hactive b) _ h
  | decBit b _ hactive => exact h.walkBit hactive b
  | encSym => rwa [State.appendCode_dec]
  | encFinish => rwa [State.encDone_dec, State.flushPacker_dec]
  | _ => exact h

end

/-- The invariants speak of the engines only. -/
theorem inv_ofEngines : OfEngines Inv := by
  intro s t h henc hdec
  rw [inv_iff, henc, hdec]
  exact inv_iff.mp h

theorem Effect.inv {i : Instr} {s t : State} (h : Inv s) (heffect : Effect i s t) : Inv t := by
  obtain ⟨henc, hdec⟩ := inv_iff.mp h
  exact inv_iff.mpr ⟨heffect.encInv henc, heffect.decInv hdec⟩

/-- Settles O49: both engines are IDLE and empty. -/
theorem invariantsHoldAtReset : Obligations.InvariantsHoldAtReset := by
  unfold Obligations.InvariantsHoldAtReset
  exact inv_iff.mpr ⟨.reset, .reset⟩

/-- Settles O50: every effect of a command keeps the invariants of both engines, and so does every step. -/
theorem everyStepKeepsTheInvariants : Obligations.EveryStepKeepsTheInvariants := by
  unfold Obligations.EveryStepKeepsTheInvariants
  intro s t h hstep
  exact step_keeps inv_ofEngines invariantsHoldAtReset Effect.inv h hstep

end Sys2Proof.Machine

namespace Sys2Proof.Machine

/-! ## What the check of DEC_START says about the paths of a tree (42_decoder.md R144, R145)

`treeLoop` pops a start node, marks it as visited and pushes its children. Read backwards, an accepting loop says of the nodes on
its stack that their subtrees have no broken node, no node in common and none that was visited before. -/

section
variable {t : Vector Node Config.T_NODES}

theorem followPath_cons {i j : NodeIndex} {b : Bool} {p : List Bool} :
    followPath t i (b :: p) = some j ↔ ∃ k, child t i b = some k ∧ followPath t k p = some j :=
  Option.bind_eq_some_iff

theorem child_leaf {i : NodeIndex} {y : Symbol} (hi : treeNode t i = some (.leaf y)) (b : Bool) : child t i b = none := by
  simp only [child, hi]

theorem child_nil (b : Bool) : child t Config.NIL b = none := by
  simp only [child, treeNode_nil]

/-- No path leaves a LEAF. -/
theorem followPath_leaf {i j : NodeIndex} {y : Symbol} {p : List Bool} (hi : treeNode t i = some (.leaf y))
    (hp : followPath t i p = some j) : p = [] ∧ j = i := by
  cases p with
  | nil => exact ⟨rfl, (Option.some.inj hp).symm⟩
  | cons b p =>
    obtain ⟨k, hk, -⟩ := followPath_cons.mp hp
    rw [child_leaf hi] at hk
    cases hk

/-- A path from an INTERNAL node ends there or goes on from one of the two children. -/
theorem followPath_internal {i l r j : NodeIndex} {p : List Bool} (hi : treeNode t i = some (.internal l r))
    (hp : followPath t i p = some j) :
    (p = [] ∧ j = i) ∨ (∃ q, p = false :: q ∧ followPath t l q = some j) ∨
      ∃ q, p = true :: q ∧ followPath t r q = some j := by
  cases p with
  | nil => exact .inl ⟨rfl, (Option.some.inj hp).symm⟩
  | cons b q =>
    obtain ⟨k, hk, hq⟩ := followPath_cons.mp hp
    obtain ⟨l', r', hi', rfl⟩ := child_eq_some.mp hk
    cases hi.symm.trans hi'
    cases b
    · exact .inr (.inl ⟨q, rfl, hq⟩)
    · exact .inr (.inr ⟨q, rfl, hq⟩)

/-- No node is reached from `i` by two paths. -/
def UniquePaths (t : Vector Node Config.T_NODES) (i : NodeIndex) : Prop :=
  ∀ p q j, followPath t i p = some j → followPath t i q = some j → p = q

/-- The subtrees of two nodes have no node in common. -/
def DisjointSubtrees (t : Vector Node Config.T_NODES) (i k : NodeIndex) : Prop :=
  ∀ p q j, followPath t i p = some j → followPath t k q ≠ some j

theorem UniquePaths.leaf {i : NodeIndex} {y : Symbol} (hi : treeNode t i = some (.leaf y)) : UniquePaths t i := by
  intro p q j hp hq
  rw [(followPath_leaf hi hp).1, (followPath_leaf hi hq).1]

/-- Two subtrees without a node in common, under a node that is in neither. -/
theorem UniquePaths.internal {i l r : NodeIndex} (hi : treeNode t i = some (.internal l r)) (hl : UniquePaths t l)
    (hr : UniquePaths t r) (hrl : DisjointSubtrees t r l) (hli : ∀ p, followPath t l p ≠ some i)
    (hri : ∀ p, followPath t r p ≠ some i) : UniquePaths t i := by
  intro p q j hp hq
  rcases followPath_internal hi hp with ⟨rfl, rfl⟩ | ⟨p', rfl, hp'⟩ | ⟨p', rfl, hp'⟩ <;>
    rcases followPath_internal hi hq with ⟨rfl, hj⟩ | ⟨q', rfl, hq'⟩ | ⟨q', rfl, hq'⟩
  · rfl
  · exact absurd hq' (hli q')
  · exact absurd hq' (hri q')
  · exact absurd (hj ▸ hp') (hli p')
  · rw [hl p' q' j hp' hq']
  · exact absurd hp' (hrl q' p' j hq')
  · exact absurd (hj ▸ hp') (hri p')
  · exact absurd hq' (hrl p' q' j hp')
  · rw [hr p' q' j hp' hq']

/-- What an accepting loop says of the nodes on its stack. -/
structure SoundSubtrees (t : Vector Node Config.T_NODES) (visited stack : List NodeIndex) : Prop where
  /-- every node of a subtree was written, and is not visited yet -/
  written : ∀ i ∈ stack, ∀ p j, followPath t i p = some j → j ≠ Config.NIL ∧ treeNode t j ≠ some .empty ∧ j ∉ visited
  unique : ∀ i ∈ stack, UniquePaths t i
  disjoint : stack.Pairwise (DisjointSubtrees t)

theorem SoundSubtrees.nil (t : Vector Node Config.T_NODES) (visited : List NodeIndex) : SoundSubtrees t visited [] where
  written := by simp
  unique := by simp
  disjoint := .nil

/-- A LEAF is a subtree of its own. -/
theorem SoundSubtrees.cons_leaf {visited stack : List NodeIndex} {i : NodeIndex} {y : Symbol}
    (hi : treeNode t i = some (.leaf y)) (hnew : i ∉ visited) (h : SoundSubtrees t (i :: visited) stack) :
    SoundSubtrees t visited (i :: stack) where
  written := by
    rw [List.forall_mem_cons]
    constructor
    · intro p j hp
      obtain ⟨rfl, rfl⟩ := followPath_leaf hi hp
      exact ⟨ne_nil_of_treeNode hi, by simp [hi], hnew⟩
    · intro k hk p j hp
      obtain ⟨hnil, hempty, hj⟩ := h.written k hk p j hp
      exact ⟨hnil, hempty, List.not_mem_of_not_mem_cons hj⟩
  unique := List.forall_mem_cons.mpr ⟨.leaf hi, h.unique⟩
  disjoint := by
    refine List.pairwise_cons.mpr ⟨fun k hk p q j hp hq => ?_, h.disjoint⟩
    obtain ⟨-, rfl⟩ := followPath_leaf hi hp
    obtain ⟨-, -, hj⟩ := h.written k hk q _ hq
    exact hj List.mem_cons_self

/-- An INTERNAL node over two subtrees without a common node, and not in them, is the root of a subtree. -/
theorem SoundSubtrees.cons_internal {visited stack : List NodeIndex} {i l r : NodeIndex}
    (hi : treeNode t i = some (.internal l r)) (hnew : i ∉ visited)
    (h : SoundSubtrees t (i :: visited) (r :: l :: stack)) : SoundSubtrees t visited (i :: stack) := by
  obtain ⟨hwritten, hunique, hdisjoint⟩ := h
  simp only [List.forall_mem_cons] at hwritten hunique
  simp only [List.pairwise_cons] at hdisjoint
  obtain ⟨hwrittenR, hwrittenL, hwritten⟩ := hwritten
  obtain ⟨huniqueR, huniqueL, hunique⟩ := hunique
  obtain ⟨hr, hl, hstack⟩ := hdisjoint
  have hsub : ∀ {j}, j ≠ Config.NIL ∧ treeNode t j ≠ some .empty ∧ j ∉ i :: visited →
      j ≠ Config.NIL ∧ treeNode t j ≠ some .empty ∧ j ∉ visited :=
    fun ⟨hnil, hempty, hj⟩ => ⟨hnil, hempty, List.not_mem_of_not_mem_cons hj⟩
  refine ⟨List.forall_mem_cons.mpr ⟨fun p j hp => ?_, fun k hk p j hp => hsub (hwritten k hk p j hp)⟩,
    List.forall_mem_cons.mpr ⟨?_, hunique⟩, List.pairwise_cons.mpr ⟨fun k hk p q j hp => ?_, hstack⟩⟩
  · rcases followPath_internal hi hp with ⟨rfl, rfl⟩ | ⟨q, rfl, hq⟩ | ⟨q, rfl, hq⟩
    · exact ⟨ne_nil_of_treeNode hi, by simp [hi], hnew⟩
    · exact hsub (hwrittenL q j hq)
    · exact hsub (hwrittenR q j hq)
  · exact .internal hi huniqueL huniqueR (hr l List.mem_cons_self)
      (fun p hp => (hwrittenL p i hp).2.2 List.mem_cons_self) (fun p hp => (hwrittenR p i hp).2.2 List.mem_cons_self)
  · rcases followPath_internal hi hp with ⟨rfl, rfl⟩ | ⟨p', rfl, hp'⟩ | ⟨p', rfl, hp'⟩
    · exact fun hq => (hwritten k hk q j hq).2.2 List.mem_cons_self
    · exact hl k hk p' q j hp'
    · exact hr k (List.mem_cons_of_mem _ hk) p' q j hp'

/-- The loop of ValidTree accepts only subtrees without broken or shared nodes. -/
theorem soundSubtrees_of_treeLoop {fuel : Nat} {visited stack : List NodeIndex}
    (h : treeLoop t fuel visited stack = true) : SoundSubtrees t visited stack := by
  induction fuel generalizing visited stack with
  | zero =>
    cases stack with
    | nil => exact .nil t visited
    | cons i stack => simp [treeLoop] at h
  | succ fuel ih =>
    cases stack with
    | nil => exact .nil t visited
    | cons i stack =>
      rw [treeLoop] at h
      split at h
      · cases h
      split at h
      · cases h
      next hnew =>
        split at h
        · next y hi => exact .cons_leaf hi hnew (ih h)
        · next l r hi => exact .cons_internal hi hnew (ih h)
        · cases h
        · cases h

/-- A tree that passes the check has the single-symbol form or is full (42_decoder.md R145). -/
theorem single_or_full_of_validTree (h : validTree t = true) : SingleSymbolTree t ∨ FullTree t := by
  have hinternal := isInternal_root_of_validTree h
  obtain ⟨l, r, hroot⟩ := isInternal_iff.mp hinternal
  simp only [validTree, hroot] at h
  split at h
  · next hr =>
    obtain ⟨hl, hleaf⟩ := Bool.and_eq_true_iff.mp h
    subst hr
    unfold isLeaf at hleaf
    split at hleaf
    · next y hy => exact .inl ⟨l, y, hroot, of_decide_eq_true hl, hy⟩
    all_goals cases hleaf
  · split at h
    · cases h
    have hsound : SoundSubtrees t [] [Config.ROOT] :=
      .cons_internal hroot (by simp) (soundSubtrees_of_treeLoop h)
    refine .inr ⟨hinternal, fun p i hp => ?_, hsound.unique _ (by simp)⟩
    obtain ⟨hnil, hempty, -⟩ := hsound.written _ (by simp) p i hp
    exact ⟨hnil, hempty⟩

/-! ### A path in a valid tree has at most 255 edges (42_decoder.md R145, R154) -/

/-- No tree has more paths with different ends than nodes. -/
theorem FullTree.length_paths_le (h : FullTree t) {ps : List (List Bool)} (hnodup : ps.Nodup)
    (hps : ∀ p ∈ ps, ∃ i, nodeAt t p = some i) : ps.length ≤ 511 := by
  obtain ⟨-, hwritten, hunique⟩ := h
  have hinj : (ps.map fun p => ((nodeAt t p).getD Config.NIL).toNat).Nodup := by
    refine hnodup.map_on fun p hp q hq heq => ?_
    obtain ⟨i, hi⟩ := hps p hp
    obtain ⟨j, hj⟩ := hps q hq
    have hij : i = j := BitVec.eq_of_toNat_eq (by simpa [hi, hj] using heq)
    exact hunique p q i hi (hij ▸ hj)
  have hrange : (ps.map fun p => ((nodeAt t p).getD Config.NIL).toNat) ⊆ List.range 511 := by
    intro n hn
    obtain ⟨p, hp, rfl⟩ := List.mem_map.mp hn
    obtain ⟨i, hi⟩ := hps p hp
    simpa [hi] using toNat_lt_of_ne_nil (hwritten p i hi).1
  simpa using (hinj.subperm hrange).length_le

/-- The paths to the nodes along a path, and to the sibling of each but the first. -/
def pathsAlong : List Bool → List (List Bool)
  | [] => [[]]
  | b :: p => [] :: [!b] :: (pathsAlong p).map (b :: ·)

theorem length_pathsAlong (p : List Bool) : (pathsAlong p).length = 2 * p.length + 1 := by
  induction p with
  | nil => rfl
  | cons b p ih => simp [pathsAlong, ih]; omega

theorem nodup_pathsAlong (p : List Bool) : (pathsAlong p).Nodup := by
  induction p with
  | nil => simp [pathsAlong]
  | cons b p ih =>
    have hmap : ((pathsAlong p).map (b :: ·)).Nodup := ih.map List.cons_injective
    simp [pathsAlong, hmap]

/-- An INTERNAL node has two children, so all these paths lead to a node. -/
theorem exists_followPath_of_mem_pathsAlong {p : List Bool} {i j : NodeIndex} (hp : followPath t i p = some j) :
    ∀ q ∈ pathsAlong p, ∃ k, followPath t i q = some k := by
  induction p generalizing i with
  | nil => simp [pathsAlong, followPath]
  | cons b p ih =>
    obtain ⟨k, hk, hp⟩ := followPath_cons.mp hp
    obtain ⟨l, r, hi, -⟩ := child_eq_some.mp hk
    obtain ⟨k', hk'⟩ := exists_child (isInternal_iff.mpr ⟨l, r, hi⟩) !b
    simp only [pathsAlong, List.forall_mem_cons, List.forall_mem_map]
    refine ⟨⟨i, rfl⟩, ⟨k', followPath_cons.mpr ⟨k', hk', rfl⟩⟩, fun q hq => ?_⟩
    obtain ⟨k'', hq⟩ := ih hp q hq
    exact ⟨k'', followPath_cons.mpr ⟨k, hk, hq⟩⟩

/-- A path of `d` edges needs `2d + 1` of the 511 nodes. -/
theorem FullTree.length_path_le (h : FullTree t) {p : List Bool} {i : NodeIndex} (hp : nodeAt t p = some i) :
    p.length ≤ 255 := by
  have hle := h.length_paths_le (nodup_pathsAlong p) (exists_followPath_of_mem_pathsAlong hp)
  rw [length_pathsAlong] at hle
  omega

/-- Below the root of the single-symbol form are a LEAF and NIL (42_decoder.md R146). -/
theorem SingleSymbolTree.length_path_le (h : SingleSymbolTree t) {p : List Bool} {i : NodeIndex}
    (hp : nodeAt t p = some i) : p.length ≤ 1 := by
  obtain ⟨l, y, hroot, -, hl⟩ := h
  rcases followPath_internal hroot hp with ⟨rfl, -⟩ | ⟨q, rfl, hq⟩ | ⟨q, rfl, hq⟩
  · simp
  · simp [(followPath_leaf hl hq).1]
  · cases q with
    | nil => simp
    | cons b q =>
      obtain ⟨k, hk, -⟩ := followPath_cons.mp hq
      rw [child_nil] at hk
      cases hk

theorem length_path_le_of_validTree (h : validTree t = true) {p : List Bool} {i : NodeIndex}
    (hp : nodeAt t p = some i) : p.length ≤ 255 := by
  rcases single_or_full_of_validTree h with hsingle | hfull
  · exact (hsingle.length_path_le hp).trans (by decide)
  · exact hfull.length_path_le hp

end

/-! ## The bound on the walked bits (10_state.md R37; 42_decoder.md R154) -/

/-- The bound speaks of the decoder only. -/
theorem BitsBounded.of_dec_eq {s t : State} (h : BitsBounded s) (hdec : t.dec = s.dec) : BitsBounded t :=
  ⟨by rw [hdec]; exact h.active, by rw [hdec]; exact h.always⟩

/-- Outside a job only the bound without a path is left. -/
theorem BitsBounded.of_not_active {s : State} (hjob : s.dec.state ≠ .active)
    (h : s.dec.bits.toNat ≤ 255 * s.dec.emitted.toNat + 255) : BitsBounded s :=
  ⟨fun hactive => absurd hactive hjob, h⟩

theorem BitsBounded.decOpened (s : State) (state : EngState) (c : BitVec 4) : BitsBounded (s.decOpened state c) :=
  ⟨fun _ => ⟨[], rfl, by simp⟩, by simp⟩

theorem BitsBounded.reset : BitsBounded State.reset := .of_not_active (by decide) (by decide)

/-- One more bit of a symbol: its path is one longer, and is one of a valid tree, so it has 255 edges at most. -/
theorem BitsBounded.next_bit {s : State} (h : BitsBounded s) (hinv : DecInv s.dec) (hactive : s.dec.state = .active)
    (b : Bool) : ∃ p j, child s.dec.tree s.dec.cur b = some j ∧ nodeAt s.dec.tree p = some j ∧ p.length ≤ 255 ∧
      (s.dec.bits + 1).toNat ≤ 255 * s.dec.emitted.toNat + p.length := by
  obtain ⟨p, hp, hbits⟩ := h.active hactive
  obtain ⟨j, hchild⟩ := exists_child (hinv.cur hactive) b
  have hpath := nodeAt_concat hp hchild
  have hlen := length_path_le_of_validTree (hinv.valid hactive) hpath
  have hemitted := s.dec.emitted.isLt
  refine ⟨p ++ [b], j, hchild, hpath, hlen, ?_⟩
  rw [List.length_append, List.length_singleton] at hlen ⊢
  bv_omega

/-- A walked bit keeps the bound: a symbol is delivered after 255 of its bits at most (42_decoder.md R154). -/
theorem BitsBounded.walkBit {s : State} (h : BitsBounded s) (hinv : DecInv s.dec) (hactive : s.dec.state = .active)
    (b : Bool) : BitsBounded (walkBit s b) := by
  obtain ⟨p, j, hchild, hpath, hlen, hbits⟩ := h.next_bit hinv hactive b
  have hcount := hinv.count hactive
  have hsucc : (s.dec.emitted + 1).toNat = s.dec.emitted.toNat + 1 := by bv_omega
  have hfails : ∀ c, BitsBounded (s.countBit.decFails c) := fun c =>
    .of_not_active nofun (hbits.trans (Nat.add_le_add_left hlen _))
  rcases walkBit_cases s b with ⟨k, y, -, -, hw⟩ | ⟨k, l, r, hk, -, hw⟩ | ⟨-, hw⟩ | ⟨-, hw⟩ <;> rw [hw]
  · have hdelivered : (s.dec.bits + 1).toNat ≤ 255 * (s.dec.emitted + 1).toNat := by omega
    by_cases hlast : s.dec.emitted + 1 = s.dec.n
    · exact .of_not_active (by simp [State.deliver_last hlast])
        (by rw [State.deliver_last hlast]; exact hdelivered.trans (Nat.le_add_right _ _))
    · constructor <;> rw [State.deliver_more hactive hlast]
      · exact fun _ => ⟨[], rfl, hdelivered⟩
      · exact hdelivered.trans (Nat.le_add_right _ _)
  · cases hchild.symm.trans hk
    exact ⟨fun _ => ⟨p, hpath, hbits⟩, hbits.trans (Nat.add_le_add_left hlen _)⟩
  · exact hfails 8
  · exact hfails 3

theorem Effect.bitsBounded {i : Instr} {s t : State} (hinv : DecInv s.dec) (h : BitsBounded s) (heffect : Effect i s t) :
    BitsBounded t := by
  cases heffect with
  | treeWrite _ _ _ _ hjob => exact .of_not_active hjob h.always
  | decSetn _ _ _ hjob => exact .of_not_active hjob h.always
  | decBad | decFails => exact .of_not_active nofun h.always
  | decStartFails | decStart => exact .decOpened _ _ _
  | extra _ hdone => exact .of_not_active (by simp [hdone]) h.always
  | decByte v =>
    have hkeeps : ∀ u b, u.dec.state = .active → DecInv u.dec ∧ BitsBounded u →
        DecInv (walkBit u b).dec ∧ BitsBounded (walkBit u b) :=
      fun u b hactive ⟨hinv, h⟩ => ⟨hinv.walkBit hactive b, h.walkBit hinv hactive b⟩
    exact (foldl_walk_keeps (P := fun u => DecInv u.dec ∧ BitsBounded u) hkeeps _ ⟨hinv, h⟩).2
  | decBit b _ hactive => exact h.walkBit hinv hactive b
  | encSym => exact h.of_dec_eq (State.appendCode_dec _ _)
  | encFinish => exact h.of_dec_eq (State.flushPacker_dec _)
  | _ => exact h.of_dec_eq rfl

/-- Settles O51: with the invariants, every step keeps 255 bits a symbol; 255 times 2^32 is below 2^40. -/
theorem bitCountersNeverWrap : Obligations.BitCountersNeverWrap := by
  unfold Obligations.BitCountersNeverWrap
  refine ⟨fun s t hinv h hstep => ?_, .reset, fun s hinv h => ?_⟩
  · have hengines : OfEngines fun u => Inv u ∧ BitsBounded u :=
      fun h henc hdec => ⟨inv_ofEngines h.1 henc hdec, h.2.of_dec_eq hdec⟩
    exact (step_keeps hengines ⟨invariantsHoldAtReset, .reset⟩
      (fun h heffect => ⟨heffect.inv h.1, heffect.bitsBounded (inv_iff.mp h.1).2 h.2⟩) ⟨hinv, h⟩ hstep).2
  · have hdec := h.always
    have henc := hinv.encBits
    have hemitted := s.dec.emitted.isLt
    have hcount := s.enc.count.isLt
    omega

end Sys2Proof.Machine

namespace Sys2Proof.Machine

/-! ## Runs of commands -/

/-- What every command of a list keeps, a run of the list keeps; `P` may speak of the commands run so far. -/
theorem runCommands_keeps {P : List Instr → State → Prop} {is : List Instr}
    (hexec : ∀ i ∈ is, ∀ {ran u v}, P ran u → Effect i u v → P (ran ++ [i]) v) {ran : List Instr} {s t : State}
    (hs : P ran s) (hrun : runCommands is s = .next t) : P (ran ++ is) t := by
  induction is generalizing ran s with
  | nil =>
    cases hrun
    rwa [List.append_nil]
  | cons i is ih =>
    obtain ⟨u, hu, heffect⟩ := exec_effect i s
    simp only [runCommands, hu] at hrun
    have hhead := hexec i List.mem_cons_self hs heffect
    have htail := ih (fun k hk => hexec k (List.mem_cons_of_mem _ hk)) hhead hrun
    rwa [List.append_assoc] at htail

/-! ## An open encoder job (10_state.md R49 item 4; 41_encoder.md R119, R121) -/

/-- In `t` a job that was opened in `s` has encoded the symbols `xs`, by the code table of `s`. -/
structure EncodedSoFar (s : State) (xs : List Symbol) (t : State) : Prop where
  ct : t.enc.ct = s.enc.ct
  count : t.enc.count.toNat = xs.length
  bits : t.enc.bits.toNat = (xs.map fun x => (s.ctEntry x).len.toNat).sum

/-- As long as the encoder is ACTIVE, the commands run so far have encoded their symbols. -/
def OpenEncJob (s : State) (ran : List Instr) (t : State) : Prop :=
  t.enc.state = .active → EncodedSoFar s (encodedSymbols ran) t

theorem OpenEncJob.opened (s : State) : OpenEncJob s [] s.openEncJob := fun _ => ⟨rfl, rfl, rfl⟩

theorem encodedSymbols_append (is js : List Instr) :
    encodedSymbols (is ++ js) = encodedSymbols is ++ encodedSymbols js :=
  List.filterMap_append

theorem encodedSymbols_singleton_of_none {i : Instr} (h : symbolGiven i = none) : encodedSymbols [i] = [] := by
  simp [encodedSymbols, h]

/-- The symbols of a job have at most 255 bits each. -/
theorem sum_lengths_le (s : State) (xs : List Symbol) :
    (xs.map fun x => (s.ctEntry x).len.toNat).sum ≤ 255 * xs.length := by
  induction xs with
  | nil => simp
  | cons x xs ih =>
    have := (s.ctEntry x).len.isLt
    simp only [List.map_cons, List.sum_cons, List.length_cons]
    omega

/-- One more symbol: neither counter wraps, since the count is below its maximum (41_encoder.md R117). -/
theorem EncodedSoFar.appendCode {s u : State} {xs : List Symbol} (h : EncodedSoFar s xs u)
    (hcount : u.enc.count ≠ 0xFFFFFFFF) (y : Symbol) : EncodedSoFar s (xs ++ [y]) (u.appendCode (u.ctEntry y)) := by
  have hentry : u.ctEntry y = s.ctEntry y := by simp only [State.ctEntry, h.ct]
  have hsum := sum_lengths_le s xs
  have hlen := (s.ctEntry y).len.isLt
  have hlt := u.enc.count.isLt
  have hn := h.count
  have hbits := h.bits
  refine ⟨by rw [State.appendCode_enc_ct, h.ct], ?_, ?_⟩
  · rw [State.appendCode_enc_count, List.length_append, List.length_singleton, ← hn]
    bv_omega
  · rw [State.appendCode_enc_bits, hentry, List.map_append, List.sum_append, ← hbits, BitVec.toNat_add,
      BitVec.toNat_setWidth]
    simp only [List.map_cons, List.map_nil, List.sum_cons, List.sum_nil]
    omega

/-- A command that leaves the encoder alone and gives it no symbol leaves the open job as it is. -/
theorem OpenEncJob.of_enc_eq {s u v : State} {ran : List Instr} {i : Instr} (h : OpenEncJob s ran u)
    (henc : v.enc = u.enc) (hi : symbolGiven i = none) : OpenEncJob s (ran ++ [i]) v := by
  intro hactive
  rw [encodedSymbols_append, encodedSymbols_singleton_of_none hi, List.append_nil]
  rw [henc] at hactive
  obtain ⟨hct, hcount, hbits⟩ := h hactive
  exact ⟨henc ▸ hct, henc ▸ hcount, henc ▸ hbits⟩

/-- A command that leaves the encoder not ACTIVE leaves no open job. -/
theorem OpenEncJob.of_not_active {s v : State} {ran : List Instr} (h : v.enc.state ≠ .active) : OpenEncJob s ran v :=
  fun hactive => absurd hactive h

theorem symbolGiven_of_isRead {i : Instr} (h : isRead i = true) : symbolGiven i = none := by
  cases i with
  | encSym => cases h
  | _ => rfl

theorem symbolGiven_of_not_wellFormed {i : Instr} (h : i.wellFormed = false) : symbolGiven i = none := by
  cases i with
  | encSym => cases h
  | _ => rfl

theorem Effect.openEncJob {i : Instr} {s u v : State} {ran : List Instr} (hi : i ≠ .encStart) (h : OpenEncJob s ran u)
    (heffect : Effect i u v) : OpenEncJob s (ran ++ [i]) v := by
  cases heffect with
  | ctLen _ _ _ hjob | ctWord _ _ _ _ hjob => exact .of_not_active hjob
  | ctBad | encFails | encFinish => exact .of_not_active nofun
  | encStart hstart => exact absurd hstart hi
  | encIgnored _ herror => exact .of_not_active (by simp [herror])
  | encSym y hy hactive hcount =>
    subst hy
    rw [OpenEncJob, encodedSymbols_append]
    exact fun _ => (h hactive).appendCode hcount y
  | treeWrite k v hk => rcases hk with ⟨_, rfl, -⟩ | ⟨_, _, rfl, -⟩ <;> exact h.of_enc_eq rfl rfl
  | decBad hk => rcases hk with ⟨_, _, rfl⟩ | ⟨_, _, _, rfl⟩ | ⟨_, _, rfl⟩ <;> exact h.of_enc_eq rfl rfl
  | decIgnored hk | extra hk => rcases hk with ⟨_, rfl⟩ | ⟨_, rfl⟩ <;> exact h.of_enc_eq rfl rfl
  | decFails _ hk => rcases hk with ⟨_, rfl⟩ | ⟨_, rfl⟩ | rfl <;> exact h.of_enc_eq rfl rfl
  | decByte v hk => exact h.of_enc_eq (foldl_walk_enc _ _) (by rw [hk]; rfl)
  | decBit b hk => exact h.of_enc_eq (walkBit_enc _ _) (by rw [hk]; rfl)
  | read _ hk => exact h.of_enc_eq rfl (symbolGiven_of_isRead hk)
  | illegal hk => exact h.of_enc_eq rfl (symbolGiven_of_not_wellFormed hk)
  | decSetn _ _ hk | decStartFails _ hk | decStart hk | decEndIgnored hk | nop hk | clrCmderr hk =>
    exact h.of_enc_eq rfl (by rw [hk]; rfl)

/-- Settles O54: ENC_START opens an empty job, and every later command but ENC_START keeps the account of an open job. -/
theorem openJobCountsItsBits : Obligations.OpenJobCountsItsBits := by
  unfold Obligations.OpenJobCountsItsBits
  intro s t is hstart hrun hactive
  have hjob : OpenEncJob s ([] ++ is) t :=
    runCommands_keeps (fun i hi _ _ _ h heffect => heffect.openEncJob (fun heq => hstart (heq ▸ hi)) h) (.opened s) hrun
  obtain ⟨hct, hcount, hbits⟩ := hjob hactive
  exact ⟨hbits, hcount, hct⟩

/-! ## A decoder job and its target (10_state.md R49 items 5 and 6, R34, R36) -/

/-- A decoder job over `tree` that ends at the symbol count `target`: while it is open it has emitted less, when it is DONE exactly
that many (log entry 8). -/
structure DecJob (tree : Vector Node Config.T_NODES) (target : BitVec 32) (d : Decoder) : Prop where
  active : d.state = .active → d.tree = tree ∧ d.n = target ∧ d.emitted < target
  done : d.state = .done → d.emitted = target ∧ 1 ≤ target.toNat ∧ d.cur = 0

section
variable {tree : Vector Node Config.T_NODES} {target : BitVec 32}

/-- In IDLE and ERROR there is no job. -/
theorem DecJob.of_no_job {d : Decoder} (hactive : d.state ≠ .active) (hdone : d.state ≠ .done) : DecJob tree target d :=
  ⟨fun h => absurd h hactive, fun h => absurd h hdone⟩

theorem DecJob.of_error {d : Decoder} (h : d.state = .error) : DecJob tree target d :=
  .of_no_job (by simp [h]) (by simp [h])

variable {s : State} (h : DecJob tree target s.dec)
include h

/-- The symbol that reaches the target ends the job, at the root (42_decoder.md R148). -/
theorem DecJob.walkBit (hactive : s.dec.state = .active) (b : Bool) : DecJob tree target (walkBit s b).dec := by
  obtain ⟨htree, hn, hlt⟩ := h.active hactive
  rcases walkBit_cases s b with ⟨j, y, -, -, hw⟩ | ⟨j, l, r, -, -, hw⟩ | ⟨-, hw⟩ | ⟨-, hw⟩ <;> rw [hw]
  · by_cases hlast : s.dec.emitted + 1 = s.dec.n
    · rw [State.deliver_last hlast]
      exact ⟨nofun, fun _ => ⟨hlast.trans hn, Nat.one_le_of_lt hlt, rfl⟩⟩
    · rw [State.deliver_more hactive hlast]
      rw [hn] at hlast
      exact ⟨fun _ => ⟨htree, hn, by bv_omega⟩, nofun⟩
  · exact ⟨h.active, fun hdone => absurd hdone (by simp [hactive])⟩
  · exact .of_error rfl
  · exact .of_error rfl

/-- Every command but DEC_START keeps the job, its tree and its target, whatever it writes to DEC_N after the job. -/
theorem Effect.decJob {i : Instr} {t : State} (hi : i ≠ .decStart) (heffect : Effect i s t) : DecJob tree target t.dec := by
  cases heffect with
  | treeWrite _ _ _ _ hjob | decSetn _ _ _ hjob => exact ⟨fun hactive => absurd hactive hjob, h.done⟩
  | decBad | decFails => exact .of_error rfl
  | decStart hstart | decStartFails _ hstart => exact absurd hstart hi
  | extra => exact ⟨h.active, h.done⟩
  | decByte v => exact foldl_walk_keeps (P := fun u => DecJob tree target u.dec) (fun _ b hactive h => h.walkBit hactive b) _ h
  | decBit b _ hactive => exact h.walkBit hactive b
  | encSym => rwa [State.appendCode_dec]
  | encFinish => rwa [State.encDone_dec, State.flushPacker_dec]
  | _ => exact h

end

/-- DEC_START opens a job over the tree and with the target that it reads, or none (42_decoder.md R147). -/
theorem decJob_of_decStart {s t : State} (hexec : exec .decStart s = .next t) : DecJob s.dec.tree s.dec.n t.dec := by
  by_cases hn : s.dec.n = 0
  · cases (exec_decStart_empty hn).symm.trans hexec
    exact .of_error rfl
  cases hvalid : validTree s.dec.tree with
  | false =>
    cases (exec_decStart_corrupt hn hvalid).symm.trans hexec
    exact .of_error rfl
  | true =>
    cases (exec_decStart_active hn hvalid).symm.trans hexec
    have hpos : 0 < s.dec.n := by bv_omega
    exact ⟨fun _ => ⟨rfl, rfl, hpos⟩, nofun⟩

/-- Settles O55: DEC_START opens a job with its target, and every later command but DEC_START keeps it. -/
theorem jobEndsAtTheTargetItStartedWith : Obligations.JobEndsAtTheTargetItStartedWith := by
  unfold Obligations.JobEndsAtTheTargetItStartedWith
  intro s t is hstart hrun
  obtain ⟨u, hu, -⟩ := exec_effect .decStart s
  simp only [runCommands, hu] at hrun
  have hjob : DecJob s.dec.tree s.dec.n t.dec :=
    runCommands_keeps (P := fun _ v => DecJob s.dec.tree s.dec.n v.dec) (ran := [])
      (fun i hi _ _ _ h heffect => heffect.decJob h fun heq => hstart (heq ▸ hi)) (decJob_of_decStart hu) hrun
  exact ⟨hjob.active, hjob.done⟩

end Sys2Proof.Machine

namespace Sys2Proof.Machine

/-! ## Which commands write which state (10_state.md R44)

One lemma for each row: the element is as it was, or the command is one of those listed for it. -/

section
variable {i : Instr} {s t : State}

/-- The code table is written by CT_LEN and CT_WORD, and not in a job. -/
theorem Effect.ct_writers (h : Effect i s t) : t.enc.ct = s.enc.ct ∨ (s.enc.state ≠ .active ∧
    ((∃ y len, i = .ctLen y len ∧ t = s.setCtEntry y { s.ctEntry y with len := len }) ∨
      ∃ y w d, i = .ctWord y w d ∧ t = s.setCtEntry y ((s.ctEntry y).setWord w d))) := by
  cases h with
  | ctLen y len hi hjob => exact .inr ⟨hjob, .inl ⟨y, len, hi, rfl⟩⟩
  | ctWord y w d hi hjob => exact .inr ⟨hjob, .inr ⟨y, w, d, hi, rfl⟩⟩
  | encSym => exact .inl (State.appendCode_enc_ct _ _)
  | encFinish => exact .inl (State.flushPacker_enc_ct _)
  | decByte => exact .inl (by rw [foldl_walk_enc])
  | decBit => exact .inl (by rw [walkBit_enc])
  | _ => exact .inl rfl

theorem State.ctEntry_congr (h : t.enc.ct = s.enc.ct) (z : Symbol) : t.ctEntry z = s.ctEntry z := by
  simp only [State.ctEntry, h]

/-- A write to the table that keeps a field of its entry keeps that field of every entry. -/
theorem State.ctEntry_setCtEntry_field {α : Type} (field : CtEntry → α) {y : Symbol} {e : CtEntry}
    (he : field e = field (s.ctEntry y)) (z : Symbol) : field ((s.setCtEntry y e).ctEntry z) = field (s.ctEntry z) := by
  by_cases hz : z = y
  · subst hz
    rw [State.ctEntry_setCtEntry_self, he]
  · rw [State.ctEntry_setCtEntry_ne _ _ _ _ hz]

theorem Effect.len_writers (h : Effect i s t) : (∀ z, (t.ctEntry z).len = (s.ctEntry z).len) ∨ ∃ y len, i = .ctLen y len := by
  rcases h.ct_writers with hct | ⟨-, ⟨y, len, hi, -⟩ | ⟨y, w, d, -, rfl⟩⟩
  · exact .inl fun z => by rw [State.ctEntry_congr hct]
  · exact .inr ⟨y, len, hi⟩
  · exact .inl (State.ctEntry_setCtEntry_field CtEntry.len rfl)

theorem Effect.code_writers (h : Effect i s t) :
    (∀ z, (t.ctEntry z).code = (s.ctEntry z).code) ∨ ∃ y w d, i = .ctWord y w d := by
  rcases h.ct_writers with hct | ⟨-, ⟨y, len, -, rfl⟩ | ⟨y, w, d, hi, -⟩⟩
  · exact .inl fun z => by rw [State.ctEntry_congr hct]
  · exact .inl (State.ctEntry_setCtEntry_field CtEntry.code rfl)
  · exact .inr ⟨y, w, d, hi⟩

/-- The encoder's state and error are written by its own commands, and by a table write in a job, which raises SEQUENCE. -/
theorem Effect.encState_writers (h : Effect i s t) : (t.enc.state = s.enc.state ∧ t.enc.err = s.enc.err) ∨
    (i = .encStart ∨ (∃ y, i = .encSym y) ∨ i = .encFinish ∨ (s.enc.state = .active ∧ t = s.encFails 6 ∧
      ((∃ y len, i = .ctLen y len) ∨ ∃ y w d, i = .ctWord y w d))) := by
  cases h with
  | ctBad hi hactive => exact .inr (.inr (.inr (.inr ⟨hactive, rfl, hi⟩)))
  | encStart hi => exact .inr (.inl hi)
  | encFails _ hi => exact .inr (.inr (hi.imp_right .inl))
  | encSym y hi => exact .inr (.inr (.inl ⟨y, hi⟩))
  | encFinish hi => exact .inr (.inr (.inr (.inl hi)))
  | decByte => exact .inl (by simp)
  | decBit => exact .inl (by simp)
  | _ => exact .inl ⟨rfl, rfl⟩

/-- The packer and the encoder's counters are written by its own commands. -/
theorem Effect.packer_writers (h : Effect i s t) :
    (t.enc.acc = s.enc.acc ∧ t.enc.accn = s.enc.accn ∧ t.enc.count = s.enc.count ∧ t.enc.bits = s.enc.bits) ∨
      (i = .encStart ∨ (∃ y, i = .encSym y) ∨ i = .encFinish) := by
  cases h with
  | encStart hi => exact .inr (.inl hi)
  | encSym y hi => exact .inr (.inr (.inl ⟨y, hi⟩))
  | encFinish hi => exact .inr (.inr (.inr hi))
  | decByte => exact .inl (by simp)
  | decBit => exact .inl (by simp)
  | _ => exact .inl ⟨rfl, rfl, rfl, rfl⟩

/-- The tree is written by TREE_LEAF and TREE_INT, and not in a job. -/
theorem Effect.tree_writers (h : Effect i s t) : t.dec.tree = s.dec.tree ∨ (s.dec.state ≠ .active ∧
    ((∃ k y, i = .treeLeaf k y) ∨ ∃ k l r, i = .treeInt k l r)) := by
  cases h with
  | treeWrite k v hi _ hjob => exact .inr ⟨hjob, hi.imp (fun ⟨y, hy, _⟩ => ⟨k, y, hy⟩) (fun ⟨l, r, hlr, _⟩ => ⟨k, l, r, hlr⟩)⟩
  | encSym => exact .inl (by simp)
  | encFinish => exact .inl (by simp)
  | decByte => exact .inl (by simp)
  | decBit => exact .inl (by simp)
  | _ => exact .inl rfl

/-- DEC_N is written by DEC_SETN, and not in a job. -/
theorem Effect.n_writers (h : Effect i s t) :
    t.dec.n = s.dec.n ∨ (s.dec.state ≠ .active ∧ ∃ h d, i = .decSetn h d) := by
  cases h with
  | decSetn h d hi hjob => exact .inr ⟨hjob, h, d, hi⟩
  | encSym => exact .inl (by simp)
  | encFinish => exact .inl (by simp)
  | decByte => exact .inl (by simp)
  | decBit => exact .inl (by simp)
  | _ => exact .inl rfl

/-- The decoder's state and error are written by its job commands, and by a tree or count write in a job, which raises SEQUENCE. -/
theorem Effect.decState_writers (h : Effect i s t) : (t.dec.state = s.dec.state ∧ t.dec.err = s.dec.err) ∨
    (i = .decStart ∨ (∃ v, i = .decByte v) ∨ (∃ c, i = .decBitchar c) ∨ i = .decEnd ∨
      (s.dec.state = .active ∧ t = s.decFails 6 ∧
        ((∃ k y, i = .treeLeaf k y) ∨ (∃ k l r, i = .treeInt k l r) ∨ ∃ h d, i = .decSetn h d))) := by
  cases h with
  | decBad hi hactive => exact .inr (.inr (.inr (.inr (.inr ⟨hactive, rfl, hi⟩))))
  | decStart hi | decStartFails _ hi => exact .inr (.inl hi)
  | decFails _ hi => exact .inr (.inr (hi.imp_right (.imp_right .inl)))
  | decByte v hi => exact .inr (.inr (.inl ⟨v, hi⟩))
  | decBit b hi => exact .inr (.inr (.inr (.inl ⟨_, hi⟩)))
  | encSym => exact .inl (by simp)
  | encFinish => exact .inl (by simp)
  | _ => exact .inl ⟨rfl, rfl⟩

/-- The walk registers and EXTRA are written by DEC_START and the data commands. -/
theorem Effect.walk_writers (h : Effect i s t) :
    (t.dec.cur = s.dec.cur ∧ t.dec.emitted = s.dec.emitted ∧ t.dec.bits = s.dec.bits ∧ t.dec.extra = s.dec.extra) ∨
      (i = .decStart ∨ (∃ v, i = .decByte v) ∨ ∃ c, i = .decBitchar c) := by
  cases h with
  | decStart hi | decStartFails _ hi => exact .inr (.inl hi)
  | extra hi => exact .inr (.inr hi)
  | decByte v hi => exact .inr (.inr (.inl ⟨v, hi⟩))
  | decBit b hi => exact .inr (.inr (.inr ⟨_, hi⟩))
  | encSym => exact .inl (by simp)
  | encFinish => exact .inl (by simp)
  | _ => exact .inl ⟨rfl, rfl, rfl, rfl⟩

/-- Of the commands with legal operands only CLR_CMDERR writes the command unit, and it keeps CMD_BADWORD. -/
theorem Effect.cmd_writers (h : Effect i s t) (hwf : i.wellFormed = true) :
    t.cmd = s.cmd ∨ (i = .clrCmderr ∧ t.cmd.badword = s.cmd.badword) := by
  cases h with
  | clrCmderr hi => exact .inr ⟨hi, rfl⟩
  | illegal hbad => rw [hwf] at hbad; cases hbad
  | encSym => exact .inl (by simp)
  | encFinish => exact .inl (by simp)
  | decByte => exact .inl (by simp)
  | decBit => exact .inl (by simp)
  | _ => exact .inl rfl

end

/-- Settles O45: each row of the table is a lemma about the effect of the decoded command; an illegal word writes the command unit
only. -/
theorem onlyTheListedCommandsWrite : Obligations.OnlyTheListedCommandsWrite := by
  unfold Obligations.OnlyTheListedCommandsWrite
  intro x s t haccept
  cases hdecode : decode x with
  | error e =>
    rw [acceptCommand_of_error hdecode] at haccept
    cases haccept
    simp
  | ok i =>
    rw [acceptCommand_of_ok hdecode] at haccept
    have heffect := effect_of_exec haccept
    obtain ⟨-, -, -, -, hwf⟩ := decode_ok_row hdecode
    simp only [Except.ok.injEq, reduceCtorEq, exists_false, or_false]
    refine ⟨fun ⟨z, hz⟩ => heffect.len_writers.resolve_left (hz <| · z),
      fun ⟨z, hz⟩ => heffect.code_writers.resolve_left (hz <| · z),
      fun hne => heffect.encState_writers.resolve_left ?_, fun hne => heffect.packer_writers.resolve_left ?_,
      fun hne => (heffect.tree_writers.resolve_left hne).2, fun hne => (heffect.n_writers.resolve_left hne).2,
      fun hne => heffect.decState_writers.resolve_left ?_, fun hne => heffect.walk_writers.resolve_left ?_, ?_, ?_⟩
    · rintro ⟨hstate, herr⟩
      simp [hstate, herr] at hne
    · rintro ⟨hacc, haccn, hcount, hbits⟩
      simp [hacc, haccn, hcount, hbits] at hne
    · rintro ⟨hstate, herr⟩
      simp [hstate, herr] at hne
    · rintro ⟨hcur, hemitted, hbits, hextra⟩
      simp [hcur, hemitted, hbits, hextra] at hne
    · rcases heffect.cmd_writers hwf with hcmd | ⟨hclr, -⟩
      · exact fun hne => absurd (by rw [hcmd]) hne
      · exact fun _ => hclr
    · rcases heffect.cmd_writers hwf with hcmd | ⟨-, hbadword⟩
      · exact fun hne => hne (by rw [hcmd])
      · exact fun hne => hne hbadword

/-- Settles O56: the writers of the tables write only outside a job. -/
theorem tablesAreFixedDuringAJob : Obligations.TablesAreFixedDuringAJob := by
  unfold Obligations.TablesAreFixedDuringAJob
  intro x s
  cases hdecode : decode x with
  | error e => exact ⟨_, acceptCommand_of_error hdecode s, fun _ => rfl, fun _ => ⟨rfl, rfl⟩⟩
  | ok i =>
    obtain ⟨t, hexec, heffect⟩ := exec_effect i s
    refine ⟨t, by rw [acceptCommand_of_ok hdecode, hexec], fun hactive => ?_, fun hactive => ⟨?_, ?_⟩⟩
    · exact heffect.ct_writers.resolve_right fun ⟨hjob, _⟩ => hjob hactive
    · exact heffect.tree_writers.resolve_right fun ⟨hjob, _⟩ => hjob hactive
    · exact heffect.n_writers.resolve_right fun ⟨hjob, _⟩ => hjob hactive

/-! ## A decoder that becomes DONE (10_state.md R49 item 6, R36; log entry 8) -/

/-- A decoder with the invariants is in a job with the target DEC_N, unless it is DONE and DEC_N was written since. -/
theorem DecInv.decJob {d : Decoder} (h : DecInv d) (hdone : d.state = .done → d.emitted = d.n) : DecJob d.tree d.n d where
  active := fun hactive => ⟨rfl, rfl, h.count hactive⟩
  done := fun hd => by
    obtain ⟨hemitted, hcur⟩ := h.done hd
    have heq := hdone hd
    exact ⟨heq, by bv_omega, hcur⟩

/-- Every word keeps the job of the state it is accepted in, or starts one with the same DEC_N. -/
theorem decJob_of_acceptCommand {x : Word32} {s t : State} (h : DecJob s.dec.tree s.dec.n s.dec)
    (haccept : acceptCommand x s = .next t) : DecJob s.dec.tree s.dec.n t.dec := by
  cases hdecode : decode x with
  | error e =>
    rw [acceptCommand_of_error hdecode] at haccept
    cases haccept
    exact h
  | ok i =>
    rw [acceptCommand_of_ok hdecode] at haccept
    by_cases hi : i = .decStart
    · subst hi
      exact decJob_of_decStart haccept
    · exact (effect_of_exec haccept).decJob h hi

/-- A word that leaves the decoder DONE writes DEC_N only when the decoder was DONE before, and is a DEC_SETN (42_decoder.md R143). -/
theorem dec_n_of_acceptCommand {x : Word32} {s t : State} (haccept : acceptCommand x s = .next t)
    (hdone : t.dec.state = .done) (hs : s.dec.state ≠ .done ∨ ∀ h d, decode x ≠ .ok (.decSetn h d)) :
    t.dec.n = s.dec.n := by
  cases hdecode : decode x with
  | error e =>
    rw [acceptCommand_of_error hdecode] at haccept
    cases haccept
    rfl
  | ok i =>
    rw [acceptCommand_of_ok hdecode] at haccept
    rcases (effect_of_exec haccept).n_writers with hn | ⟨hjob, h, d, rfl⟩
    · exact hn
    · rw [exec_decSetn_write h d hjob] at haccept
      cases haccept
      rcases hs with hs | hs
      · exact absurd hdone hs
      · exact absurd hdecode (hs h d)

/-- Settles O53: the word keeps the job and its target, and DEC_N still is that target. -/
theorem doneHasTheTargetUntilRewritten : Obligations.DoneHasTheTargetUntilRewritten := by
  unfold Obligations.DoneHasTheTargetUntilRewritten
  intro x s t hinv haccept hdone hs
  have hjob := (inv_iff.mp hinv).2.decJob fun h => (hs.resolve_left (absurd h)).1
  have hn := dec_n_of_acceptCommand haccept hdone (hs.imp_right And.right)
  rw [hn]
  exact (decJob_of_acceptCommand hjob haccept).done hdone

/-! ## Reset, the ports and the status words (10_state.md R41-R43, R46, R48; 70_reset_and_hazards.md R230, R235) -/

@[simp] theorem State.ctEntry_reset (y : Symbol) : State.reset.ctEntry y = CtEntry.reset := by
  simp [State.ctEntry, State.reset, Encoder.reset]

theorem CtEntry.codeBit_reset (j : Nat) : CtEntry.reset.codeBit j = false := by
  simp [CtEntry.codeBit, CtEntry.word, CtEntry.reset]

theorem State.node_reset {i : NodeIndex} (h : i ≠ Config.NIL) : State.reset.node i = some .empty := by
  simp [State.node, treeNode, State.reset, Decoder.reset, toNat_lt_of_ne_nil h]

/-- Every register but ID reads 0 after reset. -/
theorem State.reg_reset : ∀ a ∈ legalRegAddrs, State.reset.reg a = some (if a = 0 then Config.ID else 0) := by
  decide

/-- Settles O12: the tables and the registers one by one. -/
theorem resetValuesOfEveryElement : Obligations.ResetValuesOfEveryElement := by
  unfold Obligations.ResetValuesOfEveryElement
  refine ⟨fun y => by rw [State.ctEntry_reset]; rfl, fun y j _ => by rw [State.ctEntry_reset, CtEntry.codeBit_reset],
    rfl, rfl, rfl, rfl, rfl, rfl, fun i hi => State.node_reset hi, rfl, rfl, rfl, rfl, rfl, rfl, rfl, rfl, rfl, rfl, rfl,
    rfl, fun a ha => exec_rdreg (State.reg_reset a ha)⟩

/-- An item offered on a stream is an item of that stream. -/
theorem stream_of_offered {s : State} {o : OutStream} {e : Event} (h : s.offered o = some e) : e.stream = o := by
  have hmem := List.mem_of_mem_head? h
  simpa [onStream] using (List.mem_filter.mp hmem).2

theorem State.encOutData_eq_some {s : State} {b : Byte} : s.encOutData = some b ↔ s.offered .encOut = some (.encByte b) := by
  unfold State.encOutData
  split <;> simp_all

theorem State.decOutData_eq_some {s : State} {y : Symbol} : s.decOutData = some y ↔ s.offered .decOut = some (.decSym y) := by
  unfold State.decOutData
  split <;> simp_all

theorem State.rspData_eq_some {s : State} {w : Word32} : s.rspData = some w ↔ s.offered .rsp = some (.rsp w) := by
  unfold State.rspData
  split <;> simp_all

/-- An item of `enc_out` is a byte, one of `dec_out` a symbol and one of `rsp` a word (20_memory.md R64). -/
theorem offered_isSome_iff (s : State) :
    ((s.offered .encOut).isSome ↔ ∃ b, s.offered .encOut = some (.encByte b)) ∧
    ((s.offered .decOut).isSome ↔ ∃ y, s.offered .decOut = some (.decSym y)) ∧
    ((s.offered .rsp).isSome ↔ ∃ w, s.offered .rsp = some (.rsp w)) := by
  refine ⟨⟨fun h => ?_, fun ⟨b, h⟩ => by simp [h]⟩, ⟨fun h => ?_, fun ⟨y, h⟩ => by simp [h]⟩,
    ⟨fun h => ?_, fun ⟨w, h⟩ => by simp [h]⟩⟩ <;>
    obtain ⟨e, he⟩ := Option.isSome_iff_exists.mp h <;>
    have hstream := stream_of_offered he <;>
    cases e <;> cases hstream <;> exact ⟨_, he⟩

/-- Settles O16: valid and data both follow the oldest waiting item, and the level outputs follow the states. -/
theorem portsShowTheOldestItems : Obligations.PortsShowTheOldestItems := by
  unfold Obligations.PortsShowTheOldestItems
  refine ⟨fun s => ⟨rfl, rfl, rfl, rfl⟩, fun s => ?_, fun _ _ => State.encOutData_eq_some, fun _ _ => State.decOutData_eq_some,
    fun _ _ => State.rspData_eq_some, fun s => ⟨beq_iff_eq, beq_iff_eq, Iff.rfl⟩⟩
  simpa only [State.encOutValid, State.decOutValid, State.rspValid, Bool.true_and, State.encOutData_eq_some,
    State.decOutData_eq_some, State.rspData_eq_some] using offered_isSome_iff s

/-- The bits of a status word: the STATE field, two reserved bits, the ERR field, and above them the field of the engine. -/
theorem getLsbD_statusWord {k : Nat} (top : BitVec k) (err : BitVec 4) (state : BitVec 2) (j : Nat) (hj : j < 32) :
    ((top ++ err ++ (0 : BitVec 2) ++ state).setWidth 32).getLsbD j =
      if j < 2 then state.getLsbD j else if j < 4 then false else if j < 8 then err.getLsbD (j - 4)
      else top.getLsbD (j - 8) := by
  have h4 : j - 2 < 2 ↔ j < 4 := by omega
  have h8 : j - 4 < 4 ↔ j < 8 := by omega
  rw [BitVec.getLsbD_setWidth, BitVec.getLsbD_append, BitVec.getLsbD_append, BitVec.getLsbD_append]
  simp [hj, Nat.sub_sub, h4, h8]

/-- The STATE and ERR fields of a status word, and the bits above them (10_state.md R41, R42). -/
theorem statusWord_fields {k : Nat} (top : BitVec k) (err : BitVec 4) (state : BitVec 2) :
    ((top ++ err ++ (0 : BitVec 2) ++ state).setWidth 32).extractLsb' 0 2 = state ∧
    ((top ++ err ++ (0 : BitVec 2) ++ state).setWidth 32).extractLsb' 2 2 = 0 ∧
    ((top ++ err ++ (0 : BitVec 2) ++ state).setWidth 32).extractLsb' 4 4 = err ∧
    ∀ j, j < 24 → ((top ++ err ++ (0 : BitVec 2) ++ state).setWidth 32).getLsbD (8 + j) = top.getLsbD j := by
  refine ⟨?_, ?_, ?_, fun j hj => ?_⟩
  · ext j hj
    rw [BitVec.getElem_extractLsb', getLsbD_statusWord _ _ _ _ (by omega), if_pos (by omega), Nat.zero_add,
      BitVec.getLsbD_eq_getElem hj]
  · ext j hj
    rw [BitVec.getElem_extractLsb', getLsbD_statusWord _ _ _ _ (by omega), if_neg (by omega), if_pos (by omega)]
    simp
  · ext j hj
    rw [BitVec.getElem_extractLsb', getLsbD_statusWord _ _ _ _ (by omega), if_neg (by omega), if_neg (by omega),
      if_pos (by omega), Nat.add_sub_cancel_left, BitVec.getLsbD_eq_getElem hj]
  · rw [getLsbD_statusWord _ _ _ _ (by omega), if_neg (by omega), if_neg (by omega), if_neg (by omega),
      Nat.add_sub_cancel_left]

theorem EngState.code_eq (state : EngState) :
    state.code = match state with | .idle => 0 | .active => 1 | .done => 2 | .error => 3 := by
  cases state <;> rfl

/-- Settles O39: each field of a status word is a part of the concatenation, and no bit stands above the last one. -/
theorem statusWordsHoldTheirFields : Obligations.StatusWordsHoldTheirFields := by
  unfold Obligations.StatusWordsHoldTheirFields
  refine ⟨fun e => ?_, fun d => ?_, fun c => ⟨?_, ?_⟩⟩
  · obtain ⟨hstate, hzero, herr, htop⟩ := statusWord_fields e.accn e.err e.state.code
    refine ⟨hstate.trans e.state.code_eq, hzero, herr, ?_, ?_⟩
    · ext j hj
      rw [BitVec.getElem_extractLsb', Encoder.status, htop j (by omega), BitVec.getLsbD_eq_getElem hj]
    · ext j hj
      rw [BitVec.getElem_extractLsb', Encoder.status, show 11 + j = 8 + (3 + j) by omega, htop _ (by omega)]
      simp
  · obtain ⟨hstate, hzero, herr, htop⟩ := statusWord_fields (BitVec.ofBool d.extra) d.err d.state.code
    refine ⟨hstate.trans d.state.code_eq, hzero, herr, ?_, ?_⟩
    · rw [Decoder.status, htop 0 (by decide)]
      simp
    · ext j hj
      rw [BitVec.getElem_extractLsb', Decoder.status, show 9 + j = 8 + (1 + j) by omega, htop _ (by omega)]
      simp
  · simp [CommandUnit.status]
  · ext j hj
    simp [CommandUnit.status]

end Sys2Proof.Machine

namespace Sys2Proof.Machine

/-! ## Transfers (20_memory.md R64) -/

/-- Settles O15: the transferred item is erased from the waiting ones, the first of its stream and none of another. -/
theorem transferTakesTheOldestItem : Obligations.TransferTakesTheOldestItem := by
  unfold Obligations.TransferTakesTheOldestItem
  intro s o ms hmove
  refine ⟨s.io.pending.eraseP fun e => e.stream = o, ?_, onStream_eraseP_self o _, fun o' hne => onStream_eraseP_ne hne _⟩
  rw [step_move hmove]
  rfl

/-! ## Reads that repeat and writes that may be repeated (20_memory.md R67) -/

/-- The register map shows nothing of the ports (10_state.md R40). -/
@[simp] theorem State.withEvents_reg (s : State) (es : List Event) (a : BitVec 8) : (s.withEvents es).reg a = s.reg a := rfl

/-- A legal read answers one response, and which one does not depend on the events before it (20_memory.md R67). -/
theorem exists_response_of_isRead {i : Instr} (hread : isRead i = true) (hwf : i.wellFormed = true) (s : State) :
    ∃ w, ∀ es, exec i (s.withEvents es) = .next ((s.withEvents es).withEvents [.rsp w]) := by
  cases i with
  | rdreg a =>
    obtain ⟨w, hw⟩ := Option.isSome_iff_exists.mp ((reg_isSome_iff a).trans hwf)
    exact ⟨w, fun es => exec_rdreg ((s.withEvents_reg es a).trans hw)⟩
  | rdCtlen y => exact ⟨(s.ctEntry y).len.setWidth 32, fun _ => exec_rdCtlen y⟩
  | rdCtword y w => exact ⟨((s.ctEntry y).word w).setWidth 32, fun _ => exec_rdCtword y w⟩
  | rdTree k =>
    obtain ⟨v, hv⟩ := treeNode_isSome s.dec.tree (nodeIndexOk_iff.mp hwf)
    exact ⟨v.word, fun _ => exec_rdTree hv⟩
  | _ => cases hread

theorem CtEntry.setWord_setWord (e : CtEntry) (w : BitVec 4) (d : CodeWord) :
    (e.setWord w d).setWord w d = e.setWord w d := by
  simp [CtEntry.setWord]

/-- A table write that updates an entry by an idempotent `f`, repeated, finds in the entry what it writes. -/
theorem State.writeCt_update_idempotent {f : CtEntry → CtEntry} (hf : ∀ e, f (f e) = f e) {s : State} (y : Symbol)
    (hjob : s.enc.state ≠ .active) :
    ∃ t, s.writeCt y (f (s.ctEntry y)) = t ∧ t.writeCt y (f (t.ctEntry y)) = t := by
  refine ⟨s.setCtEntry y (f (s.ctEntry y)), State.writeCt_of_not_active _ _ hjob, ?_⟩
  rw [State.writeCt_of_not_active _ _ (by rwa [State.setCtEntry_enc_state]), State.ctEntry_setCtEntry_self, hf,
    State.setCtEntry_setCtEntry]

theorem State.writeTree_writeTree {s : State} (k : NodeIndex) (v : Node) (hjob : s.dec.state ≠ .active) :
    (s.writeTree k v).writeTree k v = s.writeTree k v := by
  rw [State.writeTree_of_not_active _ _ hjob, State.writeTree_of_not_active _ _ (by rwa [State.setNode_dec_state]),
    State.setNode_setNode]

theorem State.setN_setN (s : State) (v w : BitVec 32) : (s.setN v).setN w = s.setN w := rfl

theorem setHalf_setHalf (v : BitVec 32) (h : BitVec 1) (d : BitVec 16) : setHalf (setHalf v h d) h d = setHalf v h d := by
  apply BitVec.eq_of_getLsbD_eq
  intro i hi
  rw [setHalf_getLsbD _ _ _ _ hi]
  split
  · next hhalf => rw [setHalf_getLsbD _ _ _ _ hi, if_pos hhalf]
  · rfl

theorem ct_write_idempotent {i : Instr} {y : Symbol} {len : BitVec 8} {w : BitVec 4} {d : CodeWord} {s : State}
    (hi : i = .ctLen y len ∨ i = .ctWord y w d) (hjob : s.enc.state ≠ .active) :
    ∃ t, exec i s = .next t ∧ exec i t = .next t := by
  rcases hi with rfl | rfl
  · obtain ⟨t, honce, htwice⟩ := State.writeCt_update_idempotent (f := fun e => { e with len := len }) (fun _ => rfl) y hjob
    exact ⟨t, by rw [exec_ctLen, honce], by rw [exec_ctLen, htwice]⟩
  · obtain ⟨t, honce, htwice⟩ := State.writeCt_update_idempotent (f := fun e => e.setWord w d)
      (fun e => e.setWord_setWord w d) y hjob
    exact ⟨t, by rw [exec_ctWord, honce], by rw [exec_ctWord, htwice]⟩

/-- A tree or count write of the decoder, repeated, writes the value that stands there. -/
theorem dec_write_idempotent {i : Instr} {k l r : NodeIndex} {y : Symbol} {h : BitVec 1} {d : BitVec 16} {s : State}
    (hi : i = .treeLeaf k y ∨ i = .treeInt k l r ∨ i = .decSetn h d) (hwf : i.wellFormed = true)
    (hjob : s.dec.state ≠ .active) : ∃ t, exec i s = .next t ∧ exec i t = .next t := by
  rcases hi with rfl | rfl | rfl
  · have hk := nodeIndexOk_iff.mp hwf
    exact ⟨_, exec_treeLeaf y hk, by rw [exec_treeLeaf y hk, State.writeTree_writeTree k _ hjob]⟩
  · have hk := nodeIndexOk_iff.mp hwf
    exact ⟨_, exec_treeInt l r hk, by rw [exec_treeInt l r hk, State.writeTree_writeTree k _ hjob]⟩
  · refine ⟨_, exec_decSetn_write h d hjob, ?_⟩
    rw [exec_decSetn_write h d (by rwa [State.setN_dec_state]), State.setN_dec_n, setHalf_setHalf, State.setN_setN]

/-- Settles O44: a read's response does not depend on the ports, where alone it leaves a trace; and a write outside a job puts the
same value in the same place each time. -/
theorem readsArePureAndWritesIdempotent : Obligations.ReadsArePureAndWritesIdempotent := by
  unfold Obligations.ReadsArePureAndWritesIdempotent
  refine ⟨fun i s hread hwf => ?_, fun _ _ _ _ _ _ hi hjob => ct_write_idempotent hi hjob,
    fun _ _ _ _ _ _ _ _ hi hwf hjob => dec_write_idempotent hi hwf hjob⟩
  obtain ⟨w, hw⟩ := exists_response_of_isRead hread hwf s
  exact ⟨w, by simpa only [State.withEvents_nil] using hw [], hw [.rsp w]⟩

end Sys2Proof.Machine

namespace Sys2Proof.Machine

/-! ## Selecting a row of the opcode table (30_encoding.md R91) -/

/-- Settles O2: of two rows that both select a word, the table's rows differ on a bit that both fix. -/
theorem atMostOneRowMatches : Obligations.AtMostOneRowMatches := by
  unfold Obligations.AtMostOneRowMatches
  intro x
  have hdiffer := rows_differ.filter (·.selects x)
  have hsel : ∀ r ∈ opTable.filter (·.selects x), r.selects x = true := fun _ h => (List.mem_filter.mp h).2
  generalize opTable.filter (·.selects x) = rows at hdiffer hsel ⊢
  match rows with
  | [] => exact Nat.zero_le 1
  | [_] => exact Nat.le_refl 1
  | r :: q :: _ =>
    have hagree := selects_agree (hsel r (by simp)) (hsel q (by simp))
    exact absurd hagree (List.rel_of_pairwise_cons hdiffer List.mem_cons_self)

/-- Two rows that select one word are the same row. -/
theorem eq_of_selects {r q : OpRow} {x : Word32} (hr : r ∈ opTable) (hq : q ∈ opTable) (hrx : r.selects x = true)
    (hqx : q.selects x = true) : r = q := by
  obtain ⟨i, hi, rfl⟩ := List.getElem_of_mem hr
  obtain ⟨j, hj, rfl⟩ := List.getElem_of_mem hq
  have hdiffer := List.pairwise_iff_getElem.mp rows_differ
  rcases Nat.lt_trichotomy i j with hlt | rfl | hlt
  · exact absurd (selects_agree hrx hqx) (hdiffer i j hi hj hlt)
  · rfl
  · exact absurd (selects_agree hqx hrx) (hdiffer j i hj hi hlt)

/-- The decoder reads a word by the row that selects it. -/
theorem decode_of_selects {r : OpRow} {x : Word32} (hr : r ∈ opTable) (hrx : r.selects x = true) :
    decode x = checkOperands (r.build x) := by
  obtain ⟨q, hq⟩ := Option.isSome_iff_exists.mp (List.find?_isSome (p := (·.selects x)).mpr ⟨r, hr, hrx⟩)
  have hqx : q.selects x = true := by simpa using List.find?_some hq
  rw [decode_of_find hq, eq_of_selects (List.mem_of_find?_eq_some hq) hr hqx hrx]

/-- Settles O4: the command's word selects the row of its mnemonic, that row reads the operands back, and no other row is in the
way. -/
theorem decodeOfEncode : Obligations.DecodeOfEncode := by
  unfold Obligations.DecodeOfEncode
  intro i hwf
  obtain ⟨r, hr, -, hsel, hbuild⟩ := Laws.EncodeSelectsRow.all i
  rw [decode_of_selects hr hsel, hbuild]
  exact checkOperands_ok_iff.mpr ⟨rfl, hwf⟩

/-! ## A word is its row's pattern and its operand fields (30_encoding.md R82-R89) -/

/-- An operand field, put back in its place: the word's bits there. -/
theorem field_in_place (x : Word32) (lo n : Nat) :
    (x.extractLsb' lo n).setWidth 32 <<< lo = x &&& ((BitVec.allOnes n).setWidth 32 <<< lo) := by
  ext j hj
  by_cases hlo : j < lo
  · simp [hlo]
  · simp [hlo, hj, show lo + (j - lo) = j by omega, Bool.and_comm]

/-- A field in the low bits needs no shift. -/
theorem low_field_in_place (x : Word32) (n : Nat) :
    (x.extractLsb' 0 n).setWidth 32 = x &&& (BitVec.allOnes n).setWidth 32 := by
  simpa using field_in_place x 0 n

/-- The operand fields of a row are all the bits its mask leaves open. -/
theorem encode_build {r : OpRow} (hr : r ∈ opTable) (x : Word32) :
    encode (r.build x) = r.pattern ||| (x &&& ~~~r.mask) := by
  simp only [opTable, List.mem_cons, List.not_mem_nil, or_false] at hr
  rcases hr with rfl | rfl | rfl | rfl | rfl | rfl | rfl | rfl | rfl | rfl | rfl | rfl | rfl | rfl | rfl | rfl | rfl | rfl <;>
    simp only [encode, field_in_place, low_field_in_place, BitVec.or_assoc, ← BitVec.and_or_distrib_left,
      BitVec.reduceNot, BitVec.and_zero, BitVec.or_zero] <;> rfl

/-- A selected word is the row's pattern where the mask fixes it. -/
theorem word_of_selects {r : OpRow} {x : Word32} (h : r.selects x = true) : r.pattern ||| (x &&& ~~~r.mask) = x := by
  simp only [OpRow.selects, beq_iff_eq] at h
  rw [← h, ← BitVec.and_or_distrib_left, BitVec.or_not_self, BitVec.and_allOnes]

/-- Settles O5: an accepted word selects the row that builds the command, and encoding what the row builds puts every bit back: the
fixed ones from the pattern, the open ones from the operands. -/
theorem encodeOfDecode : Obligations.EncodeOfDecode := by
  unfold Obligations.EncodeOfDecode
  intro x i hdecode
  obtain ⟨r, hr, hsel, rfl, hwf⟩ := decode_ok_row hdecode
  exact ⟨by rw [encode_build hr, word_of_selects hsel], hwf⟩

/-- Settles O1: each word, read bit by bit. -/
theorem decodeReadsTheWordsOfTheSpec : Obligations.DecodeReadsTheWordsOfTheSpec := by
  unfold Obligations.DecodeReadsTheWordsOfTheSpec
  decide

/-- Settles O43, by the rule of the control commands for an operand the operand check refuses. -/
theorem illegalOperandsAreIllegalCommands : Obligations.IllegalOperandsAreIllegalCommands := by
  unfold Obligations.IllegalOperandsAreIllegalCommands
  intro i s hwf
  exact exec_of_not_wellFormed hwf

/-! ## The words that match no row (30_encoding.md R91, R93)

A row fixes two things of a word: the bits that tell its format, and the field that the format marks 0. -/

/-- A word with nothing but the bits that tell a format: the opcode, bits 27:26 (for op `0xD`) and bit 18 (for op `0x6`). -/
def formatWord (op : BitVec 4) (sub : BitVec 2) (bit : BitVec 1) : Word32 :=
  op.setWidth 32 <<< 28 ||| sub.setWidth 32 <<< 26 ||| bit.setWidth 32 <<< 18

/-- The format bits of a word, in their places. -/
def formatOf (x : Word32) : Word32 := formatWord (x.extractLsb' 28 4) (x.extractLsb' 26 2) (x.extractLsb' 18 1)

/-- Which of the format bits a row looks at. -/
def formatMask (r : OpRow) : Word32 :=
  if r.pattern.extractLsb' 28 4 = 0x6 then 0xF0040000
  else if r.pattern.extractLsb' 28 4 = 0xD then 0xFC000000
  else 0xF0000000

/-- The word has the format of the row, whatever stands in the field that the format marks 0. -/
def hasFormat (r : OpRow) (x : Word32) : Bool := x &&& formatMask r == r.pattern

theorem formatOf_eq_and (x : Word32) : formatOf x = x &&& 0xFC040000 := by
  simp only [formatOf, formatWord, field_in_place, ← BitVec.and_or_distrib_left]
  rfl

theorem extractLsb'_formatOf {lo n : Nat} (h : (0xFC040000 : Word32).extractLsb' lo n = BitVec.allOnes n) (x : Word32) :
    (formatOf x).extractLsb' lo n = x.extractLsb' lo n := by
  rw [formatOf_eq_and, BitVec.extractLsb'_and, h, BitVec.and_allOnes]

/-- The field marked 0 is chosen by the format bits alone. -/
theorem zeroField_formatOf (x : Word32) : zeroField (formatOf x) = zeroField x := by
  have hbit : (formatOf x).getLsbD 18 = x.getLsbD 18 := by
    rw [formatOf_eq_and, BitVec.getLsbD_and]
    exact Bool.and_true _
  simp only [zeroField, extractLsb'_formatOf (lo := 28) (n := 4) rfl, extractLsb'_formatOf (lo := 26) (n := 2) rfl, hbit]

/-- A row has the format of a word by the word's format bits alone. -/
theorem hasFormat_formatOf {r : OpRow} (hr : r ∈ opTable) (x : Word32) :
    hasFormat r (formatOf x) = hasFormat r x := by
  have hmask : ∀ q ∈ opTable, 0xFC040000 &&& formatMask q = formatMask q := by decide
  rw [hasFormat, formatOf_eq_and, BitVec.and_assoc, hmask r hr, hasFormat]

/-- The format bits that no row has are the reserved ones (30_encoding.md R93). -/
theorem exists_format_iff : ∀ op sub bit,
    (∃ r ∈ opTable, hasFormat r (formatWord op sub bit) = true) ↔ ¬(op = 0xF ∨ op = 0xD ∧ sub = 3) := by
  decide

/-- A row fixes its format bits and the field that the format marks 0, that one to 0 (30_encoding.md R82-R91). -/
theorem mask_of_hasFormat : ∀ r ∈ opTable, ∀ op sub bit, hasFormat r (formatWord op sub bit) = true →
    r.mask = formatMask r ||| zeroField (formatWord op sub bit) ∧
      r.mask &&& zeroField (formatWord op sub bit) = zeroField (formatWord op sub bit) ∧
      r.pattern &&& zeroField (formatWord op sub bit) = 0 := by
  decide

theorem hasFormat_of_selects {r : OpRow} (hr : r ∈ opTable) {x : Word32} (h : r.selects x = true) :
    hasFormat r x = true := by
  have htable : ∀ q ∈ opTable, q.mask &&& formatMask q = formatMask q ∧ hasFormat q q.pattern = true := by
    decide
  obtain ⟨hmask, hpattern⟩ := htable r hr
  simp only [OpRow.selects, hasFormat, beq_iff_eq] at h hpattern ⊢
  rw [← hmask, ← BitVec.and_assoc, h, hpattern]

/-- A row selects the words of its format with 0 in the field that the format marks 0. -/
theorem selects_iff {r : OpRow} (hr : r ∈ opTable) (x : Word32) :
    r.selects x = true ↔ hasFormat r x = true ∧ x &&& zeroField x = 0 := by
  by_cases hformat : hasFormat r x = true
  · obtain ⟨hmask, hzero, hpattern⟩ := mask_of_hasFormat r hr _ _ _ ((hasFormat_formatOf hr x).trans hformat)
    rw [← formatOf, zeroField_formatOf] at hmask hzero hpattern
    simp only [hformat, true_and]
    simp only [hasFormat, OpRow.selects, beq_iff_eq] at hformat ⊢
    constructor
    · intro h
      rw [← hzero, ← BitVec.and_assoc, h, hpattern]
    · intro h
      rw [hmask, BitVec.and_or_distrib_left, hformat, h]
      exact BitVec.or_zero
  · exact iff_of_false (fun h => hformat (hasFormat_of_selects hr h)) (fun h => hformat h.1)

/-- Settles O3: no row selects a word when no row has its format, which are the reserved ones, or when its format's zero field is
not 0. -/
theorem wordsThatMatchNoRow : Obligations.WordsThatMatchNoRow := by
  unfold Obligations.WordsThatMatchNoRow
  intro x
  have hformats : (∃ r ∈ opTable, hasFormat r x = true) ↔
      ¬(x.extractLsb' 28 4 = 0xF ∨ x.extractLsb' 28 4 = 0xD ∧ x.extractLsb' 26 2 = 3) := by
    rw [← exists_format_iff _ _ (x.extractLsb' 18 1)]
    exact exists_congr fun r => and_congr_right fun hr => by rw [← formatOf, hasFormat_formatOf hr]
  calc (∀ r ∈ opTable, r.selects x = false)
      ↔ ¬∃ r ∈ opTable, r.selects x = true := by simp
    _ ↔ ¬((∃ r ∈ opTable, hasFormat r x = true) ∧ x &&& zeroField x = 0) := by
      rw [← exists_and_right]
      exact not_congr (exists_congr fun r => by rw [and_assoc, and_congr_right (selects_iff · x)])
    _ ↔ _ := by rw [hformats, not_and_or, not_not, or_assoc, ne_eq]

/-! ## The pseudo-commands (30_encoding.md R97) -/

theorem runCommands_cons {i : Instr} {is : List Instr} {s t : State} (h : exec i s = .next t) :
    runCommands (i :: is) s = runCommands is t := by
  simp only [runCommands, h]

theorem runCommands_append {is : List Instr} {s t : State} (h : runCommands is s = .next t) (js : List Instr) :
    runCommands (is ++ js) s = runCommands js t := by
  induction is generalizing s with
  | nil =>
    cases h
    rfl
  | cons i is ih =>
    obtain ⟨u, hu, -⟩ := exec_effect i s
    rw [runCommands_cons hu] at h
    rw [List.cons_append, runCommands_cons hu, ih h]

/-- Outside a job a code-table command writes its entry. -/
theorem exec_ctLen_write {s : State} (hjob : s.enc.state ≠ .active) (y : Symbol) (len : BitVec 8) :
    exec (.ctLen y len) s = .next (s.setCtEntry y { s.ctEntry y with len := len }) := by
  rw [exec_ctLen, State.writeCt_of_not_active _ _ hjob]

theorem exec_ctWord_write {s : State} (hjob : s.enc.state ≠ .active) (y : Symbol) (w : BitVec 4) (d : CodeWord) :
    exec (.ctWord y w d) s = .next (s.setCtEntry y ((s.ctEntry y).setWord w d)) := by
  rw [exec_ctWord, State.writeCt_of_not_active _ _ hjob]

/-- Settles O7: the two halves make the whole of DEC_N, and CT_LEN with length 0 writes the length alone. -/
theorem pseudoCommandsSetAndClear : Obligations.PseudoCommandsSetAndClear := by
  unfold Obligations.PseudoCommandsSetAndClear
  constructor
  · intro n s hjob
    rw [decSetn32, runCommands_cons (exec_decSetn_write 0 _ hjob),
      runCommands_cons (exec_decSetn_write 1 _ (by rwa [State.setN_dec_state])), State.setN_dec_n, setHalf_both,
      State.setN_setN]
    rfl
  · intro y s hjob
    refine ⟨_, runCommands_cons (exec_ctLen_write hjob y 0), ?_, ?_, fun z hz => State.ctEntry_setCtEntry_ne _ _ _ _ hz,
      State.setCtEntry_frame _ _ _⟩ <;> rw [State.ctEntry_setCtEntry_self]

/-- The entry with the first `n` words of a code written in it. -/
def CtEntry.loadWords (e : CtEntry) (code : List Bool) : Nat → CtEntry
  | 0 => e
  | n + 1 => (e.loadWords code n).setWord (BitVec.ofNat 4 n) (codeWordOf code n)

/-- The words that CT_LOAD sends are written in the entry, one by one. -/
theorem runCommands_ctWords {s : State} (hjob : s.enc.state ≠ .active) (y : Symbol) (code : List Bool) (n : Nat) :
    runCommands ((List.range n).map fun w => .ctWord y (BitVec.ofNat 4 w) (codeWordOf code w)) s =
      .next (s.setCtEntry y ((s.ctEntry y).loadWords code n)) := by
  induction n with
  | zero => rw [CtEntry.loadWords, State.setCtEntry_ctEntry_self]; rfl
  | succ n ih =>
    rw [List.range_succ, List.map_append, runCommands_append ih, List.map_singleton,
      runCommands_cons (exec_ctWord_write (by rwa [State.setCtEntry_enc_state]) _ _ _), State.ctEntry_setCtEntry_self,
      State.setCtEntry_setCtEntry]
    rfl

/-- The entry with a code written in it: the words that hold its bits, and its length. -/
def CtEntry.loadCode (e : CtEntry) (code : List Bool) : CtEntry :=
  { e.loadWords code ((code.length + 15) / 16) with len := BitVec.ofNat 8 code.length }

/-- Outside a job CT_LOAD writes its entry: the words, then the length. -/
theorem runCommands_ctLoad {s : State} (hjob : s.enc.state ≠ .active) (y : Symbol) (code : List Bool) :
    runCommands (ctLoad y code) s = .next (s.setCtEntry y ((s.ctEntry y).loadCode code)) := by
  rw [ctLoad, runCommands_append (runCommands_ctWords hjob y code _),
    runCommands_cons (exec_ctLen_write (by rwa [State.setCtEntry_enc_state]) _ _), State.ctEntry_setCtEntry_self,
    State.setCtEntry_setCtEntry]
  rfl

/-- Code bit `j` after the first `n` words of a code: a bit of the code in those words, 0 past its end, and past them as before
(20_memory.md R63). -/
theorem codeBit_loadWords (e : CtEntry) (code : List Bool) {n : Nat} (hn : n ≤ 16) {j : Nat} (hj : j < 256) :
    (e.loadWords code n).codeBit j = if j < 16 * n then code.getD j false else e.codeBit j := by
  induction n with
  | zero => rfl
  | succ n ih =>
    rw [CtEntry.loadWords]
    have hword : (BitVec.ofNat 4 n).toNat = n := by rw [BitVec.toNat_ofNat]; omega
    by_cases hjn : j / 16 = n
    · have hbit : j = 16 * n + j % 16 := by omega
      rw [if_pos (by omega), CtEntry.codeBit, hjn, CtEntry.word_setWord_self, codeWordOf_getMsbD _ _ _ (by omega), ← hbit]
    · rw [CtEntry.codeBit_setWord_ne _ _ _ _ hj (by rwa [hword]), ih (by omega)]
      exact if_congr (by omega) rfl rfl

theorem codeBit_loadCode (e : CtEntry) {code : List Bool} (hmax : code.length ≤ 255) {j : Nat} (hj : j < 256) :
    (e.loadCode code).codeBit j = if j < 16 * ((code.length + 15) / 16) then code.getD j false else e.codeBit j :=
  codeBit_loadWords e code (by omega) hj

/-- The loaded entry holds exactly the code (30_encoding.md R97). -/
theorem codeBits_loadCode (e : CtEntry) {code : List Bool} (hmax : code.length ≤ 255) :
    (e.loadCode code).codeBits = code := by
  apply List.ext_getElem
  · rw [CtEntry.codeBits_length, CtEntry.loadCode, BitVec.toNat_ofNat]
    omega
  · intro j _ hj
    simp only [CtEntry.codeBits, List.getElem_map, List.getElem_range]
    rw [codeBit_loadCode e hmax (by omega), if_pos (by omega), List.getD_eq_getElem _ _ hj]

/-- Settles O6: the commands write one entry, and its code bits are those of the code in the words it fills. -/
theorem ctLoadLoadsTheCode : Obligations.CtLoadLoadsTheCode := by
  unfold Obligations.CtLoadLoadsTheCode
  intro y code s _ hmax hjob
  refine ⟨_, runCommands_ctLoad hjob y code, ?_, fun j hj hend => ?_, fun j hend hj => ?_,
    fun z hz => State.ctEntry_setCtEntry_ne _ _ _ _ hz, State.setCtEntry_frame _ _ _⟩ <;>
    rw [State.ctEntry_setCtEntry_self]
  · exact codeBits_loadCode _ hmax
  · rw [codeBit_loadCode _ hmax (by omega), if_pos hend, List.getD_eq_default _ _ hj]
  · rw [codeBit_loadCode _ hmax hj, if_neg (by omega)]

end Sys2Proof.Machine

namespace Sys2Proof.Machine

/-! ## The code-table commands (41_encoder.md R113, R114) -/

/-- Settles O19: in a job the write is refused, else it puts back the entry with another length and the same code words. -/
theorem ctLenWritesTheLength : Obligations.CtLenWritesTheLength := by
  unfold Obligations.CtLenWritesTheLength
  intro y len s
  refine ⟨rfl, fun hactive => ?_, fun hjob => ⟨_, exec_ctLen_write hjob y len, ?_, ?_,
    fun z hz => State.ctEntry_setCtEntry_ne _ _ _ _ hz, State.setCtEntry_frame _ _ _⟩⟩
  · rw [exec_ctLen, State.writeCt_of_active _ _ hactive]
  all_goals rw [State.ctEntry_setCtEntry_self]

/-- Settles O20: in a job the write is refused, else it puts back the entry with one word replaced, which holds sixteen of its code
bits. -/
theorem ctWordWritesSixteenCodeBits : Obligations.CtWordWritesSixteenCodeBits := by
  unfold Obligations.CtWordWritesSixteenCodeBits
  intro y w d s
  refine ⟨rfl, fun hactive => ?_, fun hjob => ⟨_, exec_ctWord_write hjob y w d, fun k hk => ?_, fun j hj hw => ?_, ?_,
    fun z hz => State.ctEntry_setCtEntry_ne _ _ _ _ hz, State.setCtEntry_frame _ _ _⟩⟩
  · rw [exec_ctWord, State.writeCt_of_active _ _ hactive]
  all_goals rw [State.ctEntry_setCtEntry_self]
  · exact CtEntry.codeBit_setWord_self _ _ _ _ hk
  · exact CtEntry.codeBit_setWord_ne _ _ _ _ hj hw
  · exact CtEntry.setWord_len _ _ _

/-! ## The commands of an encoder job, one by one (41_encoder.md R115-R118) -/

/-- Settles O21: the command answers the opened job in every state. -/
theorem encStartOpensAJob : Obligations.EncStartOpensAJob := by
  unfold Obligations.EncStartOpensAJob
  exact ⟨rfl, exec_encStart⟩

/-- Appending a code: the whole bytes of the pending bits and the code are emitted, the rest stays pending, and the symbol is
counted (41_encoder.md R116, R117). -/
theorem State.appendCode_packs {s : State} (hpad : s.enc.PadZero) (e : CtEntry) {bits : List Bool}
    (hbits : s.enc.pendingBits ++ e.codeBits = bits) : ∃ acc accn,
      s.appendCode e =
        ((s.setPacker acc accn).countSymbol e.len).withEvents ((payload (bits.take (8 * (bits.length / 8)))).map .encByte) ∧
      (s.appendCode e).enc.pendingBits = bits.drop (8 * (bits.length / 8)) ∧ (s.appendCode e).enc.PadZero := by
  subst hbits
  obtain ⟨acc, accn, hfold, hpending, hpad'⟩ := foldl_packBit e.codeBits s hpad
  rw [State.appendCode, hfold]
  exact ⟨acc, accn, rfl, hpending, hpad'⟩

/-- Settles O22: the checks of ENC_SYM in the order of R206, then the code appended. -/
theorem encSymAppendsTheCode : Obligations.EncSymAppendsTheCode := by
  unfold Obligations.EncSymAppendsTheCode
  intro y s
  refine ⟨rfl, exec_encSym_error y, exec_encSym_noJob y, exec_encSym_unknown y, exec_encSym_overflow y,
    fun hactive hcode hcount hpad => ?_⟩
  obtain ⟨acc, accn, happend, hpending, hpad'⟩ := State.appendCode_packs hpad (s.ctEntry y) rfl
  exact ⟨_, acc, accn, exec_encSym_append y hactive hcode hcount, happend, hpending, hpad'⟩

/-- Settles O23: the checks of ENC_FINISH in order, then the packer flushed with or without a pending bit. -/
theorem encFinishFlushesTheLastByte : Obligations.EncFinishFlushesTheLastByte := by
  unfold Obligations.EncFinishFlushesTheLastByte
  refine ⟨rfl, fun s => ⟨exec_encFinish_error, exec_encFinish_noJob, exec_encFinish_empty,
    fun hactive hcount hempty => ?_, fun hactive hcount hpending => ?_⟩⟩ <;> rw [exec_encFinish_flush hactive hcount]
  · rw [State.flushPacker_empty hempty]
    rfl
  · rw [State.flushPacker_pending hpending]
    rfl

end Sys2Proof.Machine

namespace Sys2Proof.Machine

/-! ## The bytes of a whole job (41_encoder.md R116, R118, R120) -/

/-- After whole bytes the payload starts again. -/
theorem payload_append_of_dvd {whole : List Bool} (h : 8 ∣ whole.length) (rest : List Bool) :
    payload (whole ++ rest) = payload whole ++ payload rest := by
  obtain ⟨n, hn⟩ := h
  induction n generalizing whole with
  | zero => simp [List.length_eq_zero_iff.mp hn]
  | succ n ih =>
    have hfirst : (whole.take 8).length = 8 := by simp; omega
    have hothers : (whole.drop 8).length = 8 * n := by simp; omega
    rw [← List.take_append_drop 8 whole, List.append_assoc, payload_append_eight _ _ hfirst, ih hothers,
      payload_append_eight _ _ hfirst, List.cons_append]

theorem onStream_encOut_encBytes (bs : List Byte) : onStream .encOut (bs.map .encByte) = bs.map .encByte :=
  List.filter_eq_self.mpr (by simp [Event.stream])

/-- ENC_FINISH emits the payload of the pending bits, which are fewer than eight, and empties the packer (41_encoder.md R118). -/
theorem State.flushPacker_emits {s : State} (hpad : s.enc.PadZero) :
    s.flushPacker = (s.setPacker 0 0).withEvents ((payload s.enc.pendingBits).map .encByte) := by
  by_cases hn : s.enc.accn = 0
  · have hnone : s.enc.pendingBits = [] := by simp [Encoder.pendingBits, hn]
    have hacc := hpad.acc_eq_zero hn
    rw [State.flushPacker_empty hn, hnone, payload_nil, List.map_nil, State.withEvents_nil, State.setPacker, ← hn, ← hacc]
  · have hsome : s.enc.pendingBits ≠ [] := by
      rw [← List.length_pos_iff, Encoder.pendingBits_length]
      bv_omega
    have hfew : s.enc.pendingBits.length < 8 := by
      rw [Encoder.pendingBits_length]
      exact Nat.lt_succ_of_le s.enc.accn_le
    rw [State.flushPacker_pending hn, payload_short _ hsome hfew, ← Encoder.acc_eq_payloadByte _ hpad]
    rfl

/-- The bits `bits` have gone into the packer since the log was `log`: their whole bytes are emitted, the rest is pending. -/
def Packed (log : List Event) (bits : List Bool) (t : State) : Prop :=
  ∃ whole es, t.io.log = log ++ es ∧ onStream .encOut es = (payload whole).map .encByte ∧ 8 ∣ whole.length ∧
    whole ++ t.enc.pendingBits = bits

theorem Packed.openEncJob (s : State) : Packed s.io.log [] s.openEncJob :=
  ⟨[], [], by simp, rfl, dvd_zero 8, rfl⟩

section
variable {log : List Event} {bits : List Bool} {s : State} (h : Packed log bits s)
include h

/-- A code appended: the bytes that it completes follow those emitted before. -/
theorem Packed.appendCode (hpad : s.enc.PadZero) (e : CtEntry) : Packed log (bits ++ e.codeBits) (s.appendCode e) := by
  obtain ⟨whole, es, hlog, hbytes, hdvd, rfl⟩ := h
  obtain ⟨new, hnew⟩ : ∃ new, s.enc.pendingBits ++ e.codeBits = new := ⟨_, rfl⟩
  obtain ⟨acc, accn, happend, hpending, -⟩ := State.appendCode_packs hpad e hnew
  refine ⟨whole ++ new.take (8 * (new.length / 8)),
    es ++ (payload (new.take (8 * (new.length / 8)))).map .encByte, ?_, ?_, ?_, ?_⟩
  · rw [happend, ← List.append_assoc, ← hlog]
    rfl
  · rw [onStream_append, hbytes, onStream_encOut_encBytes, payload_append_of_dvd hdvd, List.map_append]
  · rw [List.length_append, List.length_take, Nat.min_eq_left (Nat.mul_div_le _ _)]
    exact dvd_add hdvd (dvd_mul_right 8 _)
  · rw [hpending, List.append_assoc, List.take_append_drop, List.append_assoc, hnew]

/-- A command that leaves the encoder alone and emits no byte leaves the packed bits as they are. -/
theorem Packed.of_enc_eq {t : State} {es : List Event} (henc : t.enc = s.enc) (hlog : t.io.log = s.io.log ++ es)
    (hes : onStream .encOut es = []) : Packed log bits t := by
  obtain ⟨whole, fs, hlog', hbytes, hdvd, hbits⟩ := h
  refine ⟨whole, fs ++ es, ?_, ?_, hdvd, henc ▸ hbits⟩
  · rw [hlog, hlog', List.append_assoc]
  · rw [onStream_append, hes, List.append_nil, hbytes]

/-- The flushed packer has emitted the payload of all the bits. -/
theorem Packed.flushPacker (hpad : s.enc.PadZero) :
    ∃ es, s.flushPacker.io.log = log ++ es ∧ onStream .encOut es = (payload bits).map .encByte := by
  obtain ⟨whole, es, hlog, hbytes, hdvd, rfl⟩ := h
  refine ⟨es ++ (payload s.enc.pendingBits).map .encByte, ?_, ?_⟩
  · rw [State.flushPacker_emits hpad, ← List.append_assoc, ← hlog]
    rfl
  · rw [onStream_append, hbytes, onStream_encOut_encBytes, payload_append_of_dvd hdvd, List.map_append]

end

/-! ## A job that reaches DONE (41_encoder.md R119, R120) -/

/-- In `t` a job that was opened in `s` is ACTIVE, and has encoded and packed the symbols `xs` by the code table of `s`. -/
structure JobInProgress (s : State) (xs : List Symbol) (t : State) : Prop where
  active : t.enc.state = .active
  inv : EncInv t.enc
  encoded : EncodedSoFar s xs t
  packed : Packed s.io.log (xs.flatMap fun x => (s.ctEntry x).codeBits) t

theorem JobInProgress.openEncJob (s : State) : JobInProgress s [] s.openEncJob where
  active := rfl
  inv := .openEncJob s
  encoded := OpenEncJob.opened s rfl
  packed := .openEncJob s

/-- A command that is allowed in a job and gives the encoder no symbol leaves the encoder alone and emits no payload byte. -/
theorem Effect.leaves_encoder {i : Instr} {u v : State} (h : Effect i u v) (hi : breaksEncJob i = false)
    (hsym : symbolGiven i = none) :
    v.enc = u.enc ∧ ∃ es, v.io.log = u.io.log ++ es ∧ onStream .encOut es = [] := by
  have hstart : i ≠ .encStart := by rintro rfl; cases hi
  have hfinish : i ≠ .encFinish := by rintro rfl; cases hi
  have hencSym (y) : i ≠ .encSym y := by rintro rfl; cases hsym
  have hctLen (y len) : i ≠ .ctLen y len := by rintro rfl; cases hi
  have hctWord (y w d) : i ≠ .ctWord y w d := by rintro rfl; cases hi
  constructor
  · have hct := h.ct_writers.resolve_right (by simp [hctLen, hctWord])
    obtain ⟨hstate, herr⟩ := h.encState_writers.resolve_right (by simp [hstart, hencSym, hfinish, hctLen, hctWord])
    obtain ⟨hacc, haccn, hcount, hbits⟩ := h.packer_writers.resolve_right (by simp [hstart, hencSym, hfinish])
    exact Encoder.ext hct hstate herr hacc haccn hcount hbits
  · obtain ⟨es, hio, -, hfrom⟩ := h.appendsEvents
    refine ⟨es, by rw [hio, State.withEvents_io_log], List.filter_eq_nil_iff.mpr fun e he => ?_⟩
    cases e with
    | encByte b => exact absurd (hfrom _ he) (by simp [Event.From, hencSym, hfinish])
    | decSym | rsp => simp [Event.stream]

theorem eq_encSym_of_symbolGiven {i : Instr} {y : Symbol} (h : symbolGiven i = some y) : i = .encSym y := by
  cases i with
  | encSym => cases h; rfl
  | _ => cases h

section
variable {s u : State} {xs : List Symbol} (h : JobInProgress s xs u)
include h

/-- A symbol with a code is appended by the code table that the job was opened with, as long as the count does not wrap. -/
theorem JobInProgress.afterSymbol {y : Symbol} (hlt : (xs ++ [y]).length < 2 ^ 32) (hcode : (s.ctEntry y).len ≠ 0) :
    exec (.encSym y) u = .next (u.appendCode (u.ctEntry y)) ∧ JobInProgress s (xs ++ [y]) (u.appendCode (u.ctEntry y)) := by
  obtain ⟨hactive, hinv, hencoded, hpacked⟩ := h
  have hentry : u.ctEntry y = s.ctEntry y := State.ctEntry_congr hencoded.ct y
  have hcount : u.enc.count ≠ 0xFFFFFFFF := by
    have hn := hencoded.count
    rw [List.length_append, List.length_singleton, ← hn] at hlt
    bv_omega
  refine ⟨exec_encSym_append y hactive (by rwa [hentry]) hcount, ?_, hinv.appendCode hactive hcount _,
    hencoded.appendCode hcount y, ?_⟩
  · obtain ⟨acc, accn, es, hframe⟩ := u.appendCode_frame (u.ctEntry y)
    rw [hframe]
    exact hactive
  · rw [List.flatMap_append, List.flatMap_singleton, ← hentry]
    exact hpacked.appendCode hinv.padZero _

/-- A command without a symbol keeps the job as it is. -/
theorem JobInProgress.of_enc_eq {v : State} {es : List Event} (henc : v.enc = u.enc) (hlog : v.io.log = u.io.log ++ es)
    (hes : onStream .encOut es = []) : JobInProgress s xs v := by
  obtain ⟨hactive, hinv, ⟨hct, hcount, hbits⟩, hpacked⟩ := h
  rw [← henc] at hactive hinv hct hcount hbits
  exact ⟨hactive, hinv, ⟨hct, hcount, hbits⟩, hpacked.of_enc_eq henc hlog hes⟩

/-- One command of a job, with or without a symbol. -/
theorem JobInProgress.afterCommand {i : Instr} (hi : breaksEncJob i = false) (hlt : (xs ++ encodedSymbols [i]).length < 2 ^ 32)
    (hcodes : ∀ x ∈ encodedSymbols [i], (s.ctEntry x).len ≠ 0) :
    ∃ v, exec i u = .next v ∧ JobInProgress s (xs ++ encodedSymbols [i]) v := by
  cases hsym : symbolGiven i with
  | none =>
    obtain ⟨v, hexec, heffect⟩ := exec_effect i u
    obtain ⟨henc, es, hlog, hes⟩ := heffect.leaves_encoder hi hsym
    rw [encodedSymbols_singleton_of_none hsym, List.append_nil]
    exact ⟨v, hexec, h.of_enc_eq henc hlog hes⟩
  | some y =>
    obtain rfl := eq_encSym_of_symbolGiven hsym
    exact ⟨_, h.afterSymbol hlt (hcodes y List.mem_cons_self)⟩

/-- The commands of a job, one after the other. -/
theorem JobInProgress.afterCommands {is : List Instr} (hi : ∀ i ∈ is, breaksEncJob i = false)
    (hlt : (xs ++ encodedSymbols is).length < 2 ^ 32) (hcodes : ∀ x ∈ encodedSymbols is, (s.ctEntry x).len ≠ 0) :
    ∃ v, runCommands is u = .next v ∧ JobInProgress s (xs ++ encodedSymbols is) v := by
  induction is generalizing u xs with
  | nil => exact ⟨u, rfl, by rwa [encodedSymbols, List.filterMap_nil, List.append_nil]⟩
  | cons i is ih =>
    have hsplit : encodedSymbols (i :: is) = encodedSymbols [i] ++ encodedSymbols is := encodedSymbols_append [i] is
    rw [hsplit, ← List.append_assoc] at hlt ⊢
    rw [hsplit, List.forall_mem_append] at hcodes
    obtain ⟨hcode, hcodes⟩ := hcodes
    obtain ⟨hhead, htail⟩ := List.forall_mem_cons.mp hi
    obtain ⟨w, hexec, hw⟩ := h.afterCommand hhead (by rw [List.length_append] at hlt; omega) hcode
    obtain ⟨v, hrun, hv⟩ := ih hw htail hlt hcodes
    exact ⟨v, by rw [runCommands_cons hexec, hrun], hv⟩

/-- ENC_FINISH ends a job that has a symbol, and the payload of its codes is complete. -/
theorem JobInProgress.afterFinish (hxs : xs ≠ []) :
    ∃ t es, exec .encFinish u = .next t ∧ t.enc.state = .done ∧ t.enc.err = 0 ∧ EncodedSoFar s xs t ∧
      t.io.log = s.io.log ++ es ∧
      onStream .encOut es = (payload (xs.flatMap fun x => (s.ctEntry x).codeBits)).map .encByte := by
  obtain ⟨hactive, hinv, ⟨hct, hcount, hbits⟩, hpacked⟩ := h
  have hpos := List.length_pos_of_ne_nil hxs
  have hsome : u.enc.count ≠ 0 := by
    rw [← hcount] at hpos
    bv_omega
  obtain ⟨es, hlog, hes⟩ := hpacked.flushPacker hinv.padZero
  exact ⟨u.flushPacker.encDone, es, exec_encFinish_flush hactive hsome, rfl,
    (hinv.flushPacker_encDone hactive).err.mpr nofun, ⟨by simpa using hct, by simpa using hcount, by simpa using hbits⟩,
    hlog, hes⟩

end

/-- Settles O24: ENC_START opens the job, each command inside keeps its account of the symbols and of their bits, and ENC_FINISH
flushes what is left of them. -/
theorem encoderJobEmitsThePayload : Obligations.EncoderJobEmitsThePayload := by
  unfold Obligations.EncoderJobEmitsThePayload
  intro s is hi hsome hlt hcodes
  obtain ⟨u, hrun, hjob⟩ := (JobInProgress.openEncJob s).afterCommands hi hlt hcodes
  obtain ⟨t, es, hfinish, hdone, herr, ⟨hct, hcount, hbits⟩, hlog, hes⟩ := hjob.afterFinish hsome
  refine ⟨t, es, ?_, hdone, herr, hcount, hbits, hlog, hes, hct⟩
  rw [runCommands_cons (exec_encStart s), runCommands_append hrun, runCommands_cons hfinish]
  rfl

end Sys2Proof.Machine

namespace Sys2Proof.Machine

/-! ## The check of DEC_START accepts every full tree (42_decoder.md R144, R145)

The converse of `soundSubtrees_of_treeLoop`: subtrees without a broken or shared node stay so when the top of the stack is popped and
its children are pushed, and every pass visits a new one of the 511 nodes, so the loop ends before the fuel does. -/

section
variable {t : Vector Node Config.T_NODES} {visited stack : List NodeIndex} {i l r : NodeIndex}

/-- The popped node is in no other subtree of the stack. -/
theorem SoundSubtrees.pop (h : SoundSubtrees t visited (i :: stack)) : SoundSubtrees t (i :: visited) stack := by
  obtain ⟨hwritten, hunique, hdisjoint⟩ := h
  obtain ⟨hi, hdisjoint⟩ := List.pairwise_cons.mp hdisjoint
  refine ⟨fun k hk p j hp => ?_, fun k hk => hunique k (List.mem_cons_of_mem _ hk), hdisjoint⟩
  obtain ⟨hnil, hempty, hj⟩ := hwritten k (List.mem_cons_of_mem _ hk) p j hp
  refine ⟨hnil, hempty, List.not_mem_cons_of_ne_of_not_mem ?_ hj⟩
  rintro rfl
  exact hi k hk [] p j rfl hp

/-- A path from a child, as a path from its parent. -/
theorem followPath_child (hi : treeNode t i = some (.internal l r)) (b : Bool) (p : List Bool) :
    followPath t i (b :: p) = followPath t (if b then r else l) p := by
  rw [followPath, child_eq_some.mpr ⟨l, r, hi, rfl⟩, Option.bind_some]

/-- A popped INTERNAL node leaves the subtrees of its two children. -/
theorem SoundSubtrees.pop_push (hi : treeNode t i = some (.internal l r)) (h : SoundSubtrees t visited (i :: stack)) :
    SoundSubtrees t (i :: visited) (r :: l :: stack) := by
  have hpop := h.pop
  obtain ⟨hwritten, hunique, hdisjoint⟩ := h
  have hstack := (List.pairwise_cons.mp hdisjoint).1
  have hl (p) : followPath t l p = followPath t i (false :: p) := (followPath_child hi false p).symm
  have hr (p) : followPath t r p = followPath t i (true :: p) := (followPath_child hi true p).symm
  have hnew : ∀ b p j, followPath t i (b :: p) = some j → j ≠ Config.NIL ∧ treeNode t j ≠ some .empty ∧ j ∉ i :: visited := by
    intro b p j hp
    obtain ⟨hnil, hempty, hj⟩ := hwritten i List.mem_cons_self _ j hp
    refine ⟨hnil, hempty, List.not_mem_cons_of_ne_of_not_mem ?_ hj⟩
    rintro rfl
    cases hunique j List.mem_cons_self _ [] j hp rfl
  have hchild : ∀ b p q j, followPath t i (b :: p) = some j → followPath t i (b :: q) = some j → p = q :=
    fun b p q j hp hq => (List.cons.inj (hunique i List.mem_cons_self _ _ j hp hq)).2
  constructor
  · simp only [List.forall_mem_cons, hl, hr]
    exact ⟨hnew true, hnew false, hpop.written⟩
  · simp only [List.forall_mem_cons, UniquePaths, hl, hr]
    exact ⟨hchild true, hchild false, hpop.unique⟩
  · simp only [List.pairwise_cons, List.forall_mem_cons, DisjointSubtrees, hl, hr]
    refine ⟨⟨fun p q j hp hq => ?_, fun k hk p => hstack k hk _⟩, fun k hk p => hstack k hk _, hpop.disjoint⟩
    cases hunique i List.mem_cons_self _ _ j hp hq

/-- Of the 511 nodes no more can be visited. -/
theorem length_visited_le (hnodup : visited.Nodup) (hnil : Config.NIL ∉ visited) : visited.length ≤ 511 := by
  have hinj : (visited.map BitVec.toNat).Nodup := hnodup.map fun _ _ => BitVec.eq_of_toNat_eq
  have hrange : visited.map BitVec.toNat ⊆ List.range 511 := by
    intro n hn
    obtain ⟨j, hj, rfl⟩ := List.mem_map.mp hn
    exact List.mem_range.mpr (toNat_lt_of_ne_nil fun h => hnil (h ▸ hj))
  simpa using (hinj.subperm hrange).length_le

/-- The loop of ValidTree accepts subtrees without broken or shared nodes, with fuel for the nodes not visited yet. -/
theorem treeLoop_of_soundSubtrees {fuel : Nat} (h : SoundSubtrees t visited stack) (hnodup : visited.Nodup)
    (hnil : Config.NIL ∉ visited) (hfuel : 511 ≤ fuel + visited.length) : treeLoop t fuel visited stack = true := by
  induction fuel generalizing visited stack with
  | zero =>
    cases stack with
    | nil => rfl
    | cons i stack =>
      obtain ⟨hi, -, hnew⟩ := h.written i List.mem_cons_self [] i rfl
      have hle := length_visited_le (List.nodup_cons.mpr ⟨hnew, hnodup⟩) (List.not_mem_cons_of_ne_of_not_mem hi.symm hnil)
      rw [List.length_cons] at hle
      omega
  | succ fuel ih =>
    cases stack with
    | nil => rfl
    | cons i stack =>
      obtain ⟨hi, hempty, hnew⟩ := h.written i List.mem_cons_self [] i rfl
      have hnodup' : (i :: visited).Nodup := List.nodup_cons.mpr ⟨hnew, hnodup⟩
      have hnil' : Config.NIL ∉ i :: visited := List.not_mem_cons_of_ne_of_not_mem hi.symm hnil
      have hfuel' : 511 ≤ fuel + (i :: visited).length := by rw [List.length_cons]; omega
      obtain ⟨v, hv⟩ := treeNode_isSome t hi
      rw [treeLoop, if_neg hi, if_neg hnew]
      cases v with
      | empty => exact absurd hv hempty
      | leaf y => simpa only [hv] using ih h.pop hnodup' hnil' hfuel'
      | internal l r => simpa only [hv] using ih (h.pop_push hv) hnodup' hnil' hfuel'

theorem FullTree.root_internal (h : FullTree t) : isInternal t Config.ROOT = true := h.1

theorem FullTree.written (h : FullTree t) {p : List Bool} (hp : nodeAt t p = some i) :
    i ≠ Config.NIL ∧ treeNode t i ≠ some .empty :=
  h.2.1 p i hp

theorem FullTree.unique (h : FullTree t) : UniquePaths t Config.ROOT := h.2.2

/-- A full tree is one subtree without broken or shared nodes. -/
theorem FullTree.soundSubtrees (h : FullTree t) : SoundSubtrees t [] [Config.ROOT] := by
  refine ⟨List.forall_mem_singleton.mpr fun p j hp => ?_, List.forall_mem_singleton.mpr h.unique, List.pairwise_singleton _ _⟩
  obtain ⟨hnil, hempty⟩ := h.written hp
  exact ⟨hnil, hempty, List.not_mem_nil⟩

theorem FullTree.validTree (h : FullTree t) : validTree t = true := by
  obtain ⟨l, r, hroot⟩ := isInternal_iff.mp h.root_internal
  obtain ⟨hl, -⟩ := h.written (i := l) (followPath_child hroot false [])
  obtain ⟨hr, -⟩ := h.written (i := r) (followPath_child hroot true [])
  simp only [Machine.validTree, hroot, if_neg hl, if_neg hr]
  exact treeLoop_of_soundSubtrees (h.soundSubtrees.pop_push hroot) (List.nodup_singleton _) (by decide) (by simp)

theorem SingleSymbolTree.validTree (h : SingleSymbolTree t) : validTree t = true := by
  obtain ⟨l, y, hroot, hnil, hl⟩ := h
  simp only [Machine.validTree, hroot, isLeaf, hl, hnil, if_true, decide_true, ne_eq, not_false_eq_true, Bool.and_self]

theorem validTree_iff : validTree t = true ↔ SingleSymbolTree t ∨ FullTree t :=
  ⟨single_or_full_of_validTree, fun h => h.elim SingleSymbolTree.validTree FullTree.validTree⟩

end

/-- Settles O32: the loop accepts exactly the subtrees without broken or shared nodes. -/
theorem validTreeIsSingleSymbolOrFull : Obligations.ValidTreeIsSingleSymbolOrFull := by
  unfold Obligations.ValidTreeIsSingleSymbolOrFull
  exact fun t => validTree_iff

end Sys2Proof.Machine

namespace Sys2Proof.Machine

/-! ## The leaves of a full tree (42_decoder.md R145; 00_scope.md R8) -/

section
variable {t : Vector Node Config.T_NODES}

theorem nodeAt_append (p q : List Bool) : nodeAt t (p ++ q) = (nodeAt t p).bind fun i => followPath t i q :=
  followPath_append _ p q

/-- No path goes on past a leaf. -/
theorem LeafAt.append_eq_nil {p q : List Bool} {y : Symbol} {j : NodeIndex} (hp : LeafAt t p y)
    (hq : nodeAt t (p ++ q) = some j) : q = [] := by
  obtain ⟨i, hi, hy⟩ := hp
  rw [nodeAt_append, hi, Option.bind_some] at hq
  exact (followPath_leaf hy hq).1

/-- Below every node of a full tree there is a leaf: a path that reaches none could be made longer and longer. -/
theorem FullTree.exists_leaf_below (h : FullTree t) {p : List Bool} {i : NodeIndex} (hp : nodeAt t p = some i) :
    ∃ q y, LeafAt t (p ++ q) y := by
  have hlen := h.length_path_le hp
  generalize hd : 255 - p.length = d
  induction d using Nat.strong_induction_on generalizing p i with
  | _ d ih =>
    obtain ⟨hnil, hempty⟩ := h.written hp
    obtain ⟨v, hv⟩ := treeNode_isSome t hnil
    cases v with
    | empty => exact absurd hv hempty
    | leaf y => exact ⟨[], y, i, by rwa [List.append_nil], hv⟩
    | internal l r =>
      have hl : nodeAt t (p ++ [false]) = some l := nodeAt_concat hp (child_eq_some.mpr ⟨l, r, hv, rfl⟩)
      have hlen' := h.length_path_le hl
      rw [List.length_append, List.length_singleton] at hlen'
      obtain ⟨q, y, hq⟩ := ih (255 - (p.length + 1)) (by omega) hl (h.length_path_le hl) (by simp)
      exact ⟨false :: q, y, by simpa using hq⟩

/-- There is a leaf on either side of the root. -/
theorem FullTree.exists_two_leaves (h : FullTree t) : ∃ p q y z, p ≠ q ∧ LeafAt t p y ∧ LeafAt t q z := by
  obtain ⟨i, hi⟩ := exists_child h.root_internal false
  obtain ⟨j, hj⟩ := exists_child h.root_internal true
  obtain ⟨p, y, hp⟩ := h.exists_leaf_below (nodeAt_concat (p := []) rfl hi)
  obtain ⟨q, z, hq⟩ := h.exists_leaf_below (nodeAt_concat (p := []) rfl hj)
  exact ⟨_, _, y, z, by simp, hp, hq⟩

/-! ### At most 256 leaves

Each leaf but the one at the end of the all-1 path is the last one of the left half of some INTERNAL node. That node tells which
leaf it is, so `n` leaves need `n - 1` INTERNAL nodes beside them, and there are 511 nodes. -/

/-- The path up to the last 0 bit: to the node in whose left half the path ends with 1 bits only. -/
def beforeLastLeft : List Bool → Option (List Bool)
  | [] => none
  | b :: p =>
    match beforeLastLeft p with
    | some q => some (b :: q)
    | none => if b then none else some []

theorem eq_of_beforeLastLeft_eq_none {p : List Bool} (h : beforeLastLeft p = none) : ∃ k, p = List.replicate k true := by
  induction p with
  | nil => exact ⟨0, rfl⟩
  | cons b p ih =>
    rw [beforeLastLeft] at h
    split at h
    · cases h
    · next hp =>
      obtain ⟨k, rfl⟩ := ih hp
      cases b
      · cases h
      · exact ⟨k + 1, rfl⟩

theorem eq_of_beforeLastLeft_eq_some {p q : List Bool} (h : beforeLastLeft p = some q) :
    ∃ k, p = q ++ false :: List.replicate k true := by
  induction p generalizing q with
  | nil => cases h
  | cons b p ih =>
    rw [beforeLastLeft] at h
    split at h
    · next q' hp =>
      cases h
      obtain ⟨k, rfl⟩ := ih hp
      exact ⟨k, rfl⟩
    · next hp =>
      obtain ⟨k, rfl⟩ := eq_of_beforeLastLeft_eq_none hp
      cases b
      · cases h
        exact ⟨k, rfl⟩
      · cases h

/-- Two leaves at the end of 1 bits only, below the same node, are the same. -/
theorem LeafAt.eq_of_trues {q : List Bool} {m n : ℕ} {y z : Symbol} (hm : LeafAt t (q ++ List.replicate m true) y)
    (hn : LeafAt t (q ++ List.replicate n true) z) : m = n := by
  wlog hle : m ≤ n generalizing m n y z
  · exact (this hn hm (Nat.le_of_not_le hle)).symm
  obtain ⟨i, hi, -⟩ := hn
  rw [← Nat.add_sub_cancel' hle, List.replicate_add, ← List.append_assoc] at hi
  have := congrArg List.length (hm.append_eq_nil hi)
  rw [List.length_replicate, List.length_nil] at this
  omega

/-- A leaf is known by the node in whose left half it is the last one. -/
theorem LeafAt.eq_of_beforeLastLeft_eq {p q : List Bool} {y z : Symbol} (hp : LeafAt t p y) (hq : LeafAt t q z)
    (h : beforeLastLeft p = beforeLastLeft q) : p = q := by
  cases hlast : beforeLastLeft p with
  | none =>
    obtain ⟨m, rfl⟩ := eq_of_beforeLastLeft_eq_none hlast
    obtain ⟨n, rfl⟩ := eq_of_beforeLastLeft_eq_none (h ▸ hlast)
    rw [LeafAt.eq_of_trues (q := []) hp hq]
  | some r =>
    obtain ⟨m, rfl⟩ := eq_of_beforeLastLeft_eq_some hlast
    obtain ⟨n, rfl⟩ := eq_of_beforeLastLeft_eq_some (h ▸ hlast)
    rw [List.append_cons] at hp hq
    rw [hp.eq_of_trues hq]

theorem LeafAt.nodeAt_beforeLastLeft {p q : List Bool} {y : Symbol} (hp : LeafAt t p y) (h : beforeLastLeft p = some q) :
    (∃ i, nodeAt t q = some i) ∧ ∀ z, ¬LeafAt t q z := by
  obtain ⟨k, rfl⟩ := eq_of_beforeLastLeft_eq_some h
  obtain ⟨j, hj, -⟩ := hp
  constructor
  · rw [nodeAt_append] at hj
    obtain ⟨i, hi, -⟩ := Option.bind_eq_some_iff.mp hj
    exact ⟨i, hi⟩
  · intro z hz
    cases hz.append_eq_nil hj

/-- The nodes over all leaves but one. -/
theorem length_le_length_filterMap_beforeLastLeft {ps : List (List Bool)} (hnodup : ps.Nodup)
    (hps : ∀ p ∈ ps, ∃ y, LeafAt t p y) :
    (ps.filterMap beforeLastLeft).Nodup ∧ ps.length ≤ (ps.filterMap beforeLastLeft).length + 1 := by
  have hmap : (ps.map beforeLastLeft).Nodup := hnodup.map_on fun p hp q hq h => by
    obtain ⟨y, hy⟩ := hps p hp
    obtain ⟨z, hz⟩ := hps q hq
    exact hy.eq_of_beforeLastLeft_eq hz h
  have hsub : ps.map beforeLastLeft ⊆ none :: (ps.filterMap beforeLastLeft).map some := by
    intro o ho
    obtain ⟨p, hp, rfl⟩ := List.mem_map.mp ho
    cases h : beforeLastLeft p with
    | none => exact List.mem_cons_self
    | some q => exact List.mem_cons_of_mem _ (List.mem_map_of_mem (List.mem_filterMap.mpr ⟨p, hp, h⟩))
  constructor
  · have : ps.filterMap beforeLastLeft = (ps.map beforeLastLeft).filterMap id := by rw [List.filterMap_map]; rfl
    rw [this]
    exact hmap.filterMap fun o o' q h h' => h.trans h'.symm
  · simpa using (hmap.subperm hsub).length_le

/-- `n` leaves and `n - 1` INTERNAL nodes are at most 511 nodes. -/
theorem FullTree.length_leaves_le (h : FullTree t) {ps : List (List Bool)} (hnodup : ps.Nodup)
    (hps : ∀ p ∈ ps, ∃ y, LeafAt t p y) : ps.length ≤ 256 := by
  obtain ⟨hnodup', hle⟩ := length_le_length_filterMap_beforeLastLeft hnodup hps
  have hinner : ∀ q ∈ ps.filterMap beforeLastLeft, (∃ i, nodeAt t q = some i) ∧ ∀ z, ¬LeafAt t q z := by
    intro q hq
    obtain ⟨p, hp, hlast⟩ := List.mem_filterMap.mp hq
    obtain ⟨y, hy⟩ := hps p hp
    exact hy.nodeAt_beforeLastLeft hlast
  have hall : (ps ++ ps.filterMap beforeLastLeft).length ≤ 511 := by
    refine h.length_paths_le (hnodup.append hnodup' fun q hq hq' => ?_) fun q hq => ?_
    · obtain ⟨y, hy⟩ := hps q hq
      exact (hinner q hq').2 y hy
    · rcases List.mem_append.mp hq with hq | hq
      · obtain ⟨y, i, hi, -⟩ := hps q hq
        exact ⟨i, hi⟩
      · exact (hinner q hq).1
  rw [List.length_append] at hall
  omega

end

/-- Settles O34: a long path, and many leaves, need more nodes than there are; and a path that never ends at a leaf is too long. -/
theorem fullTreeBounds : Obligations.FullTreeBounds := by
  unfold Obligations.FullTreeBounds
  exact fun t h => ⟨fun p i => h.length_path_le, h.exists_two_leaves, fun ps => h.length_leaves_le⟩

end Sys2Proof.Machine

namespace Sys2Proof.Machine

/-! ## In a job no walked bit meets a broken node (42_decoder.md R148; 10_state.md R49) -/

/-- No path leaves NIL. -/
theorem followPath_nil {t : Vector Node Config.T_NODES} {p : List Bool} {j : NodeIndex}
    (hp : followPath t Config.NIL p = some j) : p = [] ∧ j = Config.NIL := by
  cases p with
  | nil => exact ⟨rfl, (Option.some.inj hp).symm⟩
  | cons b p =>
    obtain ⟨k, hk, -⟩ := followPath_cons.mp hp
    rw [child_nil] at hk
    cases hk

/-- No path of a valid tree leads to an EMPTY node. -/
theorem not_empty_of_validTree {t : Vector Node Config.T_NODES} (h : validTree t = true) {p : List Bool} {i : NodeIndex}
    (hp : nodeAt t p = some i) : treeNode t i ≠ some .empty := by
  rcases single_or_full_of_validTree h with ⟨l, y, hroot, -, hl⟩ | hfull
  · rcases followPath_internal hroot hp with ⟨-, rfl⟩ | ⟨q, -, hq⟩ | ⟨q, -, hq⟩
    · rw [hroot]
      nofun
    · rw [(followPath_leaf hl hq).2, hl]
      nofun
    · rw [(followPath_nil hq).2, treeNode_nil]
      nofun
  · exact (hfull.written hp).2

theorem DecInv.err_ne_three {d : Decoder} (h : DecInv d) (hactive : d.state = .active) : d.err ≠ 3 := by
  rw [h.err.mpr (by simp [hactive])]
  decide

/-- With the invariants every bit of a job follows a child, and that is not EMPTY: the walk raises no CORRUPT_TREE. -/
theorem DecInv.walkBit_err {s : State} (h : DecInv s.dec) (hactive : s.dec.state = .active) (b : Bool) :
    (Machine.walkBit s b).dec.err ≠ 3 := by
  have herr := h.err_ne_three hactive
  rcases walkBit_cases s b with ⟨j, y, -, -, hw⟩ | ⟨j, l, r, -, -, hw⟩ | ⟨-, hw⟩ | ⟨hbroken, -⟩
  · rw [hw, State.countBit_deliver_eq]
    exact herr
  · rw [hw]
    exact herr
  · rw [hw]
    exact (by decide : (8 : BitVec 4) ≠ 3)
  · obtain ⟨p, hp⟩ := h.path hactive
    obtain ⟨j, hj⟩ := exists_child (h.cur hactive) b
    rcases hbroken with hnone | ⟨k, hk, hempty⟩
    · cases hj.symm.trans hnone
    · exact absurd hempty (not_empty_of_validTree (h.valid hactive) (nodeAt_concat hp hk))

/-- Settles O36: the invariants are kept bit by bit, and no bit walked under them raises code 3. -/
theorem walkNeverFindsACorruptTree : Obligations.WalkNeverFindsACorruptTree := by
  unfold Obligations.WalkNeverFindsACorruptTree
  intro s t hinv hactive hexec
  have hdec := (inv_iff.mp hinv).2
  rcases hexec with ⟨v, hexec⟩ | ⟨c, hexec⟩
  · rw [exec_decByte_active v hactive] at hexec
    rw [← Host.Outcome.next.inj hexec]
    exact (foldl_walk_keeps (P := fun u => DecInv u.dec ∧ u.dec.err ≠ 3)
      (fun u b hactive h => ⟨h.1.walkBit hactive b, h.1.walkBit_err hactive b⟩) _ ⟨hdec, hdec.err_ne_three hactive⟩).2
  · rcases charBit_cases c with hc | ⟨b, rfl⟩
    · rw [exec_decBitchar_invalid c (.inl hactive) hc] at hexec
      rw [← Host.Outcome.next.inj hexec]
      exact (by decide : (5 : BitVec 4) ≠ 3)
    · rw [exec_decBitchar_active b hactive] at hexec
      rw [← Host.Outcome.next.inj hexec]
      exact hdec.walkBit_err hactive b

end Sys2Proof.Machine

namespace Sys2Proof.Machine

/-! ## The encoder's half of a round trip (42_decoder.md R155; 41_encoder.md R119, R120) -/

theorem encodedSymbols_map_encSym (xs : List Symbol) : encodedSymbols (xs.map .encSym) = xs := by
  induction xs with
  | nil => rfl
  | cons x xs ih => exact congrArg (x :: ·) ih

/-- The commands of an encoder job with none between. -/
theorem mem_encoderJob {xs : List Symbol} {i : Instr} (h : i ∈ encoderJob xs) :
    i = .encStart ∨ (∃ y, i = .encSym y) ∨ i = .encFinish := by
  simp only [encoderJob, List.mem_cons, List.mem_append, List.mem_map, List.not_mem_nil, or_false] at h
  exact h.imp_right (.imp_left fun ⟨y, _, hy⟩ => ⟨y, hy.symm⟩)

/-- From `s` to `t` the encoder has only emitted bytes, and left the tree and the decoder's state. -/
def EmitsOnlyBytes (s t : State) : Prop :=
  t.dec.tree = s.dec.tree ∧ t.dec.state = s.dec.state ∧
    ∃ es, t.io.log = s.io.log ++ es ∧ ∀ e ∈ es, e.stream = .encOut

theorem EmitsOnlyBytes.effect {s u v : State} {i : Instr} (h : EmitsOnlyBytes s u)
    (hi : i = .encStart ∨ (∃ y, i = .encSym y) ∨ i = .encFinish) (heffect : Effect i u v) : EmitsOnlyBytes s v := by
  obtain ⟨htree, hstate, es, hlog, hes⟩ := h
  obtain ⟨fs, hio, -, hfrom⟩ := heffect.appendsEvents
  have htree' : v.dec.tree = u.dec.tree :=
    heffect.tree_writers.resolve_right (by rcases hi with rfl | ⟨y, rfl⟩ | rfl <;> simp)
  obtain ⟨hstate', -⟩ : v.dec.state = u.dec.state ∧ v.dec.err = u.dec.err :=
    heffect.decState_writers.resolve_right (by rcases hi with rfl | ⟨y, rfl⟩ | rfl <;> simp)
  refine ⟨htree'.trans htree, hstate'.trans hstate, es ++ fs, ?_, List.forall_mem_append.mpr ⟨hes, fun e he => ?_⟩⟩
  · rw [hio, State.withEvents_io_log, hlog, List.append_assoc]
  · have := hfrom e he
    cases e with
    | encByte b => rfl
    | decSym y => rcases hi with rfl | ⟨y, rfl⟩ | rfl <;> simp [Event.From] at this
    | rsp w => rcases hi with rfl | ⟨y, rfl⟩ | rfl <;> cases this

/-- An encoder job with no other commands between logs the payload bytes and nothing else. -/
theorem encoderJob_logs_payload {s : State} {xs : List Symbol} (hsome : xs ≠ []) (hlt : xs.length < 2 ^ 32)
    (hcodes : ∀ x ∈ xs, (s.ctEntry x).codeBits ≠ []) :
    ∃ t, runCommands (encoderJob xs) s = .next t ∧
      t.io.log = s.io.log ++ (payload (xs.flatMap fun x => (s.ctEntry x).codeBits)).map .encByte ∧
      t.enc.count.toNat = xs.length ∧ t.dec.tree = s.dec.tree ∧ t.dec.state = s.dec.state := by
  have hsymbols := encodedSymbols_map_encSym xs
  obtain ⟨t, es, hrun, -, -, hcount, -, hlog, hes, -⟩ := encoderJobEmitsThePayload s (xs.map .encSym)
    (by simp [breaksEncJob]) (by rwa [hsymbols]) (by rwa [hsymbols])
    (by rw [hsymbols]; exact fun x hx h => hcodes x hx ((CtEntry.codeBits_eq_nil_iff _).mpr h))
  rw [hsymbols] at hcount hes
  obtain ⟨htree, hstate, fs, hlog', hfs⟩ : EmitsOnlyBytes s t :=
    runCommands_keeps (P := fun _ => EmitsOnlyBytes s) (ran := [])
      (fun i hi _ _ _ h heffect => h.effect (mem_encoderJob hi) heffect) ⟨rfl, rfl, [], by simp, by simp⟩ hrun
  obtain rfl := List.append_cancel_left (hlog.symm.trans hlog')
  have hall : onStream .encOut es = es := List.filter_eq_self.mpr (by simpa using hfs)
  exact ⟨t, hrun, by rw [hlog, ← hes, hall], hcount, htree, hstate⟩

/-! ## The decoder's half: walking the codes of the symbols (42_decoder.md R148, R152) -/

/-- `code x` is a path to a LEAF with the symbol `x`, and is not empty. -/
def HasCode (t : Vector Node Config.T_NODES) (code : Symbol → List Bool) (x : Symbol) : Prop :=
  LeafAt t (code x) x ∧ code x ≠ []

/-- A job without an error, with the bits `rest` of the code of `y` left to walk, whose first bits `walked` lead to DEC_CUR, and then
the symbols `ys`. With all of these emitted the log is `log` and DEC_EMITTED is DEC_N. -/
structure MidSymbol (code : Symbol → List Bool) (log : List Event) (walked rest : List Bool) (y : Symbol) (ys : List Symbol)
    (s : State) : Prop where
  active : s.dec.state = .active
  err : s.dec.err = 0
  extra : s.dec.extra = false
  cur : nodeAt s.dec.tree walked = some s.dec.cur
  split : walked ++ rest = code y
  rest : rest ≠ []
  codes : ∀ x ∈ y :: ys, HasCode s.dec.tree code x
  count : s.dec.emitted.toNat + (y :: ys).length = s.dec.n.toNat
  log : s.io.log ++ (y :: ys).map .decSym = log

/-- A job without an error that has the bits `bits` left to walk: then it is DONE and the log is `log`. -/
inductive Decoding (code : Symbol → List Bool) (log : List Event) : List Bool → State → Prop
  | active {walked rest : List Bool} {y : Symbol} {ys : List Symbol} {s : State} :
      MidSymbol code log walked rest y ys s → Decoding code log (rest ++ ys.flatMap code) s
  | done {s : State} : s.dec.state = .done → s.dec.err = 0 → s.dec.extra = false → s.io.log = log → Decoding code log [] s

section
variable {code : Symbol → List Bool} {log : List Event} {bits walked rest : List Bool} {b : Bool} {y : Symbol}
  {ys : List Symbol} {s : State}

/-- A job at the root has the whole code of the next symbol left. -/
theorem Decoding.at_root (hactive : s.dec.state = .active) (herr : s.dec.err = 0) (hextra : s.dec.extra = false)
    (hcur : s.dec.cur = Config.ROOT) (hcodes : ∀ x ∈ y :: ys, HasCode s.dec.tree code x)
    (hcount : s.dec.emitted.toNat + (y :: ys).length = s.dec.n.toNat) (hlog : s.io.log ++ (y :: ys).map .decSym = log) :
    Decoding code log ((y :: ys).flatMap code) s :=
  .active (walked := []) ⟨hactive, herr, hextra, congrArg some hcur.symm, rfl, (hcodes y List.mem_cons_self).2, hcodes, hcount,
    hlog⟩

/-- What is left of a code leads from DEC_CUR to the LEAF. -/
theorem MidSymbol.followPath_rest (h : MidSymbol code log walked rest y ys s) :
    ∃ i, followPath s.dec.tree s.dec.cur rest = some i ∧ s.node i = some (.leaf y) := by
  obtain ⟨⟨i, hi, hy⟩, -⟩ := h.codes y List.mem_cons_self
  rw [← h.split, nodeAt_append, h.cur, Option.bind_some] at hi
  exact ⟨i, hi, hy⟩

/-- The last bit of a code emits its symbol; the job goes on with the next one, or is DONE (42_decoder.md R148). -/
theorem MidSymbol.deliver (h : MidSymbol code log walked rest y ys s) :
    Decoding code log (ys.flatMap code) (s.countBit.deliver y) := by
  have hcount := h.count
  have hlog : (s.countBit.deliver y).io.log ++ ys.map .decSym = log := by
    rw [State.countBit_deliver_eq, ← h.log]
    simp
  cases ys with
  | nil =>
    have hlast : s.dec.emitted + 1 = s.dec.n := by
      rw [List.length_singleton] at hcount
      bv_omega
    rw [List.map_nil, List.append_nil] at hlog
    refine .done ?_ ?_ ?_ hlog <;> rw [State.deliver_last hlast]
    · exact h.err
    · exact h.extra
  | cons z zs =>
    have hn := s.dec.n.isLt
    simp only [List.length_cons] at hcount
    have hsucc : (s.dec.emitted + 1).toNat = s.dec.emitted.toNat + 1 := by bv_omega
    have hmore : s.dec.emitted + 1 ≠ s.dec.n := fun heq => by
      rw [← heq, hsucc] at hcount
      omega
    refine .at_root ?_ ?_ ?_ ?_ ?_ ?_ hlog <;> rw [State.deliver_more h.active hmore]
    · exact h.err
    · exact h.extra
    · exact fun x hx => h.codes x (List.mem_cons_of_mem _ hx)
    · rw [List.length_cons, hsucc, ← hcount]
      omega

/-- One bit of a code (42_decoder.md R148). -/
theorem MidSymbol.walkBit (h : MidSymbol code log walked (b :: rest) y ys s) :
    Decoding code log (rest ++ ys.flatMap code) (walkBit s b) := by
  obtain ⟨i, hi, hleaf⟩ := h.followPath_rest
  obtain ⟨j, hj, hi⟩ := followPath_cons.mp hi
  cases rest with
  | nil =>
    cases hi
    rw [walkBit_leaf hj hleaf]
    exact h.deliver
  | cons c rest =>
    obtain ⟨k, hk, -⟩ := followPath_cons.mp hi
    obtain ⟨l, r, hinternal, -⟩ := child_eq_some.mp hk
    rw [walkBit_internal hj hinternal]
    exact .active (walked := walked ++ [b]) ⟨h.active, h.err, h.extra, nodeAt_concat h.cur hj,
      (List.append_cons walked b (c :: rest)).symm.trans h.split, nofun, h.codes, h.count, h.log⟩

theorem Decoding.done_of_nil (h : Decoding code log [] s) :
    s.dec.state = .done ∧ s.dec.err = 0 ∧ s.dec.extra = false ∧ s.io.log = log := by
  generalize hbits : ([] : List Bool) = bits at h
  cases h with
  | active h => exact absurd (List.append_eq_nil_iff.mp hbits.symm).1 h.rest
  | done hdone herr hextra hlog => exact ⟨hdone, herr, hextra, hlog⟩

theorem Decoding.walkWhileActive (h : Decoding code log (b :: bits) s) : Decoding code log bits (walkWhileActive s b) := by
  generalize hbits : b :: bits = all at h
  cases h with
  | @active _ rest _ _ _ h =>
    cases rest with
    | nil => exact absurd rfl h.rest
    | cons c rest =>
      cases hbits
      rw [Machine.walkWhileActive, if_pos h.active]
      exact h.walkBit
  | done => cases hbits

theorem Decoding.active_of_ne_nil (h : Decoding code log bits s) (hsome : bits ≠ []) : s.dec.state = .active := by
  cases h with
  | active h => exact h.active
  | done => exact absurd rfl hsome

/-- The bits of a job, one by one. -/
theorem Decoding.foldl (bs : List Bool) (h : Decoding code log (bs ++ bits) s) :
    Decoding code log bits (bs.foldl Machine.walkWhileActive s) := by
  induction bs generalizing s with
  | nil => exact h
  | cons b bs ih => exact ih h.walkWhileActive

/-- The bits of a payload byte: the next eight bits, padded with 0 bits (20_memory.md R62). -/
theorem byteBits_payloadByte (bits : List Bool) :
    byteBits (payloadByte bits 0) = bits.take 8 ++ List.replicate (8 - bits.length) false := by
  apply List.ext_getElem
  · simp [byteBits]
    omega
  · intro k hk _
    have hk8 : k < 8 := by simpa [byteBits] using hk
    simp only [byteBits, List.getElem_map, List.getElem_range, payloadByte_getMsbD _ _ _ hk8, List.getElem_append,
      List.getElem_take, List.getElem_replicate, List.length_take]
    by_cases hlen : k < bits.length
    · simp [hk8, hlen]
    · simp [hlen]

/-- A payload is its first byte and the payload of the bits after the first eight. -/
theorem payload_eq_cons (hsome : bits ≠ []) : payload bits = payloadByte bits 0 :: payload (bits.drop 8) := by
  have hlen := List.length_pos_of_ne_nil hsome
  have hn : (bits.length + 7) / 8 = ((bits.drop 8).length + 7) / 8 + 1 := by
    rw [List.length_drop]
    omega
  rw [payload, hn, List.range_succ_eq_map, List.map_cons, List.map_map, payload]
  refine congrArg _ (List.map_congr_left fun q _ => byte_ext fun k hk => ?_)
  simp [payloadByte_getMsbD _ _ _ hk, show 8 * (q + 1) + k = 8 + (8 * q + k) by omega]

/-- DEC_BYTE with the next payload byte walks the next eight bits; the padding of the last byte comes after the job is DONE, so it is
not walked (42_decoder.md R149). -/
theorem Decoding.decByte (h : Decoding code log bits s) (hsome : bits ≠ []) :
    ∃ u, exec (.decByte (payloadByte bits 0)) s = .next u ∧ Decoding code log (bits.drop 8) u := by
  refine ⟨_, exec_decByte_active _ (h.active_of_ne_nil hsome), ?_⟩
  have hwalked : Decoding code log (bits.drop 8) ((bits.take 8).foldl Machine.walkWhileActive s) :=
    .foldl _ (by rwa [List.take_append_drop])
  rw [byteBits_payloadByte, List.foldl_append]
  rcases Nat.lt_or_ge bits.length 8 with hlast | hmore
  · have hnone : bits.drop 8 = [] := List.drop_of_length_le hlast.le
    rw [hnone] at hwalked ⊢
    rwa [foldl_walk_stopped _ (by simp [hwalked.done_of_nil.1])]
  · rwa [Nat.sub_eq_zero_of_le hmore]

/-- The bytes of a payload end the job. -/
theorem Decoding.payload (h : Decoding code log bits s) :
    ∃ u, runCommands ((payload bits).map .decByte) s = .next u ∧ Decoding code log [] u := by
  induction hn : bits.length using Nat.strong_induction_on generalizing bits s with
  | _ n ih =>
    by_cases hsome : bits = []
    · subst hsome
      exact ⟨s, rfl, h⟩
    · obtain ⟨u, hexec, hu⟩ := h.decByte hsome
      have hlen := List.length_pos_of_ne_nil hsome
      obtain ⟨v, hrun, hv⟩ := ih (bits.drop 8).length (by rw [List.length_drop]; omega) hu rfl
      exact ⟨v, by rw [payload_eq_cons hsome, List.map_cons, runCommands_cons hexec, hrun], hv⟩

/-- A decoder job over the payload of the codes of symbols emits the symbols and ends DONE. -/
theorem decoderJob_emits_symbols {n : BitVec 32} {xs : List Symbol} (hvalid : validTree s.dec.tree = true)
    (hjob : s.dec.state ≠ .active) (hsome : xs ≠ []) (hn : n.toNat = xs.length)
    (hcodes : ∀ x ∈ xs, HasCode s.dec.tree code x) :
    ∃ u, runCommands (decoderJob n (payload (xs.flatMap code))) s = .next u ∧ u.io.log = s.io.log ++ xs.map .decSym ∧
      u.dec.state = .done ∧ u.dec.err = 0 ∧ u.dec.extra = false := by
  have hset := pseudoCommandsSetAndClear.1 n s hjob
  have hpos := List.length_pos_of_ne_nil hsome
  have hstart : exec .decStart (s.setN n) = .next ((s.setN n).decOpened .active 0) :=
    exec_decStart_active (by show n ≠ 0; bv_omega) hvalid
  have hopened : Decoding code (s.io.log ++ xs.map .decSym) (xs.flatMap code) ((s.setN n).decOpened .active 0) := by
    obtain ⟨x, xs, rfl⟩ := List.exists_cons_of_ne_nil hsome
    exact .at_root rfl rfl rfl rfl hcodes (by simp [hn]) rfl
  obtain ⟨u, hrun, hu⟩ := hopened.payload
  obtain ⟨hdone, herr, hextra, hlog⟩ := hu.done_of_nil
  refine ⟨u, ?_, hlog, hdone, herr, hextra⟩
  rw [decoderJob, runCommands_append hset, ← State.setN, runCommands_cons hstart, runCommands_append hrun,
    runCommands_cons (exec_decEnd_ignored (.inr hdone))]
  rfl

end

/-- No code of a valid tree is empty: its root is no LEAF. -/
theorem LeafAt.ne_nil {t : Vector Node Config.T_NODES} {p : List Bool} {y : Symbol} (h : LeafAt t p y)
    (hvalid : validTree t = true) : p ≠ [] := by
  rintro rfl
  obtain ⟨i, hi, hleaf⟩ := h
  cases hi
  obtain ⟨l, r, hroot⟩ := isInternal_iff.mp (isInternal_root_of_validTree hvalid)
  cases hroot.symm.trans hleaf

/-- Settles O35: the encoder logs the payload of the codes, and the decoder walks each code to its LEAF. -/
theorem decodingUndoesEncoding : Obligations.DecodingUndoesEncoding := by
  unfold Obligations.DecodingUndoesEncoding
  intro s xs hvalid hjob hcode hsome hlt hleaves
  have hcodes : ∀ x ∈ xs, HasCode s.dec.tree (fun x => (s.ctEntry x).codeBits) x := by
    intro x hx
    obtain ⟨p, hp⟩ := hleaves x hx
    rw [HasCode, hcode p x hp]
    exact ⟨hp, hp.ne_nil hvalid⟩
  obtain ⟨t, hencode, hlog, hcount, htree, hstate⟩ := encoderJob_logs_payload hsome hlt fun x hx => (hcodes x hx).2
  rw [← htree] at hvalid hcodes
  obtain ⟨u, hdecode, hu⟩ := decoderJob_emits_symbols hvalid (hstate ▸ hjob) hsome hcount hcodes
  exact ⟨_, t, u, hencode, hlog, hcount, hdecode, hu⟩

end Sys2Proof.Machine

namespace Sys2Proof.Machine

/-! ## Writes to the tree and to DEC_N (42_decoder.md R140-R143) -/

/-- The word of a command with an illegal operand is rejected by the operand check (30_encoding.md R92). -/
theorem decode_encode_of_not_wellFormed {i : Instr} (hwf : i.wellFormed = false) :
    decode (encode i) = .error (operandReason i) := by
  obtain ⟨r, hr, -, hsel, hbuild⟩ := Laws.EncodeSelectsRow.all i
  rw [decode_of_selects hr hsel, hbuild, checkOperands, hwf]
  rfl

/-- In a job a tree write is refused, else it replaces its node whole and touches nothing else. -/
theorem State.writeTree_effect {k : NodeIndex} (hk : k ≠ Config.NIL) (v : Node) (s : State) :
    (s.dec.state = .active → s.writeTree k v = s.decFails 6) ∧
    (s.dec.state ≠ .active → (s.writeTree k v).node k = some v ∧ (∀ j, j ≠ k → (s.writeTree k v).node j = s.node j) ∧
      s.writeTree k v = { s with dec := { s.dec with tree := (s.writeTree k v).dec.tree } }) := by
  refine ⟨State.writeTree_of_active k v, fun hjob => ?_⟩
  rw [State.writeTree_of_not_active k v hjob]
  exact ⟨s.node_setNode_self k v hk, fun j hj => s.node_setNode_ne k j v hj, s.setNode_frame k v⟩

/-- Settles O25: the operand check refuses index 511, and any other write is the tree write of a LEAF. -/
theorem treeLeafWritesTheNode : Obligations.TreeLeafWritesTheNode := by
  unfold Obligations.TreeLeafWritesTheNode
  refine ⟨fun y => decode_encode_of_not_wellFormed rfl, fun i y s hi => ?_⟩
  obtain ⟨hactive, hwrite⟩ := State.writeTree_effect hi (.leaf y) s
  rw [exec_treeLeaf y hi]
  exact ⟨rfl, fun h => congrArg _ (hactive h), fun h => ⟨_, rfl, hwrite h⟩⟩

/-- Settles O26: the operand check refuses index 511, and any other write is the tree write of an INTERNAL node. -/
theorem treeIntWritesTheNode : Obligations.TreeIntWritesTheNode := by
  unfold Obligations.TreeIntWritesTheNode
  refine ⟨fun l r => decode_encode_of_not_wellFormed rfl, fun i l r s hi => ?_⟩
  obtain ⟨hactive, hwrite⟩ := State.writeTree_effect hi (.internal l r) s
  rw [exec_treeInt l r hi]
  exact ⟨rfl, fun h => congrArg _ (hactive h), fun h => ⟨_, rfl, hwrite h⟩⟩

/-- Settles O27: in a job the write is refused, else one half of DEC_N is the data and the other is kept. -/
theorem decSetnWritesOneHalf : Obligations.DecSetnWritesOneHalf := by
  unfold Obligations.DecSetnWritesOneHalf
  intro h d s
  exact ⟨rfl, exec_decSetn_active h d, fun hjob =>
    ⟨_, exec_decSetn_write h d hjob, setHalf_written _ _ _, setHalf_kept _ _ _⟩⟩

/-- Settles O52: in DONE, DEC_SETN of the complement of the low half of DEC_N. -/
theorem countWriteInDoneBreaksEquality : Obligations.CountWriteInDoneBreaksEquality := by
  unfold Obligations.CountWriteInDoneBreaksEquality
  intro s hdone hemitted
  refine ⟨0, ~~~s.dec.n.extractLsb' 0 16, _, exec_decSetn_write _ _ (by simp [hdone]), hdone, fun heq => ?_⟩
  have hn : s.dec.n = setHalf s.dec.n 0 (~~~s.dec.n.extractLsb' 0 16) := hemitted.symm.trans heq
  have hlow := setHalf_written s.dec.n 0 (~~~s.dec.n.extractLsb' 0 16)
  rw [← hn] at hlow
  exact absurd (congrArg (BitVec.getLsbD · 0) hlow) (by simp)

/-! ## The commands of a decoder job, one by one (42_decoder.md R147-R151) -/

/-- Settles O28: the checks of DEC_START in the order of R147. -/
theorem decStartOpensAJob : Obligations.DecStartOpensAJob := by
  unfold Obligations.DecStartOpensAJob
  exact ⟨rfl, fun s => ⟨exec_decStart_empty, exec_decStart_corrupt, exec_decStart_active⟩⟩

/-- Settles O31: DEC_END by the four states. -/
theorem decEndMarksTheEnd : Obligations.DecEndMarksTheEnd := by
  unfold Obligations.DecEndMarksTheEnd
  exact ⟨rfl, fun s => ⟨exec_decEnd_ignored, exec_decEnd_idle, exec_decEnd_active⟩⟩

/-- Settles O29: the states and the character by the equations of DEC_BITCHAR, and the walk by what stands at the child. -/
theorem decBitcharWalksOneBit : Obligations.DecBitcharWalksOneBit := by
  unfold Obligations.DecBitcharWalksOneBit
  intro c s
  refine ⟨rfl, exec_decBitchar_error c, exec_decBitchar_idle c,
    fun hstate h0 h1 => exec_decBitchar_invalid c hstate (charBit_eq_none h0 h1), fun hdone hc => ?_, fun b hactive hc => ?_⟩
  · rcases hc with rfl | rfl
    · exact exec_decBitchar_done false hdone
    · exact exec_decBitchar_done true hdone
  · subst hc
    rw [exec_decBitchar_active b hactive]
    refine ⟨fun j y hchild hleaf => ?_, fun j l r hchild hinternal => ?_, fun hchild => ?_, fun hbroken => ?_⟩
    · rw [walkBit_leaf hchild hleaf, State.countBit_deliver_eq, hactive]
    · rw [walkBit_internal hchild hinternal]
      rfl
    · rw [walkBit_nil hchild]
      rfl
    · rw [walkBit_corrupt hbroken]
      rfl

/-- Feeding bits one by one with DEC_BITCHAR is what DEC_BYTE does with its bits (42_decoder.md R149, R150). -/
theorem feedWhileActive_eq (bs : List Bool) (s : State) : feedWhileActive bs s = .next (bs.foldl walkWhileActive s) := by
  induction bs generalizing s with
  | nil => rfl
  | cons b bs ih =>
    rw [feedWhileActive]
    by_cases hactive : s.dec.state = .active
    · rw [if_pos hactive, exec_decBitchar_active b hactive, List.foldl_cons, walkWhileActive, if_pos hactive]
      exact ih _
    · rw [if_neg hactive, foldl_walk_stopped _ hactive]

/-- The unpacker reads a byte from bit 7 down (20_memory.md R62). -/
theorem byteBits_eq (v : Byte) : byteBits v = [v.getLsbD 7, v.getLsbD 6, v.getLsbD 5, v.getLsbD 4, v.getLsbD 3, v.getLsbD 2,
    v.getLsbD 1, v.getLsbD 0] := rfl

/-- Settles O30: the four states, and the bits of a byte fed one by one, with the frame of a walk. -/
theorem decByteFeedsItsBitsMsbFirst : Obligations.DecByteFeedsItsBitsMsbFirst := by
  unfold Obligations.DecByteFeedsItsBitsMsbFirst
  intro v s
  refine ⟨rfl, exec_decByte_error v, exec_decByte_idle v, exec_decByte_done v, fun hactive => ?_⟩
  obtain ⟨d, es, hwalk, htree, hn, hextra, -⟩ := foldl_walk_frame (byteBits v) s
  refine ⟨_, exec_decByte_active v hactive, by rw [← byteBits_eq, feedWhileActive_eq], ?_⟩
  rw [hwalk]
  exact ⟨rfl, rfl, htree, hn, hextra, rfl⟩

/-! ## The single-symbol form (42_decoder.md R146) -/

section
variable {t : Vector Node Config.T_NODES} {l r : NodeIndex}

theorem FullTree.nodeAt_ne_nil (h : FullTree t) (p : List Bool) : nodeAt t p ≠ some Config.NIL :=
  fun hp => (h.written hp).1 rfl

/-- With a NIL right child only the single-symbol form is valid. -/
theorem validTree_iff_leaf_of_right_nil (hroot : treeNode t Config.ROOT = some (.internal l Config.NIL)) :
    validTree t = true ↔ l ≠ Config.NIL ∧ ∃ y, treeNode t l = some (.leaf y) := by
  rw [validTree_iff]
  constructor
  · rintro (⟨l', y, hroot', hnil, hleaf⟩ | hfull)
    · cases hroot.symm.trans hroot'
      exact ⟨hnil, y, hleaf⟩
    · exact absurd (followPath_child hroot true []) (hfull.nodeAt_ne_nil [true])
  · rintro ⟨hnil, y, hleaf⟩
    exact .inl ⟨l, y, hroot, hnil, hleaf⟩

/-- A root with a NIL left child is not valid. -/
theorem validTree_of_left_nil (hroot : treeNode t Config.ROOT = some (.internal Config.NIL r)) : validTree t = false := by
  rw [← Bool.not_eq_true, validTree_iff]
  rintro (⟨l, y, hroot', hnil, -⟩ | hfull)
  · cases hroot.symm.trans hroot'
    exact hnil rfl
  · exact hfull.nodeAt_ne_nil [false] (followPath_child hroot false [])

/-- A valid tree whose root has a right child is full. -/
theorem fullTree_of_right_ne_nil (hroot : treeNode t Config.ROOT = some (.internal l r)) (hr : r ≠ Config.NIL)
    (hvalid : validTree t = true) : FullTree t := by
  rcases validTree_iff.mp hvalid with ⟨l', y, hroot', -⟩ | hfull
  · cases hroot.symm.trans hroot'
    exact absurd rfl hr
  · exact hfull

/-- The one code of the single-symbol form is 0 (42_decoder.md R146). -/
theorem leafAt_iff_of_right_nil (hroot : treeNode t Config.ROOT = some (.internal l Config.NIL)) {y : Symbol}
    (hl : treeNode t l = some (.leaf y)) (p : List Bool) (z : Symbol) : LeafAt t p z ↔ p = [false] ∧ z = y := by
  constructor
  · rintro ⟨i, hp, hi⟩
    rcases followPath_internal hroot hp with ⟨-, rfl⟩ | ⟨q, rfl, hq⟩ | ⟨q, -, hq⟩
    · cases hroot.symm.trans hi
    · obtain ⟨rfl, rfl⟩ := followPath_leaf hl hq
      cases hl.symm.trans hi
      exact ⟨rfl, rfl⟩
    · rw [(followPath_nil hq).2, treeNode_nil] at hi
      cases hi
  · rintro ⟨rfl, rfl⟩
    exact ⟨l, followPath_child hroot false [], hl⟩

end

/-- Settles O33: valid trees are the single-symbol form, which has one leaf, and the full trees, where no path leads to NIL. -/
theorem singleSymbolFormOnlyAtTheRoot : Obligations.SingleSymbolFormOnlyAtTheRoot := by
  unfold Obligations.SingleSymbolFormOnlyAtTheRoot
  refine ⟨fun t l hroot => ⟨validTree_iff_leaf_of_right_nil hroot, fun y => leafAt_iff_of_right_nil hroot⟩,
    fun s l hroot hactive hcur => ?_, fun t r => validTree_of_left_nil, fun t hroot => ?_,
    fun t l r hroot hr hvalid => (fullTree_of_right_ne_nil hroot hr hvalid).nodeAt_ne_nil⟩
  · have hchild : child s.dec.tree s.dec.cur true = some Config.NIL :=
      child_eq_some.mpr ⟨l, Config.NIL, by rwa [hcur], rfl⟩
    exact (exec_decBitchar_active true hactive).trans (congrArg _ (walkBit_nil hchild))
  · rw [← Bool.not_eq_true]
    intro hvalid
    cases hroot.symm.trans (isInternal_root_of_validTree hvalid)

end Sys2Proof.Machine

namespace Sys2Proof.Machine

/-! ## Control and readback commands (43_control.md) -/

/-- Settles O37: NOP answers the state it is given. -/
theorem nopChangesNothing : Obligations.NopChangesNothing := by
  unfold Obligations.NopChangesNothing
  exact ⟨rfl, fun _ => exec_nop⟩

/-- Settles O42: CLR_CMDERR writes CMD_ILL alone. -/
theorem clrCmderrClearsTheFlag : Obligations.ClrCmderrClearsTheFlag := by
  unfold Obligations.ClrCmderrClearsTheFlag
  exact ⟨rfl, fun _ => exec_clrCmderr⟩

/-- RDREG of an address that the register map does not list fails the operand check (30_encoding.md R92). -/
theorem rdreg_not_wellFormed {a : BitVec 8} (ha : a ∉ legalRegAddrs) : (Instr.rdreg a).wellFormed = false := by
  simpa [Instr.wellFormed, regAddrOk] using ha

/-- Settles O38: an unlisted address fails the operand check, and at each listed one the register map gives the response. -/
theorem rdregReturnsTheRegister : Obligations.RdregReturnsTheRegister := by
  unfold Obligations.RdregReturnsTheRegister
  refine ⟨fun a ha => decode_encode_of_not_wellFormed (rdreg_not_wellFormed ha), fun a => rfl, fun s => ?_⟩
  and_intros <;> exact exec_rdreg rfl

/-- Settles O40: the responses are the entry's length and its code word, whose top bit is the first code bit it holds. -/
theorem codeTableReadback : Obligations.CodeTableReadback := by
  unfold Obligations.CodeTableReadback
  refine ⟨fun y => rfl, fun y w => rfl, fun y s => exec_rdCtlen y, fun y w s => ?_⟩
  exact ⟨(s.ctEntry y).word w, exec_rdCtword y w, fun k hk => ((s.ctEntry y).codeBit_of_word w k hk).symm⟩

/-- Settles O41: every index but 511 names a node, and the response is the word of its kind. -/
theorem treeReadback : Obligations.TreeReadback := by
  unfold Obligations.TreeReadback
  refine ⟨decode_encode_of_not_wellFormed rfl, fun i => rfl, fun i s hi => ?_⟩
  obtain ⟨v, hv⟩ : ∃ v, s.node i = some v := treeNode_isSome s.dec.tree hi
  cases v with
  | empty => exact .inl ⟨hv, exec_rdTree hv⟩
  | leaf y => exact .inr (.inl ⟨y, hv, exec_rdTree hv⟩)
  | internal l r => exact .inr (.inr ⟨l, r, hv, exec_rdTree hv⟩)

end Sys2Proof.Machine

namespace Sys2Proof.Machine

/-! ## Illegal words and the errors of the engines (60_exceptions.md) -/

/-- Settles O11: a step with no move waiting is idle. -/
theorem idleBlockHoldsAllState : Obligations.IdleBlockHoldsAllState := by
  unfold Obligations.IdleBlockHoldsAllState
  exact fun s hinput => step_idle hinput

/-- Only the word of CLR_CMDERR takes CMD_ILL from 1 to 0 (60_exceptions.md R201): an illegal word sets it, and of the legal
commands no other one writes the command unit. -/
theorem eq_clrCmderr_of_ill_cleared {x : Word32} {s t : State} (hill : s.cmd.ill = true)
    (haccept : acceptCommand x s = .next t) (hcleared : t.cmd.ill = false) : x = encode .clrCmderr := by
  cases hdecode : decode x with
  | error e =>
    rw [acceptCommand_of_error hdecode] at haccept
    cases haccept
    cases hcleared
  | ok i =>
    rw [acceptCommand_of_ok hdecode] at haccept
    obtain ⟨hword, hwf⟩ := encodeOfDecode x i hdecode
    rcases (effect_of_exec haccept).cmd_writers hwf with hcmd | ⟨rfl, -⟩
    · rw [hcmd, hill] at hcleared
      cases hcleared
    · exact hword.symm

/-- Settles O9: what an illegal word does, which word clears the flag, and the flag after reset and on its output. -/
theorem illegalWordOnlySetsTheFlag : Obligations.IllegalWordOnlySetsTheFlag := by
  unfold Obligations.IllegalWordOnlySetsTheFlag
  exact ⟨fun x e s hdecode => acceptCommand_of_error hdecode s, fun x s t => eq_clrCmderr_of_ill_cleared,
    fun s => ⟨rfl, rfl⟩⟩

section
variable {i : Instr} {s t : State}

/-- An encoder command leaves the decoder as it was, and every other command the encoder (60_exceptions.md R207). -/
theorem Effect.leaves_one_engine (h : Effect i s t) : t.enc = s.enc ∨ t.dec = s.dec := by
  cases h with
  | ctLen | ctWord | ctBad | encStart | encIgnored | encFails => exact .inr rfl
  | encSym => exact .inr (State.appendCode_dec _ _)
  | encFinish => exact .inr (by rw [State.encDone_dec, State.flushPacker_dec])
  | decByte => exact .inl (foldl_walk_enc _ _)
  | decBit => exact .inl (walkBit_enc _ _)
  | _ => exact .inl rfl

/-- The data commands of the encoder are ignored in ERROR (41_encoder.md R117, R118). -/
theorem exec_encData_error (herror : s.enc.state = .error) (hi : (∃ y, i = .encSym y) ∨ i = .encFinish) :
    exec i s = .next s := by
  rcases hi with ⟨y, rfl⟩ | rfl
  · exact exec_encSym_error y herror
  · exact exec_encFinish_error herror

/-- The data commands of the decoder are ignored in ERROR (42_decoder.md R149-R151). -/
theorem exec_decData_error (herror : s.dec.state = .error)
    (hi : (∃ v, i = .decByte v) ∨ (∃ c, i = .decBitchar c) ∨ i = .decEnd) : exec i s = .next s := by
  rcases hi with ⟨v, rfl⟩ | ⟨c, rfl⟩ | rfl
  · exact exec_decByte_error v herror
  · exact exec_decBitchar_error c herror
  · exact exec_decEnd_ignored (.inl herror)

/-- The encoder keeps its first error until ENC_START (60_exceptions.md R205): the other commands that write its state are
ignored in ERROR, or write it in a job only. -/
theorem encError_kept (herror : s.enc.state = .error) (hi : i ≠ .encStart) (hexec : exec i s = .next t) :
    t.enc.state = .error ∧ t.enc.err = s.enc.err ∧ (((∃ y, i = .encSym y) ∨ i = .encFinish) → t = s) := by
  have hdata (h : (∃ y, i = .encSym y) ∨ i = .encFinish) : t = s := by
    cases hexec.symm.trans (exec_encData_error herror h)
    rfl
  obtain ⟨hstate, herr⟩ : t.enc.state = s.enc.state ∧ t.enc.err = s.enc.err := by
    rcases (effect_of_exec hexec).encState_writers with h | hstart | hsym | hfinish | ⟨hactive, -⟩
    · exact h
    · exact absurd hstart hi
    · simp [hdata (.inl hsym)]
    · simp [hdata (.inr hfinish)]
    · cases herror.symm.trans hactive
  exact ⟨hstate.trans herror, herr, hdata⟩

/-- The decoder keeps its first error until DEC_START (60_exceptions.md R205), by the same two reasons. -/
theorem decError_kept (herror : s.dec.state = .error) (hi : i ≠ .decStart) (hexec : exec i s = .next t) :
    t.dec.state = .error ∧ t.dec.err = s.dec.err ∧
      (((∃ v, i = .decByte v) ∨ (∃ c, i = .decBitchar c) ∨ i = .decEnd) → t = s) := by
  have hdata (h : (∃ v, i = .decByte v) ∨ (∃ c, i = .decBitchar c) ∨ i = .decEnd) : t = s := by
    cases hexec.symm.trans (exec_decData_error herror h)
    rfl
  obtain ⟨hstate, herr⟩ : t.dec.state = s.dec.state ∧ t.dec.err = s.dec.err := by
    rcases (effect_of_exec hexec).decState_writers with h | hstart | hbyte | hchar | hend | ⟨hactive, -⟩
    · exact h
    · exact absurd hstart hi
    · simp [hdata (.inl hbyte)]
    · simp [hdata (.inr (.inl hchar))]
    · simp [hdata (.inr (.inr hend))]
    · cases herror.symm.trans hactive
  exact ⟨hstate.trans herror, herr, hdata⟩

end

/-- Settles O47, by the effect of the command. -/
theorem oneCommandTouchesOneEngine : Obligations.OneCommandTouchesOneEngine := by
  unfold Obligations.OneCommandTouchesOneEngine
  exact fun i s t hexec => (effect_of_exec hexec).leaves_one_engine

/-- Settles O46: the two engines keep their errors, and the table and count writes are refused in ACTIVE only. -/
theorem firstErrorIsKept : Obligations.FirstErrorIsKept := by
  unfold Obligations.FirstErrorIsKept
  refine ⟨fun i s t => encError_kept, fun i s t => decError_kept, fun s herror => ?_, fun s herror => ?_⟩
  · have hjob : s.enc.state ≠ .active := by simp [herror]
    refine ⟨fun y len => ⟨_, exec_ctLen_write hjob y len, ?_⟩, fun y w d => ⟨_, exec_ctWord_write hjob y w d, ?_⟩⟩
    · rw [State.ctEntry_setCtEntry_self]
    · rw [State.ctEntry_setCtEntry_self, CtEntry.word_setWord_self]
  · have hjob : s.dec.state ≠ .active := by simp [herror]
    have hwrite {k : NodeIndex} (hk : k ≠ Config.NIL) (v : Node) : (s.writeTree k v).node k = some v := by
      rw [State.writeTree_of_not_active k v hjob, State.node_setNode_self s k v hk]
    exact ⟨fun k y hk => ⟨_, exec_treeLeaf y hk, hwrite hk _⟩, fun k l r hk => ⟨_, exec_treeInt l r hk, hwrite hk _⟩,
      fun h d => ⟨_, exec_decSetn_write h d hjob, setHalf_written _ _ _⟩⟩

end Sys2Proof.Machine

namespace Sys2Proof.Machine

/-! ## The reset step, between two commands and during one (70_reset_and_hazards.md R231; log entry 4) -/

/-- A command that reset cuts short leaves in the log the first `k` of the events that the whole command appends to it. -/
theorem cutShort_of_appended {x : Word32} {s t : State} {es : List Event} (haccept : acceptCommand x s = .next t)
    (hlog : t.io.log = s.io.log ++ es) (k : Nat) : cutShort x k s = .next (s.hardReset.withLogged (es.take k)) := by
  simp only [cutShort, haccept, hlog, List.drop_left]

/-- Settles O14: the word is accepted and appends its events, and the cut keeps the first of them. -/
theorem resetDuringACommandKeepsAPrefix : Obligations.ResetDuringACommandKeepsAPrefix := by
  unfold Obligations.ResetDuringACommandKeepsAPrefix
  intro s x k ms hmove
  obtain ⟨t, es, haccept, hio⟩ := acceptCommand_next x (s.withInput ms)
  have hlog : t.io.log = s.io.log ++ es := by rw [hio, State.withEvents_io_log, State.withInput_io_log]
  refine ⟨es, t, haccept, hlog, ?_⟩
  rw [step_move hmove, takeMove, cutShort_of_appended haccept hlog]
  rfl

/-- Settles O13: the move is a hard reset of the state without that move. -/
theorem resetRestoresEveryElement : Obligations.ResetRestoresEveryElement := by
  unfold Obligations.ResetRestoresEveryElement
  intro s ms hmove
  rw [step_move hmove, takeMove]
  rfl

end Sys2Proof.Machine
